-- ==== Sys2Proof/Word.lean ====
section
/-! DEFINITION. The widths of `spec/00_scope.md` rules R8 and R12: bytes, 64-bit words, nibbles. A
signed 64-bit value (the spec's i64) is held as its two's-complement pattern, a `Word`; `BitVec.toInt`
is the spec's `sint64`. -/

namespace Sys2Proof

/-- A byte, the spec's u8 (R12). -/
abbrev Byte := BitVec 8

/-- A 64-bit word: the spec's u64, and the pattern of an i64 (R8, R12). -/
abbrev Word := BitVec 64

/-- Four bits: an encoding code or the reserved low nibble of the header (R91). -/
abbrev Nibble := BitVec 4

/-- The largest 64-bit value, 2^64 - 1. -/
def maxWord : Nat := 18446744073709551615

end Sys2Proof
end

