-- ==== Sys2Proof/Config.lean ====
section
/-! DEFINITION. What an implementation fixes (`spec/00_scope.md` rule R9) and the free values of the
spec. An `opaque` constant has no body: no proof can see its value, so a statement about it holds
for every implementation and every draw. -/

namespace Sys2Proof.Config

/-- MAX_PER_WORD: the most values one packed word unpacks to (R9, R141). -/
def maxPerWord : Nat := 240

/-- VARINT_MAX: the most bytes one varint may occupy (R9, R127). -/
def varintMax : Nat := 10

/-- IN_MAX less one. OPEN parameter (R9, D4), assumption 4. -/
opaque inMaxLessOne : Fin 18446744073709551615

/-- IN_MAX, the size of the input memory in bytes: 1 <= IN_MAX <= 2^64 - 1 (R9). -/
def inMax : Nat := inMaxLessOne.val + 1

/-- OUT_MAX as a 64-bit value. OPEN parameter (R9, D5), assumption 4. -/
opaque outMaxWord : Word

/-- OUT_MAX, the size of the output memory in words: 0 <= OUT_MAX <= 2^64 - 1 (R9). -/
def outMax : Nat := outMaxWord.toNat

/-- What the external unpacker makes of a word: a diagnostic, or a list of values of which at most
`maxPerWord` are used (R140, R141). OPEN parameter (D13), assumption 5. -/
opaque unpackFree : Word → Word ⊕ List Word

/-- The diagnostic COUNT gives for packed words of which one is rejected (R142 point 3). OPEN
parameter (D13), assumption 5. -/
opaque countDiag : List Word → Word

/-- The byte IN holds at an offset after a given reset, until it is written (R342). Assumption 8. -/
opaque inAfterReset : (epoch offset : Nat) → Byte

/-- The word OUT holds at an index after a given reset, until it is written (R342). Assumption 8. -/
opaque outAfterReset : (epoch index : Nat) → Word

/-- What a host read of OUT returns while an operation runs (R69, R345), one value a draw.
Assumption 9. -/
opaque busyOutRead : (draw : Nat) → Word

/-- What a natural-number register of the core holds after an operation (R46). Assumption 7. -/
opaque leftNat : (draw register : Nat) → Nat

/-- What a bit-vector register of the core holds after an operation (R46). Assumption 7. -/
opaque leftWord : (draw register : Nat) → Word

end Sys2Proof.Config
end

