-- ==== Sys2Proof/Syntax.lean ====
section
/-! DEFINITION. The instructions: one constructor for each row of `spec/opcode_table.json`
(`spec/30_encoding.md` rule R102). An instruction is the header of an encoded block; its payload is
read from the input memory by its handler (`spec/41_dispatch.md` rules R150, R157). Also the block
notation of rule R104, in which the spec writes whole blocks. -/

namespace Sys2Proof

/-- The operation a block selects (R102). `lo` is the reserved low nibble of the header byte, which
has no effect on any operation (R92, assumption 19). -/
inductive Instr
  /-- No header: IN_LEN = 0 (R153). -/
  | empty
  /-- Code 0 (R170). -/
  | raw (lo : Nibble)
  /-- Code 1 (R190). -/
  | packed (lo : Nibble)
  /-- Code 2 (R220). -/
  | rle (lo : Nibble)
  /-- Codes 3 to 15 (R250), one row of the table each. -/
  | invalid3 (lo : Nibble)
  | invalid4 (lo : Nibble)
  | invalid5 (lo : Nibble)
  | invalid6 (lo : Nibble)
  | invalid7 (lo : Nibble)
  | invalid8 (lo : Nibble)
  | invalid9 (lo : Nibble)
  | invalid10 (lo : Nibble)
  | invalid11 (lo : Nibble)
  | invalid12 (lo : Nibble)
  | invalid13 (lo : Nibble)
  | invalid14 (lo : Nibble)
  | invalid15 (lo : Nibble)
  deriving DecidableEq, Repr

/-- A whole block in the notation of R104. Signed values are given by their 64-bit patterns. -/
inductive Block
  /-- `EMPTY`: the block of length 0. -/
  | empty
  /-- `RAW{lo} [d_0, d_1, ...]`: the words are the sign-folded deltas. -/
  | raw (lo : Nibble) (deltas : List Word)
  /-- `RAWW{lo} [w_0, w_1, ...]`: the words as given. -/
  | rawWords (lo : Nibble) (words : List Word)
  /-- `PACKED{lo} F=f; W=[...]; T=[...]`. -/
  | packed (lo : Nibble) (f : Word) (words : List Word) (trailing : List Byte)
  /-- `RLE{lo} F=f; V1=[...]; V2=[...]; T=[...]`. -/
  | rle (lo : Nibble) (f : Word) (v1 v2 : List Byte) (trailing : List Byte)
  /-- `RLE first, delta, count`: minimal varints, header 0x20. -/
  | rleRun (first delta : Word) (count : Nat)
  /-- `HDR h [bytes]`: any header byte and payload. -/
  | hdr (h : Byte) (payload : List Byte)
  deriving DecidableEq, Repr

end Sys2Proof
end

