-- ==== Sys2Proof/WellFormed.lean ====
section
/-! DEFINITION. Well-formedness of instructions and of blocks in the notation of R104. -/

namespace Sys2Proof

/-- Every instruction is well formed: its one operand is the reserved low nibble, which may have any
value (`spec/30_encoding.md` rules R92, R101). -/
def Instr.wf : Instr → Bool
  | .empty => true
  | .raw _ => true
  | .packed _ => true
  | .rle _ => true
  | .invalid3 _ => true
  | .invalid4 _ => true
  | .invalid5 _ => true
  | .invalid6 _ => true
  | .invalid7 _ => true
  | .invalid8 _ => true
  | .invalid9 _ => true
  | .invalid10 _ => true
  | .invalid11 _ => true
  | .invalid12 _ => true
  | .invalid13 _ => true
  | .invalid14 _ => true
  | .invalid15 _ => true

/-- The bytes `bs`, the first of them at position `i` of its varint, are exactly one varint of R125:
every byte but the last has bit 7 set, there are at most ten, and a tenth is 0 or 1 (R127). -/
def varintShape : (i : Nat) → (bs : List Byte) → Bool
  | _, [] => false
  | i, b :: bs =>
    decide (i < Config.varintMax) &&
      if b.getLsbD 7 then varintShape (i + 1) bs
      else bs.isEmpty && decide (i = 9 → b.toNat ≤ 1)

/-- Well-formed blocks: a Packed-Delta fragment of at most 7 bytes (R95), Run-Length varints that are
varints (R96), and a repeat count that a count field can hold (R225). -/
def Block.wf : Block → Bool
  | .empty => true
  | .raw _ _ => true
  | .rawWords _ _ => true
  | .packed _ _ _ trailing => decide (trailing.length ≤ 7)
  | .rle _ _ v1 v2 _ => varintShape 0 v1 && varintShape 0 v2
  | .rleRun _ _ count => decide (1 ≤ count) && decide (count ≤ maxWord + 1)
  | .hdr _ _ => true

end Sys2Proof
end

