-- ==== Sys2Proof/Decode.lean ====
section
/-! DEFINITION. The decoder from the bytes of a block to its instruction (`spec/30_encoding.md` rules
R90, R91, R101, R102), and after it the encoder, with the test-block writers of rules R104, R123 and
R129. -/

namespace Sys2Proof

/-- CODE, the encoding code: bits 7:4 of the header byte (R91, R154). -/
def headerCode (h : Byte) : Nibble := h.extractLsb' 4 4

/-- Bits 3:0 of the header byte, reserved and ignored (R91, R92). -/
def headerLow (h : Byte) : Nibble := h.extractLsb' 0 4

/-- The operation a header byte selects: a function of its high nibble alone (R102). All sixteen codes
select an operation, so nothing is refused here: codes 3 to 15 are the Invalid operations (R101). -/
def decodeHeader (h : Byte) : Instr :=
  match (headerCode h).toNat with
  | 0 => .raw (headerLow h)
  | 1 => .packed (headerLow h)
  | 2 => .rle (headerLow h)
  | 3 => .invalid3 (headerLow h)
  | 4 => .invalid4 (headerLow h)
  | 5 => .invalid5 (headerLow h)
  | 6 => .invalid6 (headerLow h)
  | 7 => .invalid7 (headerLow h)
  | 8 => .invalid8 (headerLow h)
  | 9 => .invalid9 (headerLow h)
  | 10 => .invalid10 (headerLow h)
  | 11 => .invalid11 (headerLow h)
  | 12 => .invalid12 (headerLow h)
  | 13 => .invalid13 (headerLow h)
  | 14 => .invalid14 (headerLow h)
  | _ => .invalid15 (headerLow h)

/-- The instruction of a block's bytes, and the bytes after its header (the payload, R93). No byte at
all is the empty block (R90, R153). Total, and no byte string is refused (R102: "Every one of the 256
header values matches exactly one row"). -/
def decode : List Byte → Instr × List Byte
  | [] => (.empty, [])
  | h :: payload => (decodeHeader h, payload)

/-- The bytes of a number whose bit 0 is bit 0 of the first byte, as `opcode_table.json` numbers
an instruction's bits. -/
def tableBytes (nbits w : Nat) : List Byte :=
  (List.range (nbits / 8)).map fun k => BitVec.ofNat 8 (w >>> (8 * k))

/-- The instruction the decoder reads from an instruction's bits (the host's fixed name). -/
def decodeTableWord (nbits w : Nat) : Option Instr :=
  some (decode (tableBytes nbits w)).1

/-! ### The encoder -/

/-- The header byte with code `code` and low nibble `lo` (R91). -/
def headerByte (code lo : Nibble) : Byte := code ++ lo

/-- The bytes of an instruction: its header byte, or none for the empty block (R90, R102). -/
def encode : Instr → List Byte
  | .empty => []
  | .raw lo => [headerByte 0 lo]
  | .packed lo => [headerByte 1 lo]
  | .rle lo => [headerByte 2 lo]
  | .invalid3 lo => [headerByte 3 lo]
  | .invalid4 lo => [headerByte 4 lo]
  | .invalid5 lo => [headerByte 5 lo]
  | .invalid6 lo => [headerByte 6 lo]
  | .invalid7 lo => [headerByte 7 lo]
  | .invalid8 lo => [headerByte 8 lo]
  | .invalid9 lo => [headerByte 9 lo]
  | .invalid10 lo => [headerByte 10 lo]
  | .invalid11 lo => [headerByte 11 lo]
  | .invalid12 lo => [headerByte 12 lo]
  | .invalid13 lo => [headerByte 13 lo]
  | .invalid14 lo => [headerByte 14 lo]
  | .invalid15 lo => [headerByte 15 lo]

/-- The 8 bytes of a word, big-endian: bits 63:56 first (R62). -/
def beBytes (w : Word) : List Byte :=
  [w.extractLsb' 56 8, w.extractLsb' 48 8, w.extractLsb' 40 8, w.extractLsb' 32 8,
   w.extractLsb' 24 8, w.extractLsb' 16 8, w.extractLsb' 8 8, w.extractLsb' 0 8]

/-- `zigzag_encode(v)` (R123), the inverse of the sign-fold, in its 64-bit form. -/
def zigzagEncode (v : Word) : Word := (v <<< 1) ^^^ v.sshiftRight 63

/-- The minimal varint of `x` in at most `n` bytes (R129). -/
def uvarintBytes : (n x : Nat) → List Byte
  | 0, _ => []
  | n + 1, x =>
    if x < 128 then [BitVec.ofNat 8 x]
    else BitVec.ofNat 8 (x % 128 + 128) :: uvarintBytes n (x / 128)

/-- `uvarint(x)`: the minimal encoding of a u64 (R129). -/
def uvarint (x : Word) : List Byte := uvarintBytes Config.varintMax x.toNat

/-- The bytes of a block in the notation of R104. -/
def Block.bytes : Block → List Byte
  | .empty => []
  | .raw lo deltas => headerByte 0 lo :: deltas.flatMap fun d => beBytes (zigzagEncode d)
  | .rawWords lo words => headerByte 0 lo :: words.flatMap beBytes
  | .packed lo f words trailing =>
    headerByte 1 lo :: (beBytes f ++ words.flatMap beBytes ++ trailing)
  | .rle lo f v1 v2 trailing => headerByte 2 lo :: (beBytes f ++ v1 ++ v2 ++ trailing)
  | .rleRun first delta count =>
    headerByte 2 0 :: (beBytes (zigzagEncode first) ++ uvarint (zigzagEncode delta) ++
      uvarint (BitVec.ofNat 64 (count - 1)))
  | .hdr h payload => h :: payload

end Sys2Proof
end

