-- ==== Sys2Proof/Machine/State.lean ====
section
/-! DEFINITION. The state of one block instance (`spec/10_state.md` rules R20 to R50), the events that
the host and the platform contribute (`spec/46_host_commands.md`, `spec/70_reset_and_hazards.md`), the
reasons a step can stop, and the state after reset. -/

namespace Sys2Proof.Machine

/-- A memory as plain data: (address, contents) pairs, addresses strictly rising. A cell that is not
listed has not been written since the last reset (assumption 8). `Memory Byte` is a list of
`Host.Cell`. -/
abbrev Memory (α : Type) := List (Nat × α)

/-- The error kinds of `spec/60_exceptions.md` rule R300. Codes 8 to 15 are never produced, so they
have no constructor. -/
inductive ErrKind
  | none
  | malformedLength
  | tooShort
  | malformedVarint
  | invalidPackedWord
  | unknownEncoding
  | capacityExceeded
  | inputRange
  deriving DecidableEq, Repr

/-- The fields of STATUS (R23). Bits 63:14 are reserved and read 0, so they hold nothing. -/
structure Status where
  busy : Bool
  done : Bool
  err : Bool
  empty : Bool
  errKind : ErrKind
  errNibble : Nibble
  handler : BitVec 2
  deriving DecidableEq, Repr

/-- PHASE (R45): IDLE, HEADER, and one value for each step of the strategy algorithms. -/
inductive Phase
  | idle
  | header
  | rawLoop
  | pkFirst
  | pkCount
  | pkLoop
  | rleFirst
  | rleDelta
  | rleCount
  | rleFill
  | finish
  deriving DecidableEq, Repr

/-- The core's internal registers other than PHASE (R40), invisible to the host. -/
structure CoreRegs where
  /-- offset in IN of the next byte to consume (R41) -/
  pos : Nat
  /-- IN_LEN as read at START -/
  len : Nat
  /-- the capacity (R37) -/
  cap : Nat
  /-- the unnormalized encoding code (R154) -/
  nib : Nibble
  /-- the normalized code (R155) -/
  code : BitVec 2
  /-- the running accumulator (R42) -/
  acc : Word
  /-- the first value of a Packed-Delta or Run-Length payload -/
  first : Word
  /-- the Run-Length delta -/
  delta : Word
  /-- the result length, 0 to 2^64 (R44) -/
  nout : Nat
  /-- index in OUT of the next element to write (R43) -/
  idx : Nat
  deriving DecidableEq, Repr

/-- The implementation parameters a run has: fixed data that no step changes (R9, assumption 4). -/
structure Params where
  inMax : Nat
  outMax : Nat
  deriving DecidableEq, Repr

/-- The commands of the host (`spec/46_host_commands.md`). START, CLEAR and the IRQ_EN write are writes
of register 0 (R262 to R264). -/
inductive HostCmd
  /-- REGREAD n (R260) -/
  | regRead (n : Nat)
  /-- REGWRITE n, v (R261) -/
  | regWrite (n : Nat) (v : Word)
  /-- INWRITE p, b (R265) -/
  | inWrite (p : Nat) (b : Byte)
  /-- INREAD p (R266) -/
  | inRead (p : Nat)
  /-- OUTREAD i (R266) -/
  | outRead (i : Nat)
  /-- OUTWRITE i, v (R267) -/
  | outWrite (i : Nat) (v : Word)
  deriving DecidableEq, Repr

/-- What happens next (assumptions 1 and 2). The order in which the agents move is part of the state,
so every interleaving of R349 is some list of events. -/
inductive Event
  /-- the host issues a command -/
  | host (c : HostCmd)
  /-- the core takes one step: one phase of the operation in progress (R45) -/
  | phase
  /-- the core runs, undisturbed, until the operation in progress completes -/
  | run
  /-- the platform asserts and releases reset (R340, R341) -/
  | reset
  deriving DecidableEq, Repr

/-- What a read of the host returned (R260, R266). -/
inductive Reply
  | reg (n : Nat) (v : Word)
  | inByte (p : Nat) (b : Byte)
  | outWord (i : Nat) (v : Word)
  deriving DecidableEq, Repr

/-- The state of one block instance. -/
structure State where
  /-- IN_MAX and OUT_MAX (R9) -/
  params : Params
  /-- CTRL.IRQ_EN, the one bit of register 0 that holds state (R22) -/
  irqEn : Bool
  /-- STATUS, register 1 (R23) -/
  status : Status
  /-- IN_LEN, register 2 (R24) -/
  inLen : Word
  /-- OUT_CAP, register 3 (R25) -/
  outCap : Word
  /-- RESULT_LEN, register 4 (R26) -/
  resultLen : Word
  /-- ERR_INFO, register 5 (R27) -/
  errInfo : Word
  /-- the input memory IN (R30) -/
  inMem : Memory Byte
  /-- the output memory OUT (R31) -/
  outMem : Memory Word
  /-- PHASE (R45) -/
  phase : Phase
  /-- the other internal registers of the core (R40) -/
  regs : CoreRegs
  /-- the model's own: what happens next; the empty list lets the core run (assumption 2) -/
  events : List Event
  /-- the model's own: what the host's reads returned, oldest first (assumption 20) -/
  replies : List Reply
  /-- the model's own: how many free values have been drawn (assumption 20) -/
  draws : Nat
  /-- the model's own: how many resets there have been (assumption 20) -/
  epoch : Nat
  deriving DecidableEq, Repr

/-- Why the machine stops with a fault. -/
inductive Fault
  /-- HostHazard (R344): raised by an INWRITE or OUTWRITE while STATUS.BUSY = 1. The run is faulted and
  no claim is made of it. Safe: the model stops where the spec makes no promise. -/
  | hostHazard
  deriving DecidableEq, Repr

/-- Why a step has no meaning. -/
inductive Refusal
  /-- The instruction has no meaning yet; raised by `exec`'s arm alone. Safe. -/
  | notModelled (mnemonic : String)
  /-- The block instance is built with an unpacker that is not admitted (R143): raised at every step of
  such an instance, whatever its block is, and by PACKED over such an unpacker. The configured unpacker
  is admitted (assumption 5), so `step` never answers with it. Safe. -/
  | unpackerNotAdmitted
  deriving DecidableEq, Repr

/-- STATUS after reset: 0 (R50). -/
def Status.reset : Status :=
  { busy := false, done := false, err := false, empty := false, errKind := .none, errNibble := 0,
    handler := 0 }

/-- The internal registers after reset. R50 leaves them unspecified; 0 is the model's choice
(DESIGN CHOICE, unsafe, assumption 6). -/
def CoreRegs.reset : CoreRegs :=
  { pos := 0, len := 0, cap := 0, nib := 0, code := 0, acc := 0, first := 0, delta := 0, nout := 0,
    idx := 0 }

/-- The block right after reset (R50, R340): every register 0, PHASE = IDLE, IN and OUT unspecified
(R342: nothing is listed), and no event to come. -/
def State.reset : State :=
  { params := { inMax := Config.inMax, outMax := Config.outMax },
    irqEn := false, status := Status.reset, inLen := 0, outCap := 0, resultLen := 0, errInfo := 0,
    inMem := [], outMem := [], phase := .idle, regs := CoreRegs.reset,
    events := [], replies := [], draws := 0, epoch := 0 }

end Sys2Proof.Machine
end

