-- ==== Sys2Proof/Machine/Flags.lean ====
section
/-! DEFINITION. STATUS, the block's only flag register (`spec/10_state.md` rules R23, R32): its 64-bit
value and what START, CLEAR and completion make of it (`spec/46_host_commands.md` rules R262, R263,
`spec/60_exceptions.md` rules R310, R311); the value of CTRL (R22) and the interrupt output (R33). -/

namespace Sys2Proof.Machine

/-- The ERR_KIND code of an error kind (R300). -/
def ErrKind.code : ErrKind → BitVec 4
  | .none => 0
  | .malformedLength => 1
  | .tooShort => 2
  | .malformedVarint => 3
  | .invalidPackedWord => 4
  | .unknownEncoding => 5
  | .capacityExceeded => 6
  | .inputRange => 7

/-- The value of register 1 (R23): HANDLER in bits 13:12, ERR_NIBBLE in 11:8, ERR_KIND in 7:4, then
EMPTY, ERR, DONE and BUSY; bits 63:14 read 0. -/
def Status.word (f : Status) : Word :=
  0#50 ++ f.handler ++ f.errNibble ++ f.errKind.code ++ BitVec.ofBool f.empty ++
    BitVec.ofBool f.err ++ BitVec.ofBool f.done ++ BitVec.ofBool f.busy

/-- STATUS at START (R262): BUSY alone. -/
def startStatus : Status := { Status.reset with busy := true }

/-- STATUS after CLEAR (R263): DONE falls, every other field is kept. -/
def clearStatus (f : Status) : Status := { f with done := false }

/-- STATUS at an error completion (R310), for the given NIB and CODE. -/
def errorStatus (kind : ErrKind) (nib : Nibble) (code : BitVec 2) : Status :=
  { busy := false, done := true, err := true, empty := false, errKind := kind,
    errNibble := if kind = .unknownEncoding then nib else 0,
    handler := if kind = .inputRange then 0 else code }

/-- STATUS at a success completion (R311), for the given CODE. -/
def okStatus (code : BitVec 2) : Status :=
  { busy := false, done := true, err := false, empty := false, errKind := .none, errNibble := 0,
    handler := code }

/-- STATUS at the completion of the empty block (R153, R311). -/
def okEmptyStatus : Status :=
  { busy := false, done := true, err := false, empty := true, errKind := .none, errNibble := 0,
    handler := 0 }

/-- A read of CTRL (R22): IRQ_EN in bit 2, every other bit 0. -/
def ctrlWord (irqEn : Bool) : Word := (BitVec.ofBool irqEn).setWidth 64 <<< 2

/-- The interrupt output (R33, R320): `irq = STATUS.DONE & CTRL.IRQ_EN`. -/
def State.irq (s : State) : Bool := s.status.done && s.irqEn

end Sys2Proof.Machine
end

