-- ==== Sys2Proof/Machine/Ops.lean ====
section
/-! DEFINITION. The named operations over memory and registers: the memories (`spec/20_memory.md`
rules R60, R67), the registers (`spec/10_state.md` rules R22 to R28), START and CLEAR
(`spec/46_host_commands.md` rules R262, R263), and completion, the block's form of taking an exception
(`spec/60_exceptions.md` rules R310, R311). There is no return from one (R313): the next START begins
a fresh operation. -/

namespace Sys2Proof.Machine

/-! ### Memory as a list -/

/-- What a memory lists at an address; `none` when nothing has been written there since reset. -/
def Memory.get {α : Type} : Memory α → Nat → Option α
  | [], _ => none
  | (b, v) :: m, a => if a = b then some v else if a < b then none else Memory.get m a

/-- Store a value, keeping the addresses strictly rising. -/
def Memory.set {α : Type} : Memory α → Nat → α → Memory α
  | [], a, v => [(a, v)]
  | (b, w) :: m, a, v =>
    if a = b then (a, v) :: m
    else if a < b then (a, v) :: (b, w) :: m
    else (b, w) :: Memory.set m a v

/-- Every address of a memory is above `lo` and below the next one's. -/
def Memory.above {α : Type} : Nat → Memory α → Bool
  | _, [] => true
  | lo, (a, _) :: m => decide (lo < a) && Memory.above a m

/-- The canonical form: addresses strictly rising. No entry equals what an unlisted address reads as,
since that is no stored value at all (assumption 8). -/
def Memory.wf {α : Type} : Memory α → Bool
  | [] => true
  | (a, _) :: m => Memory.above a m

/-- Every listed address is below `bound`. -/
def Memory.below {α : Type} (bound : Nat) (m : Memory α) : Bool := m.all fun c => decide (c.1 < bound)

/-! ### IN and OUT -/

/-- The byte IN holds at offset `p`: the byte written there, or, when nothing has been written since
reset, a free value (R342, assumption 8). At and above IN_MAX a read gives 0 (R266). -/
def readIn (s : State) (p : Nat) : Byte :=
  if p < s.params.inMax then (Memory.get s.inMem p).getD (Config.inAfterReset s.epoch p) else 0

/-- The word OUT holds at index `i`: as `readIn`, with OUT_MAX (R266, R342). -/
def readOut (s : State) (i : Nat) : Word :=
  if i < s.params.outMax then (Memory.get s.outMem i).getD (Config.outAfterReset s.epoch i) else 0

/-- `IN[p] <- b`; no effect at and above IN_MAX (R265). -/
def writeIn (s : State) (p : Nat) (b : Byte) : State :=
  { s with inMem := if p < s.params.inMax then Memory.set s.inMem p b else s.inMem }

/-- `OUT[i] <- v` (`MemWrite(OUT, i, 8, v)`, R13); no effect at and above OUT_MAX (R267). -/
def writeOut (s : State) (i : Nat) (v : Word) : State :=
  { s with outMem := if i < s.params.outMax then Memory.set s.outMem i v else s.outMem }

/-- Free `k` values: the next draws are numbered from here. -/
def drawn (s : State) (k : Nat) : State := { s with draws := s.draws + k }

/-! ### Host registers -/

/-- The value a host read of register `n` returns (R22 to R28, R260). -/
def regValue (s : State) (n : Nat) : Word :=
  match n with
  | 0 => ctrlWord s.irqEn
  | 1 => s.status.word
  | 2 => s.inLen
  | 3 => s.outCap
  | 4 => s.resultLen
  | 5 => s.errInfo
  | _ => 0

/-! ### Numbers that go into a register -/

/-- `min(n, 2^64 - 1)`, the saturated length CapacityExceeded reports (R300, R305). -/
def satWord (n : Nat) : Word := BitVec.ofNat 64 (min n maxWord)

/-! ### Starting an operation -/

/-- START (R262): LEN and CAP are fixed (R37), POS is 0 (R41), the previous outcome is cleared, and the
core is at HEADER. The other internal registers keep what they held (assumption 12). -/
def startOperation (s : State) : State :=
  { s with
    status := startStatus, resultLen := 0, errInfo := 0, phase := .header,
    regs := { s.regs with
      len := s.inLen.toNat, cap := min s.outCap.toNat s.params.outMax, pos := 0 } }

/-- CLEAR (R263). -/
def clearDone (s : State) : State := { s with status := clearStatus s.status }

/-! ### Completion -/

/-- What the internal registers hold after an operation: unspecified (R46), so free values
(assumption 7). -/
def leftRegs (draw : Nat) : CoreRegs :=
  { pos := Config.leftNat draw 0, len := Config.leftNat draw 1, cap := Config.leftNat draw 2,
    nib := (Config.leftWord draw 3).setWidth 4, code := (Config.leftWord draw 4).setWidth 2,
    acc := Config.leftWord draw 5, first := Config.leftWord draw 6, delta := Config.leftWord draw 7,
    nout := Config.leftNat draw 8, idx := Config.leftNat draw 9 }

/-- The end of every operation: the given STATUS, RESULT_LEN and ERR_INFO, and PHASE = IDLE, in one
step of the core (R310, R311). -/
def complete (status : Status) (resultLen errInfo : Word) (s : State) : State :=
  { s with
    status := status, resultLen := resultLen, errInfo := errInfo, phase := .idle,
    regs := leftRegs s.draws, draws := s.draws + 1 }

/-- `raise E(info)` (R310): the one way an operation ends in an error. -/
def raise (kind : ErrKind) (info : Word) (s : State) : State :=
  complete (errorStatus kind s.regs.nib s.regs.code) 0 info s

/-- `return Ok(seq)` (R311), where OUT[0 .. NOUT-1] already hold seq. -/
def returnOk (s : State) : State :=
  complete (okStatus s.regs.code) (BitVec.ofNat 64 s.regs.nout) 0 s

/-- `return OkEmpty` (R153, R311). -/
def returnOkEmpty (s : State) : State := complete okEmptyStatus 0 0 s

end Sys2Proof.Machine
end

