-- ==== Sys2Proof/Machine/Operands.lean ====
section
/-! DEFINITION. The primitives every strategy decoder is built from (`spec/40_primitives.md`): the
sign-fold, fixed-width fields, varints and accumulation; and the assembly of bytes into words
(`spec/20_memory.md` rules R62, R63). -/

namespace Sys2Proof.Machine

/-- `zigzag(w)` in its branch-free 64-bit form (R121), the pattern of an i64. -/
def zigzag (w : Word) : Word := (w >>> 1) ^^^ (0 - (w &&& 1))

/-- `Accumulate(acc, d)` (R130): wraps modulo 2^64. -/
def accumulate (acc d : Word) : Word := acc + zigzag d

/-- A big-endian number: the first byte is the most significant (R62). -/
def beWord (bs : List Byte) : Word := bs.foldl (fun a b => a <<< 8 ||| b.setWidth 64) 0

/-- `MemRead(IN, p, 8)` (R13, R62). -/
def fixedAt (s : State) (p : Nat) : Word :=
  beWord [readIn s p, readIn s (p + 1), readIn s (p + 2), readIn s (p + 3),
    readIn s (p + 4), readIn s (p + 5), readIn s (p + 6), readIn s (p + 7)]

/-- Move the read pointer forward by `k` bytes (R41). -/
def advance (s : State) (k : Nat) : State := { s with regs := { s.regs with pos := s.regs.pos + k } }

/-- The value `ReadFixed()` returns (R124); the caller advances POS by 8. -/
def readFixed (s : State) : Word := fixedAt s s.regs.pos

/-- The loop of `ReadUvarint()` (R125) over the bytes `rd` of a block of length `len`, from offset
`pos`, at its `i`-th byte and with the value `x` so far; at most `n` more bytes. The answer is the
value and how many bytes the varint occupies, or `none` for Fail. -/
def uvarintLoop (rd : Nat → Byte) (len pos : Nat) : (n i : Nat) → (x : Word) → Option (Word × Nat)
  | 0, _, _ => none
  | n + 1, i, x =>
    if len ≤ pos + i then none
    else
      let b := rd (pos + i)
      if b.getLsbD 7 then
        uvarintLoop rd len pos n (i + 1) (x ||| ((b &&& 0x7F).setWidth 64 <<< (7 * i)))
      else if i = 9 ∧ 1 < b.toNat then none
      else some (x ||| (b.setWidth 64 <<< (7 * i)), i + 1)

/-- `ReadUvarint()` at POS, bounded by LEN (R125): the value and the bytes it occupies; `none` is Fail,
on which POS is not advanced. -/
def readUvarint (s : State) : Option (Word × Nat) :=
  uvarintLoop (readIn s) s.regs.len s.regs.pos Config.varintMax 0 0

/-- The `n` bytes of IN from offset `p`. -/
def bytesAt (s : State) (p : Nat) : (n : Nat) → List Byte
  | 0 => []
  | n + 1 => readIn s p :: bytesAt s (p + 1) n

/-- The complete big-endian 8-byte words of a byte string, in order; up to 7 bytes may be left over
(R95, R142). -/
def wordsOf : List Byte → List Word
  | b0 :: b1 :: b2 :: b3 :: b4 :: b5 :: b6 :: b7 :: rest =>
    beWord [b0, b1, b2, b3, b4, b5, b6, b7] :: wordsOf rest
  | _ => []

/-- `Lp`, the length of the payload (R93, R157). -/
def payloadLen (s : State) : Nat := s.regs.len - 1

end Sys2Proof.Machine
end

