-- ==== Sys2Proof/Machine/Unpacker.lean ====
section
/-! DEFINITION. The external bit-unpacker (`spec/40_primitives.md` rules R140 to R145): its interface,
its contract, the refusal of one that breaks it, and the configured one. The block takes it as an argument:
every phase of the core is defined over any `Unpacker`, and the machine runs the one `Config` leaves open
(assumption 5). -/

namespace Sys2Proof.Machine

/-- What UNPACK and COUNT answer: a value, or a 64-bit diagnostic DIAG (R140). -/
inductive Answer (α : Type)
  | ok (value : α)
  | err (diag : Word)
  deriving DecidableEq, Repr

/-- `UNPACK` and `COUNT` (R140), pure functions of their argument (R144). -/
structure Unpacker where
  unpack : Word → Answer (List Word)
  count : List Byte → Answer Nat

/-- The values of all the words, or `none` when a word is rejected. -/
def Unpacker.lists (u : Unpacker) : List Word → Option (List Word)
  | [] => some []
  | w :: ws =>
    match u.unpack w, Unpacker.lists u ws with
    | .ok vs, some rest => some (vs ++ rest)
    | _, _ => none

/-- The answer of COUNT as an optional length. -/
def Answer.toOption {α : Type} : Answer α → Option α
  | .ok a => some a
  | .err _ => none

/-- The bytes of the complete words alone. -/
def completePart (bs : List Byte) : List Byte := bs.take (8 * (bs.length / 8))

/-- An admitted configuration (R143): on all words no list is longer than 240 (R141), and on all byte
strings COUNT is paired with UNPACK (R142): it ignores trailing bytes, and it succeeds exactly when every
complete word unpacks, with the sum of the lengths. -/
def Unpacker.Admitted (u : Unpacker) : Prop :=
  (∀ w vs, u.unpack w = .ok vs → vs.length ≤ Config.maxPerWord) ∧
  (∀ bs, u.count bs = u.count (completePart bs)) ∧
  (∀ bs, (u.count bs).toOption = (u.lists (wordsOf bs)).map List.length)

/-- An open UNPACK: what `free` says of a word, with at most 240 values of a list (R140, R141). -/
def unpackOf (free : Word → Word ⊕ List Word) (w : Word) : Answer (List Word) :=
  match free w with
  | .inl d => .err d
  | .inr vs => .ok (vs.take Config.maxPerWord)

/-- The lengths of all the words' lists added up, or `none` when a word is rejected. -/
def countWords (free : Word → Word ⊕ List Word) : List Word → Option Nat
  | [] => some 0
  | w :: ws =>
    match unpackOf free w, countWords free ws with
    | .ok vs, some n => some (vs.length + n)
    | _, _ => none

/-- An UNPACK with the COUNT that R142 pairs with it, whose diagnostic `diag` is open. -/
def Unpacker.paired (free : Word → Word ⊕ List Word) (diag : List Word → Word) : Unpacker :=
  { unpack := unpackOf free,
    count := fun bs =>
      match countWords free (wordsOf bs) with
      | some n => .ok n
      | none => .err (diag (wordsOf bs)) }

/-- The unpacker of the machine (R140): any admitted one (assumption 5). -/
def unpacker : Unpacker := Unpacker.paired Config.unpackFree Config.countDiag

/-! ### Admission -/

theorem countWords_eq (free : Word → Word ⊕ List Word) (diag : List Word → Word) (ws : List Word) :
    countWords free ws = ((Unpacker.paired free diag).lists ws).map List.length := by
  induction ws with
  | nil => rfl
  | cons w ws ih =>
    rw [countWords, Unpacker.lists, ih,
      show (Unpacker.paired free diag).unpack w = unpackOf free w from rfl]
    cases unpackOf free w <;> cases (Unpacker.paired free diag).lists ws <;> simp

/-- The complete words are those of the complete part. -/
theorem wordsOf_completePart (bs : List Byte) : wordsOf (completePart bs) = wordsOf bs := by
  induction bs using wordsOf.induct with
  | case1 b0 b1 b2 b3 b4 b5 b6 b7 rest ih =>
    have h : 8 * ((rest.length + 1 + 1 + 1 + 1 + 1 + 1 + 1 + 1) / 8) = 8 * (rest.length / 8) + 8 := by
      omega
    rw [wordsOf, ← ih]
    simp only [completePart, List.length_cons, h, List.take_succ_cons, wordsOf]
  | case2 bs h =>
    have hl : bs.length < 8 := by
      match bs, h with
      | [], _ | [_], _ | [_, _], _ | [_, _, _], _ | [_, _, _, _], _ | [_, _, _, _, _], _
      | [_, _, _, _, _, _], _ | [_, _, _, _, _, _, _], _ => simp
      | _ :: _ :: _ :: _ :: _ :: _ :: _ :: _ :: _, h => exact absurd rfl (h _ _ _ _ _ _ _ _ _)
    have h0 : completePart bs = [] := by
      rw [completePart, Nat.div_eq_of_lt hl, Nat.mul_zero, List.take_zero]
    rw [h0]
    exact (wordsOf.eq_2 bs h).symm

/-- Every paired unpacker meets the contract (R141, R142). -/
theorem Unpacker.paired_admitted (free : Word → Word ⊕ List Word) (diag : List Word → Word) :
    (Unpacker.paired free diag).Admitted := by
  refine ⟨fun w vs h => ?_, fun bs => ?_, fun bs => ?_⟩
  · simp only [Unpacker.paired, unpackOf] at h
    split at h
    · cases h
    · cases h
      exact List.length_take_le _ _
  · simp only [Unpacker.paired, wordsOf_completePart]
  · rw [← countWords_eq]
    simp only [Unpacker.paired]
    cases countWords free (wordsOf bs) <;> rfl

/-- The machine's own unpacker is admitted, so nothing it does is refused. -/
def unpackerDecision : Decidable unpacker.Admitted := .isTrue (Unpacker.paired_admitted _ _)

/-- R143: what a block instance built with `u` does is `outcome` when `u` is admitted, which `d` decides
(assumption 5). Built with any other it is refused by name, whatever the block is. -/
def Unpacker.ifAdmitted (u : Unpacker) (d : Decidable u.Admitted)
    (outcome : Host.Outcome State Fault Refusal) : Host.Outcome State Fault Refusal :=
  match d with
  | .isTrue _ => outcome
  | .isFalse _ => .refused .unpackerNotAdmitted

end Sys2Proof.Machine
end

