-- ==== Sys2Proof/Machine/Phases.lean ====
section
/-! DEFINITION. The core, one phase a step (`spec/10_state.md` rule R45): the dispatch of the header
code, the steps of the three strategy algorithms (`spec/42_raw.md` rule R170, `spec/43_packed_delta.md`
rule R190, `spec/44_run_length.md` rule R220), and an operation run to its completion. How the
algorithms are cut into phases is not architectural (assumption 1). -/

namespace Sys2Proof.Machine

/-! ### Dispatch -/

/-- CODE, the normalized code (R155): codes above 2 become the sentinel 3. -/
def normalize (nib : Nibble) : BitVec 2 := if nib.toNat ≤ 2 then nib.setWidth 2 else 3

/-- The header byte has been consumed: POS = 1, and NIB and CODE are fixed (R152, R154, R155). -/
def dispatchTo (nib : Nibble) (s : State) : State :=
  { s with regs := { s.regs with pos := 1, nib := nib, code := normalize nib } }

/-- InputRange (R151): LEN > IN_MAX. No header byte is read, so no instruction is selected. -/
def raiseInputRange (s : State) : State := raise .inputRange (BitVec.ofNat 64 s.regs.len) s

/-! ### Raw -/

/-- One element of the Raw loop (R173): the next word is added to ACC, ACC is the next element. -/
def rawElementStep (s : State) : State :=
  let acc := accumulate s.regs.acc (readFixed s)
  writeOut { s with regs := { s.regs with pos := s.regs.pos + 8, acc := acc, idx := s.regs.idx + 1 } }
    s.regs.idx acc

/-- RAW_LOOP (R170): one element while IDX < NOUT, then FINISH. -/
def rawLoopPhase (s : State) : State :=
  if s.regs.idx < s.regs.nout then rawElementStep s else { s with phase := .finish }

/-! ### Packed-Delta -/

/-- PK_FIRST (R191, R192): TooShort below 8 bytes, else FIRST is the sign-folded first word. -/
def pkFirstPhase (s : State) : State :=
  if payloadLen s < 8 then raise .tooShort (BitVec.ofNat 64 (payloadLen s)) s
  else
    { s with
      phase := .pkCount,
      regs := { s.regs with first := zigzag (readFixed s), pos := s.regs.pos + 8 } }

/-- The bytes handed to COUNT: all that follow the first value (R193). -/
def countBytes (s : State) : List Byte := bytesAt s s.regs.pos (s.regs.len - s.regs.pos)

/-- Sizing (R193, R194): with `n` values to come the result has 1 + n elements; CapacityExceeded above
CAP, else element 0 is written and the decoding pass begins. -/
def pkSize (n : Nat) (s : State) : State :=
  if s.regs.cap < 1 + n then raise .capacityExceeded (satWord (1 + n)) s
  else
    writeOut
      { s with
        phase := .pkLoop,
        regs := { s.regs with nout := 1 + n, acc := s.regs.first, idx := 1 } }
      0 s.regs.first

/-- PK_COUNT (R193, R197): the counting pass. -/
def pkCountPhase (u : Unpacker) (s : State) : State :=
  match u.count (countBytes s) with
  | .err d => raise .invalidPackedWord d s
  | .ok n => pkSize n s

/-- One unpacked value (R195): it is added to ACC, ACC is the next element. -/
def pkValueStep (s : State) (v : Word) : State :=
  let acc := accumulate s.regs.acc v
  writeOut { s with regs := { s.regs with acc := acc, idx := s.regs.idx + 1 } } s.regs.idx acc

/-- PK_LOOP (R195, R196): one packed word while a complete one remains, then FINISH. The `err` arm is
unreachable with an admitted unpacker (R199). -/
def pkLoopPhase (u : Unpacker) (s : State) : State :=
  if s.regs.pos + 8 ≤ s.regs.len then
    match u.unpack (readFixed s) with
    | .err d => raise .invalidPackedWord d s
    | .ok vs => vs.foldl pkValueStep (advance s 8)
  else { s with phase := .finish }

/-! ### Run-Length -/

/-- RLE_FIRST (R221, R222): TooShort below 8 bytes, else FIRST is the sign-folded first word. -/
def rleFirstPhase (s : State) : State :=
  if payloadLen s < 8 then raise .tooShort (BitVec.ofNat 64 (payloadLen s)) s
  else
    { s with
      phase := .rleDelta,
      regs := { s.regs with first := zigzag (readFixed s), pos := s.regs.pos + 8 } }

/-- RLE_DELTA (R223): the delta varint, sign-folded; info 0 names the delta field. -/
def rleDeltaPhase (s : State) : State :=
  match readUvarint s with
  | none => raise .malformedVarint 0 s
  | some (v, n) =>
    { s with
      phase := .rleCount,
      regs := { s.regs with delta := zigzag v, pos := s.regs.pos + n } }

/-- Sizing (R225, R226): the repeat count is the count field plus one, exactly; CapacityExceeded above
CAP, else the progression begins at FIRST. -/
def rleSize (count n : Nat) (s : State) : State :=
  if s.regs.cap < count + 1 then raise .capacityExceeded (satWord (count + 1)) s
  else
    { s with
      phase := .rleFill,
      regs := { s.regs with
        nout := count + 1, acc := s.regs.first, idx := 0, pos := s.regs.pos + n } }

/-- RLE_COUNT (R224): the count varint, not sign-folded; info 1 names the count field. -/
def rleCountPhase (s : State) : State :=
  match readUvarint s with
  | none => raise .malformedVarint 1 s
  | some (v, n) => rleSize v.toNat n s

/-- One element of the run: FIRST when DELTA = 0 (R227), else ACC, which then grows by DELTA with
wrap-around (R228). -/
def rleElementStep (s : State) : State :=
  if s.regs.delta = 0 then
    writeOut { s with regs := { s.regs with idx := s.regs.idx + 1 } } s.regs.idx s.regs.first
  else
    writeOut
      { s with regs := { s.regs with acc := s.regs.acc + s.regs.delta, idx := s.regs.idx + 1 } }
      s.regs.idx s.regs.acc

/-- RLE_FILL (R220): one element while IDX < NOUT, then FINISH. Bytes from POS on are not read (R230). -/
def rleFillPhase (s : State) : State :=
  if s.regs.idx < s.regs.nout then rleElementStep s else { s with phase := .finish }

/-! ### The phases of an operation -/

/-- One step of the core after the dispatch (R45). IDLE and HEADER have none here: an idle core takes
no step (R335), and the step at HEADER selects the instruction. -/
def phaseStep (u : Unpacker) (s : State) : State :=
  match s.phase with
  | .idle => s
  | .header => s
  | .rawLoop => rawLoopPhase s
  | .pkFirst => pkFirstPhase s
  | .pkCount => pkCountPhase u s
  | .pkLoop => pkLoopPhase u s
  | .rleFirst => rleFirstPhase s
  | .rleDelta => rleDeltaPhase s
  | .rleCount => rleCountPhase s
  | .rleFill => rleFillPhase s
  | .finish => returnOk s

/-- At most `n` phases, ending when the operation has completed. -/
def runPhases (u : Unpacker) : (n : Nat) → State → State
  | 0, s => s
  | n + 1, s => if s.phase = .idle then s else runPhases u n (phaseStep u s)

/-- More phases than the rest of any operation takes: every loop is bounded by metadata fixed before it
starts (R159, R350, R351). -/
def phaseBound (s : State) : Nat := s.regs.len + s.regs.cap + s.regs.nout + 8

/-- The rest of the operation, from its present phase to its completion (R152, R350). -/
def runOp (u : Unpacker) (s : State) : State := runPhases u (phaseBound s) s

end Sys2Proof.Machine
end

