-- ==== Sys2Proof/Machine/Empty.lean ====
section
/-! DEFINITION. EMPTY, the block of length 0 (`spec/41_dispatch.md` rule R153). -/

namespace Sys2Proof.Machine

/-- EMPTY (R153): Ok([]) with STATUS.EMPTY = 1 and HANDLER = 0. No IN byte is read, no OUT word is
written and the capacity is not checked. -/
def execEmpty (s : State) : Host.Outcome State Fault Refusal := .next (returnOkEmpty s)

end Sys2Proof.Machine
end

