-- ==== Sys2Proof/Machine/Invalid.lean ====
section
/-! DEFINITION. INVALID.3 to INVALID.15, header codes 3 to 15 (`spec/45_invalid.md` rules R250 to
R252). -/

namespace Sys2Proof.Machine

/-- `InvalidDecode()` for the code `nib` (R250, R251): UnknownEncoding, naming the unnormalized nibble.
The payload is not read and nothing is written (R252). -/
def enterInvalid (nib : Nibble) (s : State) : State :=
  raise .unknownEncoding (nib.setWidth 64) (dispatchTo nib s)

/-- INVALID.3 (R250): UnknownEncoding with ERR_NIBBLE = ERR_INFO = 3. -/
def execInvalid3 (s : State) : Host.Outcome State Fault Refusal := .next (enterInvalid 3 s)

/-- INVALID.4 (R250): UnknownEncoding with ERR_NIBBLE = ERR_INFO = 4. -/
def execInvalid4 (s : State) : Host.Outcome State Fault Refusal := .next (enterInvalid 4 s)

/-- INVALID.5 (R250): UnknownEncoding with ERR_NIBBLE = ERR_INFO = 5. -/
def execInvalid5 (s : State) : Host.Outcome State Fault Refusal := .next (enterInvalid 5 s)

/-- INVALID.6 (R250): UnknownEncoding with ERR_NIBBLE = ERR_INFO = 6. -/
def execInvalid6 (s : State) : Host.Outcome State Fault Refusal := .next (enterInvalid 6 s)

/-- INVALID.7 (R250): UnknownEncoding with ERR_NIBBLE = ERR_INFO = 7. -/
def execInvalid7 (s : State) : Host.Outcome State Fault Refusal := .next (enterInvalid 7 s)

/-- INVALID.8 (R250): UnknownEncoding with ERR_NIBBLE = ERR_INFO = 8. -/
def execInvalid8 (s : State) : Host.Outcome State Fault Refusal := .next (enterInvalid 8 s)

/-- INVALID.9 (R250): UnknownEncoding with ERR_NIBBLE = ERR_INFO = 9. -/
def execInvalid9 (s : State) : Host.Outcome State Fault Refusal := .next (enterInvalid 9 s)

/-- INVALID.10 (R250): UnknownEncoding with ERR_NIBBLE = ERR_INFO = 10. -/
def execInvalid10 (s : State) : Host.Outcome State Fault Refusal := .next (enterInvalid 10 s)

/-- INVALID.11 (R250): UnknownEncoding with ERR_NIBBLE = ERR_INFO = 11. -/
def execInvalid11 (s : State) : Host.Outcome State Fault Refusal := .next (enterInvalid 11 s)

/-- INVALID.12 (R250): UnknownEncoding with ERR_NIBBLE = ERR_INFO = 12. -/
def execInvalid12 (s : State) : Host.Outcome State Fault Refusal := .next (enterInvalid 12 s)

/-- INVALID.13 (R250): UnknownEncoding with ERR_NIBBLE = ERR_INFO = 13. -/
def execInvalid13 (s : State) : Host.Outcome State Fault Refusal := .next (enterInvalid 13 s)

/-- INVALID.14 (R250): UnknownEncoding with ERR_NIBBLE = ERR_INFO = 14. -/
def execInvalid14 (s : State) : Host.Outcome State Fault Refusal := .next (enterInvalid 14 s)

/-- INVALID.15 (R250): UnknownEncoding with ERR_NIBBLE = ERR_INFO = 15. -/
def execInvalid15 (s : State) : Host.Outcome State Fault Refusal := .next (enterInvalid 15 s)

end Sys2Proof.Machine
end

