-- ==== Sys2Proof/Machine/Packed.lean ====
section
/-! DEFINITION. PACKED, header code 1 (`spec/43_packed_delta.md` rules R190 to R199). -/

namespace Sys2Proof.Machine

/-- Entry of the Packed-Delta handler (R157, R190). -/
def enterPacked (s : State) : State := { dispatchTo 1 s with phase := .pkFirst }

/-- PACKED with any unpacker (R140, R190), from the header to the completion; refused by name when the
unpacker is not admitted (R143). -/
def execPackedWith (u : Unpacker) (d : Decidable u.Admitted) (s : State) :
    Host.Outcome State Fault Refusal :=
  u.ifAdmitted d (.next (runOp u (enterPacked s)))

/-- PACKED (R190) with the configured unpacker. -/
def execPacked (s : State) : Host.Outcome State Fault Refusal :=
  execPackedWith unpacker unpackerDecision s

end Sys2Proof.Machine
end

