-- ==== Sys2Proof/Machine/Raw.lean ====
section
/-! DEFINITION. RAW, header code 0 (`spec/42_raw.md` rules R170 to R175). -/

namespace Sys2Proof.Machine

/-- The length check and the sizing of Raw (R171, R172), made before anything is written. -/
def rawSize (s : State) : State :=
  if payloadLen s % 8 ≠ 0 then raise .malformedLength (BitVec.ofNat 64 (payloadLen s)) s
  else if s.regs.cap < payloadLen s / 8 then raise .capacityExceeded (satWord (payloadLen s / 8)) s
  else
    { s with
      phase := .rawLoop, regs := { s.regs with nout := payloadLen s / 8, acc := 0, idx := 0 } }

/-- Entry of the Raw handler (R157, R170). -/
def enterRaw (s : State) : State := rawSize (dispatchTo 0 s)

/-- RAW (R170), from the header to the completion. -/
def execRaw (s : State) : Host.Outcome State Fault Refusal :=
  .next (runOp unpacker (enterRaw s))

end Sys2Proof.Machine
end

