-- ==== Sys2Proof/Machine/RunLength.lean ====
section
/-! DEFINITION. RLE, header code 2 (`spec/44_run_length.md` rules R220 to R231). -/

namespace Sys2Proof.Machine

/-- Entry of the Run-Length handler (R157, R220). -/
def enterRle (s : State) : State := { dispatchTo 2 s with phase := .rleFirst }

/-- RLE (R220), from the header to the completion. -/
def execRle (s : State) : Host.Outcome State Fault Refusal :=
  .next (runOp unpacker (enterRle s))

end Sys2Proof.Machine
end

