-- ==== Sys2Proof/Machine/Dispatch.lean ====
section
/-! DEFINITION. The meaning of each instruction, one arm a constructor (`spec/41_dispatch.md` rule
R156). -/

namespace Sys2Proof.Machine

def exec (i : Instr) (s : State) : Host.Outcome State Fault Refusal :=
  match i with
  | .empty => Sys2Proof.Machine.execEmpty s
  | .raw _ => Sys2Proof.Machine.execRaw s
  | .packed _ => Sys2Proof.Machine.execPacked s
  | .rle _ => Sys2Proof.Machine.execRle s
  | .invalid3 _ => Sys2Proof.Machine.execInvalid3 s
  | .invalid4 _ => Sys2Proof.Machine.execInvalid4 s
  | .invalid5 _ => Sys2Proof.Machine.execInvalid5 s
  | .invalid6 _ => Sys2Proof.Machine.execInvalid6 s
  | .invalid7 _ => Sys2Proof.Machine.execInvalid7 s
  | .invalid8 _ => Sys2Proof.Machine.execInvalid8 s
  | .invalid9 _ => Sys2Proof.Machine.execInvalid9 s
  | .invalid10 _ => Sys2Proof.Machine.execInvalid10 s
  | .invalid11 _ => Sys2Proof.Machine.execInvalid11 s
  | .invalid12 _ => Sys2Proof.Machine.execInvalid12 s
  | .invalid13 _ => Sys2Proof.Machine.execInvalid13 s
  | .invalid14 _ => Sys2Proof.Machine.execInvalid14 s
  | .invalid15 _ => Sys2Proof.Machine.execInvalid15 s

end Sys2Proof.Machine
end

