-- ==== Sys2Proof/Machine/HostCmd.lean ====
section
/-! DEFINITION. The host's commands (`spec/46_host_commands.md` rules R260 to R270) and the reset input
(`spec/70_reset_and_hazards.md` rules R340 to R342). -/

namespace Sys2Proof.Machine

/-- Record what a read of the host returned. -/
def reply (r : Reply) (s : State) : State := { s with replies := s.replies ++ [r] }

/-- A write of CTRL: IRQ_EN takes bit 2 always (R264); while idle, bit 0 is START (R262) and else bit 1
is CLEAR (R263, R269); while busy both are ignored (R270). -/
def ctrlWrite (v : Word) (s : State) : State :=
  let s := { s with irqEn := v.getLsbD 2 }
  if s.status.busy then s
  else if v.getLsbD 0 then startOperation s
  else if v.getLsbD 1 then clearDone s
  else s

/-- REGWRITE (R261): CTRL acts; IN_LEN and OUT_CAP are stored while idle and ignored while busy; every
other register ignores the write (R23, R26 to R28). -/
def regWrite (n : Nat) (v : Word) (s : State) : State :=
  match n with
  | 0 => ctrlWrite v s
  | 2 => { s with inLen := if s.status.busy then s.inLen else v }
  | 3 => { s with outCap := if s.status.busy then s.outCap else v }
  | _ => s

/-- OUTREAD (R266): the stored word; while busy a free value (R69, R345, assumption 9). An index at or
above OUT_MAX names no word and reads 0 in both cases (assumption 10). -/
def outRead (i : Nat) (s : State) : State :=
  if s.status.busy ∧ i < s.params.outMax then
    reply (.outWord i (Config.busyOutRead s.draws)) (drawn s 1)
  else reply (.outWord i (readOut s i)) s

/-- The effect of a host command. The only one that can fail is a write of IN or OUT while an operation
runs: HostHazard (R344, assumption 11). -/
def hostCommand (c : HostCmd) (s : State) : Host.Outcome State Fault Refusal :=
  match c with
  | .regRead n => .next (reply (.reg n (regValue s n)) s)
  | .regWrite n v => .next (regWrite n v s)
  | .inWrite p b => if s.status.busy then .fault .hostHazard else .next (writeIn s p b)
  | .inRead p => .next (reply (.inByte p (readIn s p)) s)
  | .outRead i => .next (outRead i s)
  | .outWrite i v => if s.status.busy then .fault .hostHazard else .next (writeOut s i v)

/-- Reset (R340 to R342): every register takes its reset value and the operation in progress, if any,
is abandoned. IN and OUT are unspecified afresh: nothing is listed and the epoch is a new one. What is
outside the block stays: its parameters, the events to come, the replies (assumption 15). -/
def resetBlock (s : State) : State :=
  { State.reset with
    params := s.params, events := s.events, replies := s.replies, draws := s.draws,
    epoch := s.epoch + 1 }

end Sys2Proof.Machine
end

