-- ==== Sys2Proof/Machine/Schedule.lean ====
section
/-! DEFINITION. What the core does when it moves: fetching the header byte (`spec/41_dispatch.md` rules
R151, R152), running the operation to its end, or taking one phase of it (`spec/10_state.md` rule
R45); and one step of a block instance built with any unpacker (`spec/40_primitives.md` rules R140,
R143). -/

namespace Sys2Proof.Machine

/-- The bytes the decoder is given at HEADER: none for the empty block, else the header byte IN[0]
(R152, R153). The payload is left in IN for the handler. -/
def fetchBytes (s : State) : List Byte := if s.regs.len = 0 then [] else [readIn s 0]

/-- The instruction of the operation at HEADER. -/
def fetchInstr (s : State) : Instr := (decode (fetchBytes s)).1

/-- The step of the core at HEADER when it takes one phase: the dispatch (R156), or the whole of an
operation that ends there. -/
def enter (i : Instr) (s : State) : State :=
  match i with
  | .empty => returnOkEmpty s
  | .raw _ => enterRaw s
  | .packed _ => enterPacked s
  | .rle _ => enterRle s
  | .invalid3 _ => enterInvalid 3 s
  | .invalid4 _ => enterInvalid 4 s
  | .invalid5 _ => enterInvalid 5 s
  | .invalid6 _ => enterInvalid 6 s
  | .invalid7 _ => enterInvalid 7 s
  | .invalid8 _ => enterInvalid 8 s
  | .invalid9 _ => enterInvalid 9 s
  | .invalid10 _ => enterInvalid 10 s
  | .invalid11 _ => enterInvalid 11 s
  | .invalid12 _ => enterInvalid 12 s
  | .invalid13 _ => enterInvalid 13 s
  | .invalid14 _ => enterInvalid 14 s
  | .invalid15 _ => enterInvalid 15 s

/-- The meaning of each instruction on a block instance built with the unpacker `u`. PACKED alone uses
the unpacker (R140, R190). -/
def execWith (u : Unpacker) (d : Decidable u.Admitted) (i : Instr) (s : State) :
    Host.Outcome State Fault Refusal :=
  match i with
  | .packed _ => execPackedWith u d s
  | .empty | .raw _ | .rle _ | .invalid3 _ | .invalid4 _ | .invalid5 _ | .invalid6 _ | .invalid7 _
  | .invalid8 _ | .invalid9 _ | .invalid10 _ | .invalid11 _ | .invalid12 _ | .invalid13 _
  | .invalid14 _ | .invalid15 _ => exec i s

/-- The core runs until the operation in progress completes. While BUSY = 0 it takes no steps (R7,
R335). At HEADER the input range is checked first (R151), then the instruction is fetched and run. -/
def runCoreWith (u : Unpacker) (d : Decidable u.Admitted) (s : State) :
    Host.Outcome State Fault Refusal :=
  if s.status.busy then
    if s.phase = .header then
      if s.params.inMax < s.regs.len then .next (raiseInputRange s) else execWith u d (fetchInstr s) s
    else .next (runOp u s)
  else .next s

/-- The core takes one phase of the operation in progress; none while BUSY = 0. -/
def phaseCoreWith (u : Unpacker) (s : State) : Host.Outcome State Fault Refusal :=
  if s.status.busy then
    if s.phase = .header then
      if s.params.inMax < s.regs.len then .next (raiseInputRange s)
      else .next (enter (fetchInstr s) s)
    else .next (phaseStep u s)
  else .next s

/-- One event. -/
def runEventWith (u : Unpacker) (d : Decidable u.Admitted) (e : Event) (s : State) :
    Host.Outcome State Fault Refusal :=
  match e with
  | .host c => hostCommand c s
  | .phase => phaseCoreWith u s
  | .run => runCoreWith u d s
  | .reset => .next (resetBlock s)

/-- One step of a block instance built with the unpacker `u`: the next event, or, when no event is to
come, the core (R7, R349). The events list says which agent moves (assumption 2); an idle core with a
quiet host stays as it is (assumption 3). An instance whose unpacker is not admitted is refused (R143). -/
def stepWith (u : Unpacker) (d : Decidable u.Admitted) (s : State) : Host.Outcome State Fault Refusal :=
  u.ifAdmitted d
    (match s.events with
     | [] => runCoreWith u d s
     | e :: es => runEventWith u d e { s with events := es })

/-! ### The machine's own block instance: the configured unpacker -/

/-- The core runs, over the configured unpacker. -/
def runCore (s : State) : Host.Outcome State Fault Refusal := runCoreWith unpacker unpackerDecision s

/-- The core takes one phase, over the configured unpacker. -/
def phaseCore (s : State) : Host.Outcome State Fault Refusal := phaseCoreWith unpacker s

/-- One event, over the configured unpacker. -/
def runEvent (e : Event) (s : State) : Host.Outcome State Fault Refusal :=
  runEventWith unpacker unpackerDecision e s

/-! ### Placing a block -/

/-- The host places an encoded block of the bytes `bs` at the start of IN (R343 step 1). -/
def placeBytes (s : State) : (p : Nat) → List Byte → State
  | _, [] => s
  | p, b :: bs => placeBytes (writeIn s p b) (p + 1) bs

/-- The block `bs` in IN, IN_LEN its length, and START (R343): the core is at HEADER and moves next. -/
def loadBlock (s : State) (bs : List Byte) : State :=
  startOperation
    { placeBytes s 0 bs with inLen := BitVec.ofNat 64 bs.length, events := [] }

end Sys2Proof.Machine
end

