-- ==== Sys2Proof/Machine/Step.lean ====
section
/-! DEFINITION. One step of the whole: the next event, or, when no event is to come, the core
(`spec/00_scope.md` rule R7, `spec/70_reset_and_hazards.md` rule R349). -/

namespace Sys2Proof.Machine

/-- One step of the machine: of the block instance built with the configured unpacker. -/
def step (s : State) : Host.Outcome State Fault Refusal := stepWith unpacker unpackerDecision s

/-- `s` with the block whose first `nbits` bits are `w` in IN, IN_LEN its length in bytes, and an
operation started on it, so that the very next step fetches and runs its instruction
(assumption 13). -/
def State.withFetchWord (s : State) (nbits w : Nat) : State := loadBlock s (tableBytes nbits w)

end Sys2Proof.Machine
end

