-- ==== Sys2Proof/Machine/Reference.lean ====
section
/-! DEFINITION. `DecodeBlock` as a function of the bytes of a block and the capacity, without a state
(`spec/41_dispatch.md` rule R152, `spec/00_scope.md` rules R6, R14). It is written from the closed forms
of the spec, not from the phases of the core: the sign-fold in unbounded integers (R120), varints as
numbers in base 128 (R63), the run as `first + i * delta` (R228). `spec/00_scope.md` rule R6 makes it the
architectural result of an operation. -/

namespace Sys2Proof.Machine

/-- The architectural result of an operation (R14, R271): `Ok(seq)`, `OkEmpty` (the Ok([]) of the empty
block), or `Err(kind, nibble, info)`. -/
inductive Result
  | ok (seq : List Word)
  | okEmpty
  | err (kind : ErrKind) (nibble : Nibble) (info : Word)
  deriving DecidableEq, Repr

/-- `zigzag(w)` in unbounded integers (R120). -/
def signFold (w : Word) : Int := if w.toNat % 2 = 0 then w.toNat / 2 else -((w.toNat + 1) / 2)

/-- The running sums of sign-folded deltas from `acc`, modulo 2^64 (R130, R173, R195). -/
def prefixSums : (acc : Word) → List Word → List Word
  | _, [] => []
  | acc, d :: ds =>
    (acc + BitVec.ofInt 64 (signFold d)) :: prefixSums (acc + BitVec.ofInt 64 (signFold d)) ds

/-- An arithmetic progression in closed form, modulo 2^64 (R228). -/
def progression (first delta : Word) (count : Nat) : List Word :=
  (List.range count).map fun i => first + BitVec.ofNat 64 i * delta

/-- One varint at the head of a byte string, its first byte the `i`-th of the varint: the number and the
bytes after it (R63, R125 to R127). -/
def varintValue : (i : Nat) → List Byte → Option (Nat × List Byte)
  | _, [] => none
  | i, b :: bs =>
    if i = Config.varintMax then none
    else if b.toNat < 128 then if i = 9 ∧ 1 < b.toNat then none else some (b.toNat, bs)
    else (varintValue (i + 1) bs).map fun r => (b.toNat - 128 + 128 * r.1, r.2)

/-- The first 8 bytes as a big-endian number (R62). -/
def firstWord (payload : List Byte) : Word :=
  BitVec.ofNat 64 ((payload.take 8).foldl (fun a b => 256 * a + b.toNat) 0)

/-- CapacityExceeded, or the sequence (R305). -/
def sized (cap length : Nat) (seq : List Word) : Result :=
  if cap < length then .err .capacityExceeded 0 (satWord length) else .ok seq

/-- Raw (R170). -/
def rawResult (cap : Nat) (payload : List Byte) : Result :=
  if payload.length % 8 ≠ 0 then .err .malformedLength 0 (BitVec.ofNat 64 payload.length)
  else sized cap (payload.length / 8) (prefixSums 0 (wordsOf payload))

/-- Packed-Delta (R190). -/
def packedResult (u : Unpacker) (cap : Nat) (payload : List Byte) : Result :=
  if payload.length < 8 then .err .tooShort 0 (BitVec.ofNat 64 payload.length)
  else
    let first := BitVec.ofInt 64 (signFold (firstWord payload))
    let deltas := (u.lists (wordsOf (payload.drop 8))).getD []
    match u.count (payload.drop 8) with
    | .err d => .err .invalidPackedWord 0 d
    | .ok n => sized cap (1 + n) (first :: prefixSums first deltas)

/-- Run-Length (R220). -/
def rleResult (cap : Nat) (payload : List Byte) : Result :=
  if payload.length < 8 then .err .tooShort 0 (BitVec.ofNat 64 payload.length)
  else
    let first := BitVec.ofInt 64 (signFold (firstWord payload))
    match varintValue 0 (payload.drop 8) with
    | none => .err .malformedVarint 0 0
    | some (v1, rest) =>
      let delta := BitVec.ofInt 64 (signFold (BitVec.ofNat 64 v1))
      match varintValue 0 rest with
      | none => .err .malformedVarint 0 1
      | some (v2, _) => sized cap (v2 + 1) (progression first delta (v2 + 1))

/-- `DecodeBlock` (R152) on the bytes of a block, in the order of checks of R308. -/
def decodeBlock (u : Unpacker) (inMax cap : Nat) (block : List Byte) : Result :=
  if inMax < block.length then .err .inputRange 0 (BitVec.ofNat 64 block.length)
  else
    match block with
    | [] => .okEmpty
    | h :: payload =>
      if h.toNat / 16 = 0 then rawResult cap payload
      else if h.toNat / 16 = 1 then packedResult u cap payload
      else if h.toNat / 16 = 2 then rleResult cap payload
      else
        .err .unknownEncoding (BitVec.ofNat 4 (h.toNat / 16)) (BitVec.ofNat 64 (h.toNat / 16))

end Sys2Proof.Machine
end

