-- ==== Sys2Proof/Safety.lean ====
section
/-! DEFINITION. The terms in which statements about the machine are made: the invariant of its states,
the result of an operation as the host reads it, an operation about to begin, and the closed forms of
the decoded sequences. -/

namespace Sys2Proof.Machine

/-- The bytes of the block of the operation in progress: IN[0 .. LEN-1] (R90). -/
def blockBytes (s : State) : List Byte := bytesAt s 0 s.regs.len

/-- The result the host reads once DONE = 1 (R271). -/
def hostResult (s : State) : Option Result :=
  if s.status.done then
    some
      (if s.status.err then .err s.status.errKind s.status.errNibble s.errInfo
       else if s.status.empty then .okEmpty
       else .ok ((List.range s.resultLen.toNat).map (readOut s)))
  else none

/-- Where the core is inside its algorithm: what POS, NIB, CODE, NOUT, IDX and ACC hold in each phase
(R41 to R44), for a block instance built with the unpacker `u`. -/
def phaseInv (u : Unpacker) (s : State) : Prop :=
  match s.phase with
  | .idle => True
  | .header => s.regs.pos = 0
  | .rawLoop =>
    s.regs.nib = 0 ∧ s.regs.code = 0 ∧ s.regs.len ≤ s.params.inMax ∧ s.regs.nout ≤ s.regs.cap ∧
      s.regs.idx ≤ s.regs.nout ∧ s.regs.len = 1 + 8 * s.regs.nout ∧
      s.regs.pos = 1 + 8 * s.regs.idx
  | .pkFirst =>
    s.regs.nib = 1 ∧ s.regs.code = 1 ∧ s.regs.len ≤ s.params.inMax ∧ 1 ≤ s.regs.len ∧ s.regs.pos = 1
  | .pkCount =>
    s.regs.nib = 1 ∧ s.regs.code = 1 ∧ s.regs.len ≤ s.params.inMax ∧ 9 ≤ s.regs.len ∧ s.regs.pos = 9
  | .pkLoop =>
    s.regs.nib = 1 ∧ s.regs.code = 1 ∧ s.regs.len ≤ s.params.inMax ∧ 9 ≤ s.regs.pos ∧
      s.regs.pos ≤ s.regs.len ∧ 1 ≤ s.regs.idx ∧ s.regs.nout ≤ s.regs.cap ∧
      ∃ vs, u.lists (wordsOf (bytesAt s s.regs.pos (s.regs.len - s.regs.pos))) = some vs ∧
        s.regs.idx + vs.length = s.regs.nout
  | .rleFirst =>
    s.regs.nib = 2 ∧ s.regs.code = 2 ∧ s.regs.len ≤ s.params.inMax ∧ 1 ≤ s.regs.len ∧ s.regs.pos = 1
  | .rleDelta =>
    s.regs.nib = 2 ∧ s.regs.code = 2 ∧ s.regs.len ≤ s.params.inMax ∧ s.regs.pos = 9 ∧
      s.regs.pos ≤ s.regs.len
  | .rleCount =>
    s.regs.nib = 2 ∧ s.regs.code = 2 ∧ s.regs.len ≤ s.params.inMax ∧ 10 ≤ s.regs.pos ∧
      s.regs.pos ≤ 19 ∧ s.regs.pos ≤ s.regs.len
  | .rleFill =>
    s.regs.nib = 2 ∧ s.regs.code = 2 ∧ s.regs.len ≤ s.params.inMax ∧ 11 ≤ s.regs.pos ∧
      s.regs.pos ≤ 29 ∧ s.regs.pos ≤ s.regs.len ∧ 1 ≤ s.regs.nout ∧ s.regs.nout ≤ s.regs.cap ∧
      s.regs.idx ≤ s.regs.nout ∧
      (s.regs.delta ≠ 0 → s.regs.acc = s.regs.first + BitVec.ofNat 64 s.regs.idx * s.regs.delta)
  | .finish =>
    s.regs.len ≤ s.params.inMax ∧ s.regs.pos ≤ s.regs.len ∧ s.regs.nout ≤ s.regs.cap ∧
      s.regs.idx = s.regs.nout ∧ s.regs.nib.toNat = s.regs.code.toNat ∧ s.regs.nib.toNat ≤ 2 ∧
      (s.regs.nib = 0 → s.regs.pos = s.regs.len) ∧ (s.regs.nib ≠ 0 → 1 ≤ s.regs.nout)

/-- The invariant of the states of a block instance built with the unpacker `u`. -/
structure State.InvWith (u : Unpacker) (s : State) : Prop where
  /-- the ranges of the parameters (R9) -/
  inMax_pos : 1 ≤ s.params.inMax
  inMax_le : s.params.inMax ≤ maxWord
  outMax_le : s.params.outMax ≤ maxWord
  /-- the memories are in canonical form and hold nothing outside their ranges (R30, R31) -/
  inMem_wf : Memory.wf s.inMem = true
  inMem_below : Memory.below s.params.inMax s.inMem = true
  outMem_wf : Memory.wf s.outMem = true
  outMem_below : Memory.below s.params.outMax s.outMem = true
  /-- BUSY is 1 exactly while PHASE is not IDLE (R45) -/
  busy_phase : s.status.busy = true ↔ s.phase ≠ .idle
  /-- while BUSY = 1 every other field of STATUS, RESULT_LEN and ERR_INFO are 0 (R23, R29) -/
  busy_result : s.status.busy = true → s.status = startStatus ∧ s.resultLen = 0 ∧ s.errInfo = 0
  /-- ERR = 1 exactly when ERR_KIND is not 0; EMPTY = 1 implies ERR = 0 (R23) -/
  err_kind : s.status.err = true ↔ s.status.errKind ≠ .none
  empty_ok : s.status.empty = true → s.status.err = false ∧ s.resultLen = 0
  /-- ERR_NIBBLE and ERR_INFO are 0 but for the errors that name them; an error has no result (R310) -/
  nibble : s.status.errKind ≠ .unknownEncoding → s.status.errNibble = 0
  ok_info : s.status.err = false → s.errInfo = 0
  err_result : s.status.err = true → s.resultLen = 0
  /-- a result lies inside OUT (R26) -/
  result_le : s.resultLen.toNat ≤ s.params.outMax
  /-- LEN and CAP are what START fixed, and IN_LEN and OUT_CAP have not changed since (R24, R25, R37) -/
  busy_operands : s.status.busy = true →
    s.regs.len = s.inLen.toNat ∧ s.regs.cap = min s.outCap.toNat s.params.outMax
  phase_inv : phaseInv u s

/-- The invariant of the machine's states. -/
abbrev State.Inv (s : State) : Prop := s.InvWith unpacker

/-- A state right after START, of an operation whose block lies inside IN: where an instruction of the
opcode table begins. -/
structure State.AtHeader (s : State) : Prop where
  inv : s.Inv
  phase : s.phase = .header
  len_le : s.regs.len ≤ s.params.inMax

/-- What no operation of the core changes: the parameters, IRQ_EN, IN_LEN, OUT_CAP, IN, the coming
events, the replies and the epoch (R22, R24, R25, R61). -/
def sameOutside (s t : State) : Prop :=
  t.params = s.params ∧ t.irqEn = s.irqEn ∧ t.inLen = s.inLen ∧ t.outCap = s.outCap ∧
    t.inMem = s.inMem ∧ t.events = s.events ∧ t.replies = s.replies ∧ t.epoch = s.epoch

/-- `t` is `s` after an error completion: the STATUS of R310, RESULT_LEN = 0, ERR_INFO = info, OUT and
everything outside the operation unchanged. -/
def erredWith (kind : ErrKind) (nibble : Nibble) (handler : BitVec 2) (info : Word)
    (s t : State) : Prop :=
  t.status = { busy := false, done := true, err := true, empty := false, errKind := kind,
               errNibble := nibble, handler := handler } ∧
    t.resultLen = 0 ∧ t.errInfo = info ∧ t.phase = .idle ∧ t.outMem = s.outMem ∧ sameOutside s t

/-- `t` is `s` after a success completion of handler `handler` with the `n` elements `seq 0`, `seq 1`,
...: the STATUS of R311, RESULT_LEN = n, OUT[k] = seq k below n, and every other word of OUT and
everything outside the operation unchanged. -/
def decodedTo (handler : BitVec 2) (n : Nat) (seq : Nat → Word) (s t : State) : Prop :=
  t.status = { busy := false, done := true, err := false, empty := false, errKind := .none,
               errNibble := 0, handler := handler } ∧
    t.resultLen.toNat = n ∧ t.errInfo = 0 ∧ t.phase = .idle ∧ sameOutside s t ∧
    ∀ k, readOut t k = if k < n then seq k else readOut s k

/-- Element `k` of a Raw block: the sum of the sign-folded words 0 to k, modulo 2^64 (R94, R173). -/
def rawElement (s : State) : Nat → Word
  | 0 => BitVec.ofInt 64 (signFold (fixedAt s 1))
  | k + 1 => rawElement s k + BitVec.ofInt 64 (signFold (fixedAt s (1 + 8 * (k + 1))))

/-- Element `k` of a delta-coded sequence: the first value plus the first `k` sign-folded deltas,
modulo 2^64 (R195). -/
def deltaElement (first : Word) (deltas : List Word) (k : Nat) : Word :=
  first + ((deltas.take k).map fun d => BitVec.ofInt 64 (signFold d)).sum

/-- The packed words of the block and the bytes after them: all that follows the first value (R95,
R193). -/
def packedBytes (s : State) : List Byte := bytesAt s 9 (s.regs.len - 9)

/-- The varint at offset `p` of the block: its value and the bytes it occupies (R125). -/
def varintAt (s : State) (p : Nat) : Option (Word × Nat) :=
  uvarintLoop (readIn s) s.regs.len p Config.varintMax 0 0

/-- The Invalid operations and the codes they name (R250). -/
def invalidOps (lo : Nibble) : List (Instr × Nibble) :=
  [(.invalid3 lo, 3), (.invalid4 lo, 4), (.invalid5 lo, 5), (.invalid6 lo, 6), (.invalid7 lo, 7),
   (.invalid8 lo, 8), (.invalid9 lo, 9), (.invalid10 lo, 10), (.invalid11 lo, 11),
   (.invalid12 lo, 12), (.invalid13 lo, 13), (.invalid14 lo, 14), (.invalid15 lo, 15)]

/-- The core takes `n` phases, one after another. -/
def phases : (n : Nat) → State → Host.Outcome State Fault Refusal
  | 0, s => .next s
  | n + 1, s =>
    match phaseCore s with
    | .next t => phases n t
    | .fault f => .fault f
    | .refused r => .refused r

/-- The bytes `bs` lie in IN from offset `p`. -/
def holdsAt (s : State) (p : Nat) (bs : List Byte) : Prop := bytesAt s p bs.length = bs

/-- The block of the operation in progress is `bs`. -/
def holdsBlock (s : State) (bs : List Byte) : Prop := s.regs.len = bs.length ∧ holdsAt s 0 bs

/-- The deltas of a sequence: each element less the one before it, modulo 2^64, the first less
`before` (R173, R174). -/
def differences : (before : Word) → List Word → List Word
  | _, [] => []
  | before, v :: vs => (v - before) :: differences v vs

end Sys2Proof.Machine
end

