-- ==== Sys2Proof/Certificates/Slice0/Obligations.lean ====
section
/-! DEFINITION. The statements for the provers. Each docstring names the rule of `spec/` it formalises,
or says that it rests on the model's own choice and names the row of the assumption log. -/

open Sys2Proof Sys2Proof.Machine

/-! ### Encoding -/

/-- R90, R91, R102: decoding an encoded instruction gives it back with the bytes that follow it, the
empty block among them; and encoding what was decoded gives back every byte string, so no bit of the
header is dropped. -/
def Obligations.DecodeAndEncodeAgree : Prop :=
  (∀ (i : Instr) (rest : List Byte), i.wf = true → i ≠ .empty → decode (encode i ++ rest) = (i, rest)) ∧
  decode (encode .empty) = (.empty, []) ∧
  ∀ bs : List Byte, encode (decode bs).1 ++ (decode bs).2 = bs

/-- R102: the header byte of each row of the opcode map, written out bit by bit, decodes to the row's
instruction. -/
def Obligations.WrittenHeaderBytesDecode : Prop :=
  ∀ rest : List Byte,
    decode [] = (.empty, []) ∧
    decode (0b00000101#8 :: rest) = (.raw 5, rest) ∧
    decode (0b00010000#8 :: rest) = (.packed 0, rest) ∧
    decode (0b00101111#8 :: rest) = (.rle 15, rest) ∧
    decode (0b00110001#8 :: rest) = (.invalid3 1, rest) ∧
    decode (0b01000000#8 :: rest) = (.invalid4 0, rest) ∧
    decode (0b01010000#8 :: rest) = (.invalid5 0, rest) ∧
    decode (0b01100000#8 :: rest) = (.invalid6 0, rest) ∧
    decode (0b01111010#8 :: rest) = (.invalid7 10, rest) ∧
    decode (0b10000000#8 :: rest) = (.invalid8 0, rest) ∧
    decode (0b10010000#8 :: rest) = (.invalid9 0, rest) ∧
    decode (0b10100000#8 :: rest) = (.invalid10 0, rest) ∧
    decode (0b10110000#8 :: rest) = (.invalid11 0, rest) ∧
    decode (0b11000000#8 :: rest) = (.invalid12 0, rest) ∧
    decode (0b11010000#8 :: rest) = (.invalid13 0, rest) ∧
    decode (0b11100010#8 :: rest) = (.invalid14 2, rest) ∧
    decode (0b11111111#8 :: rest) = (.invalid15 15, rest)

/-- R91, R101: the header byte is IN[0]; its high nibble selects Raw (0), Packed-Delta (1), Run-Length
(2) or the Invalid operation that names it (3 to 15); its low nibble is carried and not used. -/
def Obligations.HighNibbleSelectsTheOperation : Prop :=
  ∀ s : State, s.regs.len ≠ 0 →
    let h := readIn s 0
    let lo := BitVec.ofNat 4 (h.toNat % 16)
    (h.toNat / 16 = 0 → fetchInstr s = .raw lo) ∧
    (h.toNat / 16 = 1 → fetchInstr s = .packed lo) ∧
    (h.toNat / 16 = 2 → fetchInstr s = .rle lo) ∧
    (3 ≤ h.toNat / 16 → (fetchInstr s, BitVec.ofNat 4 (h.toNat / 16)) ∈ invalidOps lo)

/-- R92: the low nibble of the header has no effect on any operation: two header bytes that differ
only there have the same meaning in every state, and head blocks with the same decoded result. -/
def Obligations.LowNibbleHasNoEffect : Prop :=
  ∀ h h' : Byte, h.toNat / 16 = h'.toNat / 16 →
    (∀ s : State, exec (decodeHeader h) s = exec (decodeHeader h') s) ∧
    ∀ (u : Unpacker) (inMax cap : Nat) (payload : List Byte),
      decodeBlock u inMax cap (h :: payload) = decodeBlock u inMax cap (h' :: payload)

/-! ### Primitives -/

/-- R120: the 64-bit sign-fold gives w/2 for even words and -((w+1)/2) for odd ones, in unbounded
integers. -/
def Obligations.ZigzagIsTheSignFold : Prop :=
  ∀ w : Word,
    (w.toNat % 2 = 0 → (zigzag w).toInt = (w.toNat : Int) / 2) ∧
    (w.toNat % 2 = 1 → (zigzag w).toInt = -(((w.toNat : Int) + 1) / 2))

/-- `spec/40_primitives.md` section 1 (R122, R123 are the spec's own derivations): sign-fold and its
inverse undo each other, so the sign-fold is a bijection; and the inverse is 2v or -2v - 1. -/
def Obligations.ZigzagIsABijection : Prop :=
  ∀ v : Word,
    zigzag (zigzagEncode v) = v ∧ zigzagEncode (zigzag v) = v ∧
    ((zigzagEncode v).toNat : Int) = if 0 ≤ v.toInt then 2 * v.toInt else -2 * v.toInt - 1

/-- R62: an 8-byte field is big-endian: the sum of its bytes, each shifted left by 8 * (7 - k). -/
def Obligations.FixedFieldsAreBigEndian : Prop :=
  ∀ (s : State) (p : Nat),
    fixedAt s p =
      ((List.range 8).map fun k => (readIn s (p + k)).setWidth 64 <<< (8 * (7 - k))).sum

/-- R63: a varint is little-endian base 128: when ReadUvarint succeeds with n bytes, the value is
the sum of the low seven bits of byte i times 128^i; every byte but the last has bit 7 = 1 and the
last has bit 7 = 0. It occupies 1 to 10 bytes, all below LEN. -/
def Obligations.VarintsAreBase128 : Prop :=
  ∀ (s : State) (v : Word) (n : Nat), readUvarint s = some (v, n) →
    1 ≤ n ∧ n ≤ 10 ∧ s.regs.pos + n ≤ s.regs.len ∧
    (∀ i, i < n → ((readIn s (s.regs.pos + i)).getLsbD 7 = true ↔ i + 1 < n)) ∧
    v.toNat =
      ((List.range n).map fun i => (readIn s (s.regs.pos + i)).toNat % 128 * 128 ^ i).sum

/-- R126, R127: ReadUvarint fails exactly when the bytes run to the end of the block without one whose
bit 7 is 0 (no byte at all among them), when the first ten all have bit 7 = 1, or when the tenth
terminates with a value above 1. -/
def Obligations.VarintsFailExactly : Prop :=
  ∀ s : State,
    let more := fun i => (readIn s (s.regs.pos + i)).getLsbD 7 = true
    readUvarint s = none ↔
      (∃ k, k < 10 ∧ s.regs.len ≤ s.regs.pos + k ∧ ∀ i, i < k → more i) ∨
      (∀ i, i < 10 → more i) ∨
      ((∀ i, i < 9 → more i) ∧ ¬ more 9 ∧ 1 < (readIn s (s.regs.pos + 9)).toNat)

/-- `spec/40_primitives.md` section 3 (R129 is the spec's own derivation): reading the minimal
varint of x gives x and consumes exactly its bytes. -/
def Obligations.VarintReadsBack : Prop :=
  ∀ (s : State) (x : Word),
    holdsAt s s.regs.pos (uvarint x) → s.regs.pos + (uvarint x).length ≤ s.regs.len →
    readUvarint s = some (x, (uvarint x).length)

/-- `spec/40_primitives.md` section 4 (R130): accumulation wraps modulo 2^64: the sum as an i64 is the
exact sum reduced to the i64 range. -/
def Obligations.AccumulationWraps : Prop :=
  ∀ acc d : Word, (accumulate acc d).toInt = (acc.toInt + (zigzag d).toInt).bmod (2 ^ 64)

/-- The model's own choice, assumption 5: the configured unpacker, whatever `Config` holds, meets the
contract of R141 and R142, so it is an admitted one (R143); and the form the model gives it shuts no
admitted unpacker out: each is the pair of some open UNPACK and some open diagnostic. -/
def Obligations.ConfiguredUnpackerIsAdmitted : Prop :=
  unpacker.Admitted ∧
  ∀ u : Unpacker, u.Admitted →
    ∃ (free : Word → Word ⊕ List Word) (diag : List Word → Word), u = Unpacker.paired free diag

/-! ### Memory and the host's access to it -/

/-- The model's own form of the memories, assumption 8, for cells of any type, so for IN (bytes) and OUT
(words) alike: in canonical form, a store is read back, leaves every other address alone and keeps the
form; and memories of that form that list the same are equal. -/
def Obligations.MemoryKeepsItsForm : Prop :=
  ∀ (α : Type) (m m' : Memory α), Memory.wf m = true → Memory.wf m' = true →
    (∀ (a b : Nat) (v : α),
      Memory.wf (Memory.set m a v) = true ∧
      Memory.get (Memory.set m a v) b = if b = a then some v else Memory.get m b) ∧
    ((∀ a, Memory.get m a = Memory.get m' a) → m = m')

/-- R265: INWRITE while idle stores the byte at its offset and changes nothing else; at and above
IN_MAX it has no effect. While BUSY = 1 a write below IN_MAX is the hazard of R344. -/
def Obligations.InwriteStoresOneByte : Prop :=
  ∀ (s : State) (p : Nat) (b : Byte), s.Inv →
    (s.status.busy = false →
      ∃ t, hostCommand (.inWrite p b) s = .next t ∧ t = { s with inMem := t.inMem } ∧
        ∀ q, readIn t q = if q = p ∧ p < s.params.inMax then b else readIn s q) ∧
    (s.status.busy = true → p < s.params.inMax →
      hostCommand (.inWrite p b) s = .fault .hostHazard)

/-- R267: OUTWRITE while idle stores the word at its index and changes nothing else; at and above
OUT_MAX it has no effect. While BUSY = 1 a write below OUT_MAX is the hazard of R344. -/
def Obligations.OutwriteStoresOneWord : Prop :=
  ∀ (s : State) (i : Nat) (v : Word), s.Inv →
    (s.status.busy = false →
      ∃ t, hostCommand (.outWrite i v) s = .next t ∧ t = { s with outMem := t.outMem } ∧
        ∀ k, readOut t k = if k = i ∧ i < s.params.outMax then v else readOut s k) ∧
    (s.status.busy = true → i < s.params.outMax →
      hostCommand (.outWrite i v) s = .fault .hostHazard)

/-- R266: INREAD, and OUTREAD while idle, return the stored value, or 0 outside the memory, with no
side effect; OUTREAD while BUSY = 1 returns some word and does not disturb the operation. The reply
list and the count of draws are the model's own fields (assumption 20). -/
def Obligations.MemoryReadsHaveNoSideEffect : Prop :=
  ∀ (s : State) (p : Nat),
    hostCommand (.inRead p) s =
      .next { s with replies := s.replies ++ [.inByte p (readIn s p)] } ∧
    (s.params.inMax ≤ p → readIn s p = 0) ∧
    (s.status.busy = false →
      hostCommand (.outRead p) s =
        .next { s with replies := s.replies ++ [.outWord p (readOut s p)] }) ∧
    (s.params.outMax ≤ p → readOut s p = 0) ∧
    (s.status.busy = true →
      ∃ v d, hostCommand (.outRead p) s =
        .next { s with replies := s.replies ++ [.outWord p v], draws := d })

/-! ### Host registers -/

/-- `spec/10_state.md` section 2 (R22, R23) and R260: what REGREAD returns for each register, bit by
bit, with no side effect but the reply; and the ERR_KIND code of each error kind, 0 for none and 1 to 7
(`spec/60_exceptions.md` section 1, R300). -/
def Obligations.RegisterReadsReturnTheFields : Prop :=
  (∀ (s : State) (n : Nat),
    hostCommand (.regRead n) s =
      .next { s with replies := s.replies ++ [.reg n (regValue s n)] } ∧
    (regValue s 0).toNat = 4 * s.irqEn.toNat ∧
    (regValue s 1).toNat =
      s.status.busy.toNat + 2 * s.status.done.toNat + 4 * s.status.err.toNat +
        8 * s.status.empty.toNat + 16 * s.status.errKind.code.toNat +
        256 * s.status.errNibble.toNat + 4096 * s.status.handler.toNat ∧
    regValue s 2 = s.inLen ∧ regValue s 3 = s.outCap ∧
    regValue s 4 = s.resultLen ∧ regValue s 5 = s.errInfo) ∧
  ErrKind.none.code.toNat = 0 ∧ ErrKind.malformedLength.code.toNat = 1 ∧
  ErrKind.tooShort.code.toNat = 2 ∧ ErrKind.malformedVarint.code.toNat = 3 ∧
  ErrKind.invalidPackedWord.code.toNat = 4 ∧ ErrKind.unknownEncoding.code.toNat = 5 ∧
  ErrKind.capacityExceeded.code.toNat = 6 ∧ ErrKind.inputRange.code.toNat = 7

/-- R28: a reserved register (6 and above) reads 0 and ignores writes, with no other effect. -/
def Obligations.ReservedRegistersAreInert : Prop :=
  ∀ (s : State) (n : Nat) (v : Word), 6 ≤ n →
    hostCommand (.regRead n) s = .next { s with replies := s.replies ++ [.reg n 0] } ∧
    hostCommand (.regWrite n v) s = .next s

/-- `spec/10_state.md` section 2 (R23 to R27) and R261, while idle: IN_LEN and OUT_CAP store the
written value unchanged; STATUS, RESULT_LEN and ERR_INFO ignore the write. -/
def Obligations.IdleRegisterWrites : Prop :=
  ∀ (s : State) (v : Word), s.status.busy = false →
    hostCommand (.regWrite 1 v) s = .next s ∧
    hostCommand (.regWrite 2 v) s = .next { s with inLen := v } ∧
    hostCommand (.regWrite 3 v) s = .next { s with outCap := v } ∧
    hostCommand (.regWrite 4 v) s = .next s ∧
    hostCommand (.regWrite 5 v) s = .next s

/-- R347, R270: while BUSY = 1 a write to any register but CTRL is ignored, and a START or CLEAR is
ignored: only IRQ_EN takes its bit (R264). -/
def Obligations.BusyRegisterWritesAreIgnored : Prop :=
  ∀ (s : State) (n : Nat) (v : Word), s.status.busy = true →
    (n ≠ 0 → hostCommand (.regWrite n v) s = .next s) ∧
    hostCommand (.regWrite 0 v) s = .next { s with irqEn := v.getLsbD 2 }

/-- R264: every write to CTRL stores bit 2 of the written value in IRQ_EN, whatever BUSY and the other
bits are; and a write whose START and CLEAR bits are 0 does nothing else, whatever bits 63:3 are
(`spec/10_state.md` section 2). -/
def Obligations.EveryCtrlWriteStoresIrqEn : Prop :=
  ∀ (s : State) (v : Word),
    (∃ t, hostCommand (.regWrite 0 v) s = .next t ∧ t.irqEn = v.getLsbD 2) ∧
    (v.getLsbD 0 = false → v.getLsbD 1 = false →
      hostCommand (.regWrite 0 v) s = .next { s with irqEn := v.getLsbD 2 })

/-- `spec/46_host_commands.md` (R262, R269) and R37: START while idle, with or without CLEAR: LEN is
IN_LEN, CAP is the lesser of OUT_CAP and OUT_MAX, STATUS reads BUSY alone, the previous result is
cleared, and the core is at HEADER with POS = 0; nothing else the host can see changes but IRQ_EN. That
the internal registers other than LEN, CAP and POS keep their values is the model's own choice
(assumption 12). -/
def Obligations.StartBeginsAnOperation : Prop :=
  ∀ (s : State) (v : Word), s.status.busy = false → v.getLsbD 0 = true →
    ∃ t, hostCommand (.regWrite 0 v) s = .next t ∧
      t.regs.len = s.inLen.toNat ∧ t.regs.cap = min s.outCap.toNat s.params.outMax ∧
      t.regs.pos = 0 ∧ t.phase = .header ∧ (regValue t 1).toNat = 1 ∧
      t.resultLen = 0 ∧ t.errInfo = 0 ∧ t.irqEn = v.getLsbD 2 ∧
      t = { s with irqEn := t.irqEn, status := t.status, resultLen := t.resultLen,
                   errInfo := t.errInfo, phase := t.phase, regs := t.regs } ∧
      t.regs = { s.regs with len := t.regs.len, cap := t.regs.cap, pos := t.regs.pos }

/-- R263: CLEAR lowers DONE, and so irq, and keeps every other field of STATUS, RESULT_LEN, ERR_INFO
and OUT; while BUSY = 1 it is ignored; and START and CLEAR in one write act as START alone. The
write's bit 2 goes to IRQ_EN as in every CTRL write (R264). -/
def Obligations.ClearLowersDoneAlone : Prop :=
  (∀ (s : State) (v : Word), v.getLsbD 1 = true → v.getLsbD 0 = false →
    (s.status.busy = false →
      ∃ t, hostCommand (.regWrite 0 v) s = .next t ∧ t.status.done = false ∧ t.irq = false ∧
        t = { s with irqEn := v.getLsbD 2, status := { s.status with done := false } }) ∧
    (s.status.busy = true →
      hostCommand (.regWrite 0 v) s = .next { s with irqEn := v.getLsbD 2 })) ∧
  ∀ (s : State) (v w : Word), v.getLsbD 0 = true → w.getLsbD 0 = true →
    v.getLsbD 2 = w.getLsbD 2 → hostCommand (.regWrite 0 v) s = hostCommand (.regWrite 0 w) s

/-- R33: irq is DONE and IRQ_EN, 0 at reset; it falls at START and CLEAR while idle and when IRQ_EN is
written 0. -/
def Obligations.IrqFollowsDoneAndEnable : Prop :=
  (∀ s : State, s.irq = true ↔ s.status.done = true ∧ s.irqEn = true) ∧
  State.reset.irq = false ∧
  ∀ (s t : State) (v : Word), hostCommand (.regWrite 0 v) s = .next t →
    (s.status.busy = false ∧ (v.getLsbD 0 = true ∨ v.getLsbD 1 = true)) ∨ v.getLsbD 2 = false →
    t.irq = false

/-! ### Reset -/

/-- `spec/70_reset_and_hazards.md` section 1 (R340, R341): reset, asserted in any state, an
operation in progress among them, gives every register its reset value, leaves the core idle with
DONE and irq 0 and no completion, and the core does nothing until START. That reset is one event,
and what it keeps, is the model's own choice (assumption 15). -/
def Obligations.ResetGivesEveryRegisterItsValue : Prop :=
  ∀ (s : State) (es : List Event), s.events = .reset :: es →
    ∃ t, step s = .next t ∧ (∀ n, regValue t n = 0) ∧ t.phase = .idle ∧ t.irq = false ∧
      t.irqEn = false ∧ t.status = Status.reset ∧ t.events = es ∧ t.params = s.params ∧
      runCore t = .next t ∧ phaseCore t = .next t

/-- R50 (the values it gives; the internal registers' are the model's, assumption 6): right after
reset every register reads 0, the phase is IDLE, irq is 0, and a step of the quiet machine changes
nothing. -/
def Obligations.ResetStateIsIdle : Prop :=
  (∀ n, regValue State.reset n = 0) ∧ State.reset.phase = .idle ∧ State.reset.irq = false ∧
    State.reset.status = Status.reset ∧ step State.reset = .next State.reset

/-- The state after reset meets the invariant of the machine's states. -/
def Obligations.ResetMeetsTheInvariant : Prop := State.reset.Inv

/-! ### Completion -/

/-- R310: `raise E(info)`: ERR_KIND, ERR_NIBBLE (NIB for UnknownEncoding alone), HANDLER (0 for
InputRange), EMPTY = 0, ERR = 1, RESULT_LEN = 0, ERR_INFO = info, PHASE = IDLE, BUSY = 0, DONE = 1, in
one step; nothing outside the operation changes, and no OUT word. -/
def Obligations.RaiseRecordsTheError : Prop :=
  ∀ (k : ErrKind) (info : Word) (s : State),
    erredWith k (if k = .unknownEncoding then s.regs.nib else 0)
      (if k = .inputRange then 0 else s.regs.code) info s (raise k info s)

/-- R311: `return Ok(seq)`: no error, HANDLER = CODE, EMPTY = 0, RESULT_LEN = NOUT, ERR_INFO = 0,
PHASE = IDLE, BUSY = 0, DONE = 1; `OkEmpty` has EMPTY = 1, HANDLER = 0 and RESULT_LEN = 0. -/
def Obligations.ReturnRecordsTheResult : Prop :=
  ∀ s : State,
    ((returnOk s).status =
        { busy := false, done := true, err := false, empty := false, errKind := .none,
          errNibble := 0, handler := s.regs.code } ∧
      (returnOk s).resultLen = BitVec.ofNat 64 s.regs.nout ∧ (returnOk s).errInfo = 0 ∧
      (returnOk s).phase = .idle ∧ (returnOk s).outMem = s.outMem ∧ sameOutside s (returnOk s)) ∧
    ((returnOkEmpty s).status =
        { busy := false, done := true, err := false, empty := true, errKind := .none,
          errNibble := 0, handler := 0 } ∧
      (returnOkEmpty s).resultLen = 0 ∧ (returnOkEmpty s).errInfo = 0 ∧
      (returnOkEmpty s).phase = .idle ∧ (returnOkEmpty s).outMem = s.outMem ∧
      sameOutside s (returnOkEmpty s))

/-! ### The instructions -/

/-- Fetching: when the core moves at HEADER on a block inside IN, the step is the meaning of the
decoded instruction, whether no event is to come or the event is `run`; every other event is run in
its turn (R7, R151, R152; the events are the model's own, assumption 2). -/
def Obligations.StepRunsTheDecodedInstruction : Prop :=
  (∀ (s : State) (i : Instr) (rest : List Byte),
    s.status.busy = true → s.phase = .header → s.regs.len ≤ s.params.inMax →
    decode (fetchBytes s) = (i, rest) → i.wf = true →
    (s.events = [] → step s = exec i s) ∧
    ∀ es, s.events = .run :: es → step s = exec i { s with events := es }) ∧
  ∀ (s : State) (e : Event) (es : List Event), s.events = e :: es →
    step s = runEvent e { s with events := es }

/-- R151: a LEN above IN_MAX raises InputRange with info LEN before anything else, whatever the block
and the capacity are, and HANDLER is 0. -/
def Obligations.InputRangeComesFirst : Prop :=
  ∀ s : State, s.Inv → s.events = [] → s.phase = .header → s.params.inMax < s.regs.len →
    ∃ t, step s = .next t ∧ erredWith .inputRange 0 0 s.inLen s t

/-- R153: EMPTY completes from every state with Ok([]), EMPTY = 1, HANDLER = 0 and no OUT word
written, whatever IN and CAP are; and LEN = 0 selects it. -/
def Obligations.EmptyBlockDecodesToNothing : Prop :=
  ∀ s : State,
    (∃ t, exec .empty s = .next t ∧ (regValue t 1).toNat = 10 ∧ t.resultLen = 0 ∧ t.errInfo = 0 ∧
      t.phase = .idle ∧ t.outMem = s.outMem ∧ sameOutside s t ∧
      hostResult t = some .okEmpty) ∧
    (s.regs.len = 0 → fetchInstr s = .empty)

/-- R250, R251, R252: each Invalid operation completes from every state with UnknownEncoding, naming
the unnormalized nibble in ERR_NIBBLE and ERR_INFO, HANDLER = 3, RESULT_LEN = 0, and no OUT word
written. Its encoding has that code in the high nibble. -/
def Obligations.InvalidCodesNameTheirNibble : Prop :=
  ∀ (lo : Nibble) (s : State) (i : Instr) (n : Nibble), (i, n) ∈ invalidOps lo →
    encode i = [n ++ lo] ∧
    ∃ t, exec i s = .next t ∧ erredWith .unknownEncoding n 3 (n.setWidth 64) s t

/-- R173: Raw: with Lp = 8N and N within CAP the operation completes with N elements, element k the
sum of the sign-folded words 0 to k modulo 2^64, and every other word of OUT as before. -/
def Obligations.RawDecodesPrefixSums : Prop :=
  ∀ (lo : Nibble) (s : State), s.AtHeader →
    payloadLen s % 8 = 0 → payloadLen s / 8 ≤ s.regs.cap →
    ∃ t, exec (.raw lo) s = .next t ∧ decodedTo 0 (payloadLen s / 8) (rawElement s) s t

/-- R171, and the capacity rule of R172: Raw raises MalformedLength(Lp) when Lp is not a multiple of
8, whatever CAP is, and otherwise CapacityExceeded(NOUT) when NOUT = Lp/8 is above CAP; nothing is
written. -/
def Obligations.RawRaisesItsErrors : Prop :=
  ∀ (lo : Nibble) (s : State), s.AtHeader →
    (payloadLen s % 8 ≠ 0 →
      ∃ t, exec (.raw lo) s = .next t ∧
        erredWith .malformedLength 0 0 (BitVec.ofNat 64 (payloadLen s)) s t) ∧
    (payloadLen s % 8 = 0 → s.regs.cap < payloadLen s / 8 →
      ∃ t, exec (.raw lo) s = .next t ∧
        erredWith .capacityExceeded 0 0 (BitVec.ofNat 64 (payloadLen s / 8)) s t)

/-- `spec/43_packed_delta.md` (R192 to R195), for any admitted unpacker (R140, R143): element 0 is the
sign-folded first value and element k that value plus the first k sign-folded deltas of the words' lists
in order, modulo 2^64. -/
def Obligations.PackedDecodesWithAnyUnpacker : Prop :=
  ∀ (u : Unpacker) (d : Decidable u.Admitted) (s : State) (deltas : List Word), u.Admitted →
    s.AtHeader → 9 ≤ s.regs.len →
    u.lists (wordsOf (packedBytes s)) = some deltas → 1 + deltas.length ≤ s.regs.cap →
    ∃ t, execPackedWith u d s = .next t ∧
      decodedTo 1 (1 + deltas.length)
        (deltaElement (BitVec.ofInt 64 (signFold (fixedAt s 1))) deltas) s t

/-- `spec/43_packed_delta.md` (R192 to R195), for the machine's own PACKED: when every complete word
unpacks and the result fits, the instruction completes with the first value and its running sums. -/
def Obligations.PackedDecodesRunningSums : Prop :=
  ∀ (lo : Nibble) (s : State) (deltas : List Word), s.AtHeader → 9 ≤ s.regs.len →
    unpacker.lists (wordsOf (packedBytes s)) = some deltas → 1 + deltas.length ≤ s.regs.cap →
    ∃ t, exec (.packed lo) s = .next t ∧
      decodedTo 1 (1 + deltas.length)
        (deltaElement (BitVec.ofInt 64 (signFold (fixedAt s 1))) deltas) s t

/-- R191 and the errors of R194 and R197, for any admitted unpacker: Packed-Delta raises TooShort(Lp)
below 8 payload bytes; else InvalidPackedWord with COUNT's diagnostic, verbatim and before the capacity
is looked at; else CapacityExceeded when 1 + n is above CAP. Nothing is written. -/
def Obligations.PackedRaisesItsErrors : Prop :=
  ∀ (u : Unpacker) (d : Decidable u.Admitted) (s : State), u.Admitted → s.AtHeader →
    1 ≤ s.regs.len →
    (payloadLen s < 8 →
      ∃ t, execPackedWith u d s = .next t ∧
        erredWith .tooShort 0 1 (BitVec.ofNat 64 (payloadLen s)) s t) ∧
    (8 ≤ payloadLen s →
      (∀ e, u.count (packedBytes s) = .err e →
        ∃ t, execPackedWith u d s = .next t ∧ erredWith .invalidPackedWord 0 1 e s t) ∧
      ∀ n, u.count (packedBytes s) = .ok n → s.regs.cap < 1 + n →
        ∃ t, execPackedWith u d s = .next t ∧
          erredWith .capacityExceeded 0 1 (satWord (1 + n)) s t)

/-- `spec/40_primitives.md` section 5 (R143): a block instance is refused by name exactly when its
unpacker breaks the contract of R141 and R142 on any word or byte string, at every step, whatever its
block is, and so is PACKED over it; over an admitted unpacker UNPACK never fails on the words COUNT
accepted (the spec's own derivation). The machine is the instance of the configured unpacker
(assumption 5), and its PACKED always answers a next state. -/
def Obligations.OnlyUnadmittedUnpackersAreRefused : Prop :=
  (∀ (u : Unpacker) (d : Decidable u.Admitted) (s : State),
    (stepWith u d s = .refused .unpackerNotAdmitted ↔ ¬ u.Admitted) ∧
    (execPackedWith u d s = .refused .unpackerNotAdmitted ↔ ¬ u.Admitted)) ∧
  (∀ u : Unpacker, u.Admitted → ∀ (bs : List Byte) (n : Nat), u.count bs = .ok n →
    ∀ w ∈ wordsOf bs, ∃ vs, u.unpack w = .ok vs) ∧
  (∀ (d : Decidable unpacker.Admitted) (s : State), stepWith unpacker d s = step s) ∧
  ∀ (lo : Nibble) (s : State), ∃ t, exec (.packed lo) s = .next t

/-- R196: the 1 to 7 bytes after the last complete packed word do not affect the result, the status or
ERR_INFO: two states whose blocks agree on every byte before them complete alike. -/
def Obligations.PackedTrailingFragmentIsIgnored : Prop :=
  ∀ (lo : Nibble) (s : State) (m : Memory Byte) (t : State), s.AtHeader → 9 ≤ s.regs.len →
    (∀ p, p < s.regs.len - (payloadLen s - 8) % 8 → readIn { s with inMem := m } p = readIn s p) →
    exec (.packed lo) s = .next t →
    exec (.packed lo) { s with inMem := m } = .next { t with inMem := m }

/-- R225, R227, R228: Run-Length: with both varints valid the repeat count is the count field plus
one exactly, and when it fits the operation completes with element i = first + i * delta modulo
2^64, for a zero delta as for any other. -/
def Obligations.RunLengthDecodesTheProgression : Prop :=
  ∀ (lo : Nibble) (s : State) (v1 v2 : Word) (n1 n2 : Nat), s.AtHeader → 9 ≤ s.regs.len →
    varintAt s 9 = some (v1, n1) → varintAt s (9 + n1) = some (v2, n2) →
    v2.toNat + 1 ≤ s.regs.cap →
    ∃ t, exec (.rle lo) s = .next t ∧
      decodedTo 2 (v2.toNat + 1)
        (fun i => BitVec.ofInt 64 (signFold (fixedAt s 1)) +
          BitVec.ofNat 64 i * BitVec.ofInt 64 (signFold v1)) s t

/-- `spec/44_run_length.md` (R221, R223, R224, R226): Run-Length raises TooShort(Lp) below 8 payload
bytes; else MalformedVarint(0) when the delta varint fails; else MalformedVarint(1) when the count
varint fails; else CapacityExceeded(min(NOUT, 2^64 - 1)) when NOUT is above CAP. Nothing is written.
That the repeat count 2^64 is always above CAP is R226's own derivation from R37. -/
def Obligations.RunLengthRaisesItsErrors : Prop :=
  ∀ (lo : Nibble) (s : State), s.AtHeader → 1 ≤ s.regs.len →
    (payloadLen s < 8 →
      ∃ t, exec (.rle lo) s = .next t ∧
        erredWith .tooShort 0 2 (BitVec.ofNat 64 (payloadLen s)) s t) ∧
    (8 ≤ payloadLen s → varintAt s 9 = none →
      ∃ t, exec (.rle lo) s = .next t ∧ erredWith .malformedVarint 0 2 0 s t) ∧
    ∀ v1 n1, 8 ≤ payloadLen s → varintAt s 9 = some (v1, n1) →
      (varintAt s (9 + n1) = none →
        ∃ t, exec (.rle lo) s = .next t ∧ erredWith .malformedVarint 0 2 1 s t) ∧
      ∀ v2 n2, varintAt s (9 + n1) = some (v2, n2) →
        (s.regs.cap < v2.toNat + 1 →
          ∃ t, exec (.rle lo) s = .next t ∧
            erredWith .capacityExceeded 0 2
              (BitVec.ofNat 64 (min (v2.toNat + 1) (2 ^ 64 - 1))) s t) ∧
        (v2.toNat + 1 = 2 ^ 64 → s.regs.cap < v2.toNat + 1)

/-- R230: the bytes after the count varint do not affect the result, the status or ERR_INFO: two
states whose blocks agree on every byte up to its end complete alike. -/
def Obligations.RunLengthTrailingBytesAreIgnored : Prop :=
  ∀ (lo : Nibble) (s : State) (m : Memory Byte) (t : State) (v1 v2 : Word) (n1 n2 : Nat),
    s.AtHeader → 9 ≤ s.regs.len →
    varintAt s 9 = some (v1, n1) → varintAt s (9 + n1) = some (v2, n2) →
    (∀ p, p < 9 + n1 + n2 → readIn { s with inMem := m } p = readIn s p) →
    exec (.rle lo) s = .next t →
    exec (.rle lo) { s with inMem := m } = .next { t with inMem := m }

/-- R158: HANDLER at completion is the normalized code for every operation that reached the dispatch,
whether it succeeded or raised, and 0 for EMPTY. -/
def Obligations.HandlerIsTheNormalizedCode : Prop :=
  ∀ (lo : Nibble) (s t : State),
    (exec (.raw lo) s = .next t → t.status.handler = 0) ∧
    (exec (.packed lo) s = .next t → t.status.handler = 1) ∧
    (exec (.rle lo) s = .next t → t.status.handler = 2) ∧
    (∀ i n, (i, n) ∈ invalidOps lo → exec i s = .next t → t.status.handler = 3) ∧
    (exec .empty s = .next t → t.status.handler = 0) ∧
    (raiseInputRange s).status.handler = 0

/-- R309: an operation that ends in an error writes no OUT word and sets RESULT_LEN to 0: no partial
output, from any state, for every instruction and for the InputRange that comes before them. -/
def Obligations.ErrorsLeaveNoOutput : Prop :=
  (∀ (i : Instr) (s t : State), exec i s = .next t → t.status.err = true →
    t.outMem = s.outMem ∧ t.resultLen = 0) ∧
  ∀ s : State, (raiseInputRange s).outMem = s.outMem ∧ (raiseInputRange s).resultLen = 0

/-- `spec/20_memory.md` R61 and `spec/10_state.md` R24, R25: no operation writes IN, or changes
IRQ_EN, IN_LEN, OUT_CAP or anything outside it, and OUT words at RESULT_LEN and above keep their
values (R67). -/
def Obligations.OperationsKeepEverythingElse : Prop :=
  ∀ (i : Instr) (s t : State), s.AtHeader → exec i s = .next t →
    sameOutside s t ∧ t.resultLen.toNat ≤ s.regs.cap ∧
    ∀ k, t.resultLen.toNat ≤ k → readOut t k = readOut s k

/-- `spec/70_reset_and_hazards.md` R350 and R310, R311: every instruction, in every state,
completes: it answers a next state with PHASE = IDLE, BUSY = 0 and DONE = 1. -/
def Obligations.EveryInstructionCompletes : Prop :=
  ∀ (i : Instr) (s : State),
    ∃ t, exec i s = .next t ∧ t.phase = .idle ∧ t.status.busy = false ∧ t.status.done = true

/-! ### The phases of the core -/

/-- `spec/10_state.md` section 3 (R32): no decode step writes STATUS between START and completion: a
phase that does not complete the operation leaves STATUS, RESULT_LEN, ERR_INFO, LEN and CAP as they
were. -/
def Obligations.DecodeStepsKeepStatus : Prop :=
  ∀ s t : State, phaseCore s = .next t → s.status.busy = true → t.status.busy = true →
    t.status = s.status ∧ t.resultLen = s.resultLen ∧ t.errInfo = s.errInfo ∧
    t.regs.len = s.regs.len ∧ t.regs.cap = s.regs.cap

/-- `spec/10_state.md` R41: POS only increases and never passes LEN, phase by phase. -/
def Obligations.ReadPointerOnlyMovesForward : Prop :=
  ∀ s t : State, s.Inv → phaseCore s = .next t → s.status.busy = true → t.status.busy = true →
    s.regs.pos ≤ t.regs.pos ∧ t.regs.pos ≤ t.regs.len

/-- `spec/10_state.md` section 5 (R43), phase by phase: OUT is written in increasing order of IDX, each
word below the new IDX holding its element, and no other word changes. PK_COUNT writes OUT[0], the first
value, and leaves IDX = 1; one phase of RAW_LOOP and of RLE_FILL writes OUT[IDX], the running sum and
element IDX of the progression; one phase of PK_LOOP writes from OUT[IDX] on the running sums of one
packed word's values, for any admitted unpacker. A loop's last phase writes nothing. How the core is cut
into phases is the model's own choice (assumption 1). -/
def Obligations.OutputIsWrittenInIndexOrder : Prop :=
  ∀ (u : Unpacker) (s t : State), u.Admitted → s.InvWith u → phaseCoreWith u s = .next t →
    t.status.busy = true →
    (s.phase = .rawLoop →
      t.regs.nout = s.regs.nout ∧
      (s.regs.idx < s.regs.nout →
        t.regs.idx = s.regs.idx + 1 ∧
        t.regs.acc = s.regs.acc + BitVec.ofInt 64 (signFold (fixedAt s s.regs.pos)) ∧
        ∀ k, readOut t k = if k = s.regs.idx then t.regs.acc else readOut s k) ∧
      (s.regs.idx = s.regs.nout → t.regs.idx = s.regs.idx ∧ t.outMem = s.outMem)) ∧
    (s.phase = .pkCount →
      t.regs.idx = 1 ∧ 1 ≤ t.regs.nout ∧ t.regs.nout ≤ t.regs.cap ∧ t.regs.acc = s.regs.first ∧
      ∀ k, readOut t k = if k = 0 then s.regs.first else readOut s k) ∧
    (s.phase = .pkLoop →
      t.regs.nout = s.regs.nout ∧ t.regs.idx ≤ t.regs.nout ∧
      (s.regs.pos + 8 ≤ s.regs.len →
        ∃ vs, u.unpack (fixedAt s s.regs.pos) = .ok vs ∧
          t.regs.idx = s.regs.idx + vs.length ∧
          t.regs.acc = deltaElement s.regs.acc vs vs.length ∧
          ∀ k, readOut t k =
            if s.regs.idx ≤ k ∧ k < t.regs.idx then
              deltaElement s.regs.acc vs (k - s.regs.idx + 1)
            else readOut s k) ∧
      (s.regs.len < s.regs.pos + 8 →
        t.regs.idx = s.regs.idx ∧ t.regs.idx = t.regs.nout ∧ t.outMem = s.outMem)) ∧
    (s.phase = .rleFill →
      t.regs.nout = s.regs.nout ∧
      (s.regs.idx < s.regs.nout →
        t.regs.idx = s.regs.idx + 1 ∧
        ∀ k, readOut t k =
          if k = s.regs.idx then s.regs.first + BitVec.ofNat 64 s.regs.idx * s.regs.delta
          else readOut s k) ∧
      (s.regs.idx = s.regs.nout → t.regs.idx = s.regs.idx ∧ t.outMem = s.outMem)) ∧
    (s.phase ≠ .rawLoop → s.phase ≠ .pkCount → s.phase ≠ .pkLoop → s.phase ≠ .rleFill →
      t.outMem = s.outMem)

/-- `spec/70_reset_and_hazards.md` section 4 (R350, and the bound of R351, the spec's own derivation;
the cut into phases, and so the count of them and the constant 8, is the model's own, assumption 1):
from any point of an operation, the core taking phase after phase reaches its completion, after a number
of phases bounded by LEN and the result length, in the same state as when it runs undisturbed. -/
def Obligations.PhasesReachTheCompletion : Prop :=
  ∀ s : State, s.Inv → s.status.busy = true →
    ∃ (n : Nat) (t : State), phases n s = .next t ∧ runCore s = .next t ∧
      t.phase = .idle ∧ t.status.done = true ∧
      n ≤ 8 * (s.regs.len + t.resultLen.toNat + 1)

/-! ### The whole machine -/

/-- `spec/60_exceptions.md` section 5 (R335): while BUSY = 0 the core takes no step, and everything
survives idleness. -/
def Obligations.IdleCoreTakesNoStep : Prop :=
  ∀ s : State, s.status.busy = false →
    runCore s = .next s ∧ phaseCore s = .next s ∧ (s.events = [] → step s = .next s)

/-- `spec/70_reset_and_hazards.md` section 3 (R344) and `spec/60_exceptions.md` section 5 (R330): a
step faults only for an INWRITE or OUTWRITE while BUSY = 1, the fault is HostHazard, every other
event has an effect, and no step is refused. -/
def Obligations.OnlyHazardsFault : Prop :=
  ∀ s : State,
    (∀ f, step s = .fault f →
      f = .hostHazard ∧ s.status.busy = true ∧
        ((∃ p b es, s.events = .host (.inWrite p b) :: es) ∨
          ∃ i v es, s.events = .host (.outWrite i v) :: es)) ∧
    ∀ r, step s ≠ .refused r

/-- `spec/20_memory.md` section 5 (R73) and `spec/70_reset_and_hazards.md` (R345, R347): a host
command while BUSY = 1 that is not a hazard does not disturb the operation: run afterwards, it
completes with the same status, result and memories. -/
def Obligations.HostCommandsDoNotDisturbTheOperation : Prop :=
  ∀ (c : HostCmd) (s s' t : State), s.status.busy = true → hostCommand c s = .next s' →
    runCore s = .next t →
    ∃ t', runCore s' = .next t' ∧ t'.status = t.status ∧ t'.resultLen = t.resultLen ∧
      t'.errInfo = t.errInfo ∧ t'.inMem = t.inMem ∧ t'.outMem = t.outMem ∧ t'.phase = t.phase ∧
      t'.inLen = t.inLen ∧ t'.outCap = t.outCap

/-- The invariant (the legal combinations of STATUS of R23, the ranges of R9, R26, R30, R31 and R37,
the canonical memories of assumption 8, and what the core's registers hold in each phase) is kept by
every step from every state that meets it. -/
def Obligations.EveryStepKeepsTheInvariant : Prop :=
  ∀ s t : State, s.Inv → step s = .next t → t.Inv

/-- `spec/00_scope.md` section 2 (R6) and `spec/41_dispatch.md` section 1 (R152): the operation
started on a block computes `DecodeBlock` on its bytes and its capacity: from HEADER the core
completes with exactly that result, as the host reads it (R271). -/
def Obligations.OperationComputesDecodeBlock : Prop :=
  ∀ s : State, s.Inv → s.phase = .header →
    ∃ t, runCore s = .next t ∧ sameOutside s t ∧
      hostResult t = some (decodeBlock unpacker s.params.inMax s.regs.cap (blockBytes s))

/-- `spec/00_scope.md` R2 with `spec/90_conflicts.md` C9, for Raw: every finite sequence of i64
values is reconstructed from the block of its differences. -/
def Obligations.RawReconstructsEverySequence : Prop :=
  ∀ (s : State) (lo : Nibble) (values : List Word), s.AtHeader →
    holdsBlock s (Block.raw lo (differences 0 values)).bytes → values.length ≤ s.regs.cap →
    ∃ t, exec (fetchInstr s) s = .next t ∧ hostResult t = some (.ok values)

/-- `spec/00_scope.md` R2 with `spec/90_conflicts.md` C9, for Packed-Delta: every non-empty sequence
is reconstructed from a block whose words unpack to its sign-folded differences, whatever trailing
fragment follows. -/
def Obligations.PackedReconstructsEverySequence : Prop :=
  ∀ (s : State) (lo : Nibble) (first : Word) (values words : List Word) (trailing : List Byte),
    s.AtHeader → trailing.length ≤ 7 →
    holdsBlock s (Block.packed lo (zigzagEncode first) words trailing).bytes →
    unpacker.lists words = some ((differences first values).map zigzagEncode) →
    1 + values.length ≤ s.regs.cap →
    ∃ t, exec (fetchInstr s) s = .next t ∧ hostResult t = some (.ok (first :: values))

/-- `spec/00_scope.md` R2 with `spec/90_conflicts.md` C9, for Run-Length: every non-empty arithmetic
progression modulo 2^64 is reconstructed from its block with minimal varints. -/
def Obligations.RunLengthReconstructsEveryProgression : Prop :=
  ∀ (s : State) (first delta : Word) (count : Nat), s.AtHeader → 1 ≤ count → count ≤ s.regs.cap →
    holdsBlock s (Block.rleRun first delta count).bytes →
    ∃ t, exec (fetchInstr s) s = .next t ∧
      hostResult t = some (.ok (progression first delta count))
end

