-- ==== Sys2Proof/Laws/State.lean ====
section
/-! SUPPORT. One lemma a field for each update of the state, true by definition: later proofs use these
and do not unfold a record update. -/

namespace Sys2Proof.Machine

/-! ### writeIn -/

@[simp] theorem writeIn_params (s : State) (p : Nat) (b : Byte) :
    (writeIn s p b).params = s.params := rfl
@[simp] theorem writeIn_irqEn (s : State) (p : Nat) (b : Byte) :
    (writeIn s p b).irqEn = s.irqEn := rfl
@[simp] theorem writeIn_status (s : State) (p : Nat) (b : Byte) :
    (writeIn s p b).status = s.status := rfl
@[simp] theorem writeIn_inLen (s : State) (p : Nat) (b : Byte) :
    (writeIn s p b).inLen = s.inLen := rfl
@[simp] theorem writeIn_outCap (s : State) (p : Nat) (b : Byte) :
    (writeIn s p b).outCap = s.outCap := rfl
@[simp] theorem writeIn_resultLen (s : State) (p : Nat) (b : Byte) :
    (writeIn s p b).resultLen = s.resultLen := rfl
@[simp] theorem writeIn_errInfo (s : State) (p : Nat) (b : Byte) :
    (writeIn s p b).errInfo = s.errInfo := rfl
@[simp] theorem writeIn_inMem (s : State) (p : Nat) (b : Byte) :
    (writeIn s p b).inMem = if p < s.params.inMax then Memory.set s.inMem p b else s.inMem := rfl
@[simp] theorem writeIn_outMem (s : State) (p : Nat) (b : Byte) :
    (writeIn s p b).outMem = s.outMem := rfl
@[simp] theorem writeIn_phase (s : State) (p : Nat) (b : Byte) :
    (writeIn s p b).phase = s.phase := rfl
@[simp] theorem writeIn_regs (s : State) (p : Nat) (b : Byte) : (writeIn s p b).regs = s.regs := rfl
@[simp] theorem writeIn_events (s : State) (p : Nat) (b : Byte) :
    (writeIn s p b).events = s.events := rfl
@[simp] theorem writeIn_replies (s : State) (p : Nat) (b : Byte) :
    (writeIn s p b).replies = s.replies := rfl
@[simp] theorem writeIn_draws (s : State) (p : Nat) (b : Byte) :
    (writeIn s p b).draws = s.draws := rfl
@[simp] theorem writeIn_epoch (s : State) (p : Nat) (b : Byte) :
    (writeIn s p b).epoch = s.epoch := rfl

/-! ### writeOut -/

@[simp] theorem writeOut_params (s : State) (i : Nat) (v : Word) :
    (writeOut s i v).params = s.params := rfl
@[simp] theorem writeOut_irqEn (s : State) (i : Nat) (v : Word) :
    (writeOut s i v).irqEn = s.irqEn := rfl
@[simp] theorem writeOut_status (s : State) (i : Nat) (v : Word) :
    (writeOut s i v).status = s.status := rfl
@[simp] theorem writeOut_inLen (s : State) (i : Nat) (v : Word) :
    (writeOut s i v).inLen = s.inLen := rfl
@[simp] theorem writeOut_outCap (s : State) (i : Nat) (v : Word) :
    (writeOut s i v).outCap = s.outCap := rfl
@[simp] theorem writeOut_resultLen (s : State) (i : Nat) (v : Word) :
    (writeOut s i v).resultLen = s.resultLen := rfl
@[simp] theorem writeOut_errInfo (s : State) (i : Nat) (v : Word) :
    (writeOut s i v).errInfo = s.errInfo := rfl
@[simp] theorem writeOut_inMem (s : State) (i : Nat) (v : Word) :
    (writeOut s i v).inMem = s.inMem := rfl
@[simp] theorem writeOut_outMem (s : State) (i : Nat) (v : Word) :
    (writeOut s i v).outMem = 
      if i < s.params.outMax then Memory.set s.outMem i v else s.outMem := rfl
@[simp] theorem writeOut_phase (s : State) (i : Nat) (v : Word) :
    (writeOut s i v).phase = s.phase := rfl
@[simp] theorem writeOut_regs (s : State) (i : Nat) (v : Word) :
    (writeOut s i v).regs = s.regs := rfl
@[simp] theorem writeOut_events (s : State) (i : Nat) (v : Word) :
    (writeOut s i v).events = s.events := rfl
@[simp] theorem writeOut_replies (s : State) (i : Nat) (v : Word) :
    (writeOut s i v).replies = s.replies := rfl
@[simp] theorem writeOut_draws (s : State) (i : Nat) (v : Word) :
    (writeOut s i v).draws = s.draws := rfl
@[simp] theorem writeOut_epoch (s : State) (i : Nat) (v : Word) :
    (writeOut s i v).epoch = s.epoch := rfl

/-! ### drawn -/

@[simp] theorem drawn_params (s : State) (k : Nat) : (drawn s k).params = s.params := rfl
@[simp] theorem drawn_irqEn (s : State) (k : Nat) : (drawn s k).irqEn = s.irqEn := rfl
@[simp] theorem drawn_status (s : State) (k : Nat) : (drawn s k).status = s.status := rfl
@[simp] theorem drawn_inLen (s : State) (k : Nat) : (drawn s k).inLen = s.inLen := rfl
@[simp] theorem drawn_outCap (s : State) (k : Nat) : (drawn s k).outCap = s.outCap := rfl
@[simp] theorem drawn_resultLen (s : State) (k : Nat) : (drawn s k).resultLen = s.resultLen := rfl
@[simp] theorem drawn_errInfo (s : State) (k : Nat) : (drawn s k).errInfo = s.errInfo := rfl
@[simp] theorem drawn_inMem (s : State) (k : Nat) : (drawn s k).inMem = s.inMem := rfl
@[simp] theorem drawn_outMem (s : State) (k : Nat) : (drawn s k).outMem = s.outMem := rfl
@[simp] theorem drawn_phase (s : State) (k : Nat) : (drawn s k).phase = s.phase := rfl
@[simp] theorem drawn_regs (s : State) (k : Nat) : (drawn s k).regs = s.regs := rfl
@[simp] theorem drawn_events (s : State) (k : Nat) : (drawn s k).events = s.events := rfl
@[simp] theorem drawn_replies (s : State) (k : Nat) : (drawn s k).replies = s.replies := rfl
@[simp] theorem drawn_draws (s : State) (k : Nat) : (drawn s k).draws = s.draws + k := rfl
@[simp] theorem drawn_epoch (s : State) (k : Nat) : (drawn s k).epoch = s.epoch := rfl

/-! ### reply -/

@[simp] theorem reply_params (s : State) (r : Reply) : (reply r s).params = s.params := rfl
@[simp] theorem reply_irqEn (s : State) (r : Reply) : (reply r s).irqEn = s.irqEn := rfl
@[simp] theorem reply_status (s : State) (r : Reply) : (reply r s).status = s.status := rfl
@[simp] theorem reply_inLen (s : State) (r : Reply) : (reply r s).inLen = s.inLen := rfl
@[simp] theorem reply_outCap (s : State) (r : Reply) : (reply r s).outCap = s.outCap := rfl
@[simp] theorem reply_resultLen (s : State) (r : Reply) : (reply r s).resultLen = s.resultLen := rfl
@[simp] theorem reply_errInfo (s : State) (r : Reply) : (reply r s).errInfo = s.errInfo := rfl
@[simp] theorem reply_inMem (s : State) (r : Reply) : (reply r s).inMem = s.inMem := rfl
@[simp] theorem reply_outMem (s : State) (r : Reply) : (reply r s).outMem = s.outMem := rfl
@[simp] theorem reply_phase (s : State) (r : Reply) : (reply r s).phase = s.phase := rfl
@[simp] theorem reply_regs (s : State) (r : Reply) : (reply r s).regs = s.regs := rfl
@[simp] theorem reply_events (s : State) (r : Reply) : (reply r s).events = s.events := rfl
@[simp] theorem reply_replies (s : State) (r : Reply) :
    (reply r s).replies = s.replies ++ [r] := rfl
@[simp] theorem reply_draws (s : State) (r : Reply) : (reply r s).draws = s.draws := rfl
@[simp] theorem reply_epoch (s : State) (r : Reply) : (reply r s).epoch = s.epoch := rfl

/-! ### advance -/

@[simp] theorem advance_params (s : State) (k : Nat) : (advance s k).params = s.params := rfl
@[simp] theorem advance_irqEn (s : State) (k : Nat) : (advance s k).irqEn = s.irqEn := rfl
@[simp] theorem advance_status (s : State) (k : Nat) : (advance s k).status = s.status := rfl
@[simp] theorem advance_inLen (s : State) (k : Nat) : (advance s k).inLen = s.inLen := rfl
@[simp] theorem advance_outCap (s : State) (k : Nat) : (advance s k).outCap = s.outCap := rfl
@[simp] theorem advance_resultLen (s : State) (k : Nat) :
    (advance s k).resultLen = s.resultLen := rfl
@[simp] theorem advance_errInfo (s : State) (k : Nat) : (advance s k).errInfo = s.errInfo := rfl
@[simp] theorem advance_inMem (s : State) (k : Nat) : (advance s k).inMem = s.inMem := rfl
@[simp] theorem advance_outMem (s : State) (k : Nat) : (advance s k).outMem = s.outMem := rfl
@[simp] theorem advance_phase (s : State) (k : Nat) : (advance s k).phase = s.phase := rfl
@[simp] theorem advance_regs (s : State) (k : Nat) :
    (advance s k).regs = { s.regs with pos := s.regs.pos + k } := rfl
@[simp] theorem advance_events (s : State) (k : Nat) : (advance s k).events = s.events := rfl
@[simp] theorem advance_replies (s : State) (k : Nat) : (advance s k).replies = s.replies := rfl
@[simp] theorem advance_draws (s : State) (k : Nat) : (advance s k).draws = s.draws := rfl
@[simp] theorem advance_epoch (s : State) (k : Nat) : (advance s k).epoch = s.epoch := rfl

/-! ### dispatchTo -/

@[simp] theorem dispatchTo_params (s : State) (n : Nibble) :
    (dispatchTo n s).params = s.params := rfl
@[simp] theorem dispatchTo_irqEn (s : State) (n : Nibble) : (dispatchTo n s).irqEn = s.irqEn := rfl
@[simp] theorem dispatchTo_status (s : State) (n : Nibble) :
    (dispatchTo n s).status = s.status := rfl
@[simp] theorem dispatchTo_inLen (s : State) (n : Nibble) : (dispatchTo n s).inLen = s.inLen := rfl
@[simp] theorem dispatchTo_outCap (s : State) (n : Nibble) :
    (dispatchTo n s).outCap = s.outCap := rfl
@[simp] theorem dispatchTo_resultLen (s : State) (n : Nibble) :
    (dispatchTo n s).resultLen = s.resultLen := rfl
@[simp] theorem dispatchTo_errInfo (s : State) (n : Nibble) :
    (dispatchTo n s).errInfo = s.errInfo := rfl
@[simp] theorem dispatchTo_inMem (s : State) (n : Nibble) : (dispatchTo n s).inMem = s.inMem := rfl
@[simp] theorem dispatchTo_outMem (s : State) (n : Nibble) :
    (dispatchTo n s).outMem = s.outMem := rfl
@[simp] theorem dispatchTo_phase (s : State) (n : Nibble) : (dispatchTo n s).phase = s.phase := rfl
@[simp] theorem dispatchTo_regs (s : State) (n : Nibble) :
    (dispatchTo n s).regs = { s.regs with pos := 1, nib := n, code := normalize n } := rfl
@[simp] theorem dispatchTo_events (s : State) (n : Nibble) :
    (dispatchTo n s).events = s.events := rfl
@[simp] theorem dispatchTo_replies (s : State) (n : Nibble) :
    (dispatchTo n s).replies = s.replies := rfl
@[simp] theorem dispatchTo_draws (s : State) (n : Nibble) : (dispatchTo n s).draws = s.draws := rfl
@[simp] theorem dispatchTo_epoch (s : State) (n : Nibble) : (dispatchTo n s).epoch = s.epoch := rfl

/-! ### startOperation -/

@[simp] theorem startOperation_params (s : State) : (startOperation s).params = s.params := rfl
@[simp] theorem startOperation_irqEn (s : State) : (startOperation s).irqEn = s.irqEn := rfl
@[simp] theorem startOperation_status (s : State) : (startOperation s).status = startStatus := rfl
@[simp] theorem startOperation_inLen (s : State) : (startOperation s).inLen = s.inLen := rfl
@[simp] theorem startOperation_outCap (s : State) : (startOperation s).outCap = s.outCap := rfl
@[simp] theorem startOperation_resultLen (s : State) : (startOperation s).resultLen = 0 := rfl
@[simp] theorem startOperation_errInfo (s : State) : (startOperation s).errInfo = 0 := rfl
@[simp] theorem startOperation_inMem (s : State) : (startOperation s).inMem = s.inMem := rfl
@[simp] theorem startOperation_outMem (s : State) : (startOperation s).outMem = s.outMem := rfl
@[simp] theorem startOperation_phase (s : State) : (startOperation s).phase = .header := rfl
@[simp] theorem startOperation_regs (s : State) :
    (startOperation s).regs = 
      { s.regs with len := s.inLen.toNat, cap := min s.outCap.toNat s.params.outMax, pos := 0 } := rfl
@[simp] theorem startOperation_events (s : State) : (startOperation s).events = s.events := rfl
@[simp] theorem startOperation_replies (s : State) : (startOperation s).replies = s.replies := rfl
@[simp] theorem startOperation_draws (s : State) : (startOperation s).draws = s.draws := rfl
@[simp] theorem startOperation_epoch (s : State) : (startOperation s).epoch = s.epoch := rfl

/-! ### clearDone -/

@[simp] theorem clearDone_params (s : State) : (clearDone s).params = s.params := rfl
@[simp] theorem clearDone_irqEn (s : State) : (clearDone s).irqEn = s.irqEn := rfl
@[simp] theorem clearDone_status (s : State) :
    (clearDone s).status = { s.status with done := false } := rfl
@[simp] theorem clearDone_inLen (s : State) : (clearDone s).inLen = s.inLen := rfl
@[simp] theorem clearDone_outCap (s : State) : (clearDone s).outCap = s.outCap := rfl
@[simp] theorem clearDone_resultLen (s : State) : (clearDone s).resultLen = s.resultLen := rfl
@[simp] theorem clearDone_errInfo (s : State) : (clearDone s).errInfo = s.errInfo := rfl
@[simp] theorem clearDone_inMem (s : State) : (clearDone s).inMem = s.inMem := rfl
@[simp] theorem clearDone_outMem (s : State) : (clearDone s).outMem = s.outMem := rfl
@[simp] theorem clearDone_phase (s : State) : (clearDone s).phase = s.phase := rfl
@[simp] theorem clearDone_regs (s : State) : (clearDone s).regs = s.regs := rfl
@[simp] theorem clearDone_events (s : State) : (clearDone s).events = s.events := rfl
@[simp] theorem clearDone_replies (s : State) : (clearDone s).replies = s.replies := rfl
@[simp] theorem clearDone_draws (s : State) : (clearDone s).draws = s.draws := rfl
@[simp] theorem clearDone_epoch (s : State) : (clearDone s).epoch = s.epoch := rfl

/-! ### complete -/

@[simp] theorem complete_params (s : State) (f : Status) (l e : Word) :
    (complete f l e s).params = s.params := rfl
@[simp] theorem complete_irqEn (s : State) (f : Status) (l e : Word) :
    (complete f l e s).irqEn = s.irqEn := rfl
@[simp] theorem complete_status (s : State) (f : Status) (l e : Word) :
    (complete f l e s).status = f := rfl
@[simp] theorem complete_inLen (s : State) (f : Status) (l e : Word) :
    (complete f l e s).inLen = s.inLen := rfl
@[simp] theorem complete_outCap (s : State) (f : Status) (l e : Word) :
    (complete f l e s).outCap = s.outCap := rfl
@[simp] theorem complete_resultLen (s : State) (f : Status) (l e : Word) :
    (complete f l e s).resultLen = l := rfl
@[simp] theorem complete_errInfo (s : State) (f : Status) (l e : Word) :
    (complete f l e s).errInfo = e := rfl
@[simp] theorem complete_inMem (s : State) (f : Status) (l e : Word) :
    (complete f l e s).inMem = s.inMem := rfl
@[simp] theorem complete_outMem (s : State) (f : Status) (l e : Word) :
    (complete f l e s).outMem = s.outMem := rfl
@[simp] theorem complete_phase (s : State) (f : Status) (l e : Word) :
    (complete f l e s).phase = .idle := rfl
@[simp] theorem complete_regs (s : State) (f : Status) (l e : Word) :
    (complete f l e s).regs = leftRegs s.draws := rfl
@[simp] theorem complete_events (s : State) (f : Status) (l e : Word) :
    (complete f l e s).events = s.events := rfl
@[simp] theorem complete_replies (s : State) (f : Status) (l e : Word) :
    (complete f l e s).replies = s.replies := rfl
@[simp] theorem complete_draws (s : State) (f : Status) (l e : Word) :
    (complete f l e s).draws = s.draws + 1 := rfl
@[simp] theorem complete_epoch (s : State) (f : Status) (l e : Word) :
    (complete f l e s).epoch = s.epoch := rfl

/-! ### raise -/

@[simp] theorem raise_params (s : State) (k : ErrKind) (e : Word) :
    (raise k e s).params = s.params := rfl
@[simp] theorem raise_irqEn (s : State) (k : ErrKind) (e : Word) :
    (raise k e s).irqEn = s.irqEn := rfl
@[simp] theorem raise_status (s : State) (k : ErrKind) (e : Word) :
    (raise k e s).status = errorStatus k s.regs.nib s.regs.code := rfl
@[simp] theorem raise_inLen (s : State) (k : ErrKind) (e : Word) :
    (raise k e s).inLen = s.inLen := rfl
@[simp] theorem raise_outCap (s : State) (k : ErrKind) (e : Word) :
    (raise k e s).outCap = s.outCap := rfl
@[simp] theorem raise_resultLen (s : State) (k : ErrKind) (e : Word) :
    (raise k e s).resultLen = 0 := rfl
@[simp] theorem raise_errInfo (s : State) (k : ErrKind) (e : Word) :
    (raise k e s).errInfo = e := rfl
@[simp] theorem raise_inMem (s : State) (k : ErrKind) (e : Word) :
    (raise k e s).inMem = s.inMem := rfl
@[simp] theorem raise_outMem (s : State) (k : ErrKind) (e : Word) :
    (raise k e s).outMem = s.outMem := rfl
@[simp] theorem raise_phase (s : State) (k : ErrKind) (e : Word) :
    (raise k e s).phase = .idle := rfl
@[simp] theorem raise_regs (s : State) (k : ErrKind) (e : Word) :
    (raise k e s).regs = leftRegs s.draws := rfl
@[simp] theorem raise_events (s : State) (k : ErrKind) (e : Word) :
    (raise k e s).events = s.events := rfl
@[simp] theorem raise_replies (s : State) (k : ErrKind) (e : Word) :
    (raise k e s).replies = s.replies := rfl
@[simp] theorem raise_draws (s : State) (k : ErrKind) (e : Word) :
    (raise k e s).draws = s.draws + 1 := rfl
@[simp] theorem raise_epoch (s : State) (k : ErrKind) (e : Word) :
    (raise k e s).epoch = s.epoch := rfl

/-! ### returnOk -/

@[simp] theorem returnOk_params (s : State) : (returnOk s).params = s.params := rfl
@[simp] theorem returnOk_irqEn (s : State) : (returnOk s).irqEn = s.irqEn := rfl
@[simp] theorem returnOk_status (s : State) : (returnOk s).status = okStatus s.regs.code := rfl
@[simp] theorem returnOk_inLen (s : State) : (returnOk s).inLen = s.inLen := rfl
@[simp] theorem returnOk_outCap (s : State) : (returnOk s).outCap = s.outCap := rfl
@[simp] theorem returnOk_resultLen (s : State) :
    (returnOk s).resultLen = BitVec.ofNat 64 s.regs.nout := rfl
@[simp] theorem returnOk_errInfo (s : State) : (returnOk s).errInfo = 0 := rfl
@[simp] theorem returnOk_inMem (s : State) : (returnOk s).inMem = s.inMem := rfl
@[simp] theorem returnOk_outMem (s : State) : (returnOk s).outMem = s.outMem := rfl
@[simp] theorem returnOk_phase (s : State) : (returnOk s).phase = .idle := rfl
@[simp] theorem returnOk_regs (s : State) : (returnOk s).regs = leftRegs s.draws := rfl
@[simp] theorem returnOk_events (s : State) : (returnOk s).events = s.events := rfl
@[simp] theorem returnOk_replies (s : State) : (returnOk s).replies = s.replies := rfl
@[simp] theorem returnOk_draws (s : State) : (returnOk s).draws = s.draws + 1 := rfl
@[simp] theorem returnOk_epoch (s : State) : (returnOk s).epoch = s.epoch := rfl

/-! ### returnOkEmpty -/

@[simp] theorem returnOkEmpty_params (s : State) : (returnOkEmpty s).params = s.params := rfl
@[simp] theorem returnOkEmpty_irqEn (s : State) : (returnOkEmpty s).irqEn = s.irqEn := rfl
@[simp] theorem returnOkEmpty_status (s : State) : (returnOkEmpty s).status = okEmptyStatus := rfl
@[simp] theorem returnOkEmpty_inLen (s : State) : (returnOkEmpty s).inLen = s.inLen := rfl
@[simp] theorem returnOkEmpty_outCap (s : State) : (returnOkEmpty s).outCap = s.outCap := rfl
@[simp] theorem returnOkEmpty_resultLen (s : State) : (returnOkEmpty s).resultLen = 0 := rfl
@[simp] theorem returnOkEmpty_errInfo (s : State) : (returnOkEmpty s).errInfo = 0 := rfl
@[simp] theorem returnOkEmpty_inMem (s : State) : (returnOkEmpty s).inMem = s.inMem := rfl
@[simp] theorem returnOkEmpty_outMem (s : State) : (returnOkEmpty s).outMem = s.outMem := rfl
@[simp] theorem returnOkEmpty_phase (s : State) : (returnOkEmpty s).phase = .idle := rfl
@[simp] theorem returnOkEmpty_regs (s : State) : (returnOkEmpty s).regs = leftRegs s.draws := rfl
@[simp] theorem returnOkEmpty_events (s : State) : (returnOkEmpty s).events = s.events := rfl
@[simp] theorem returnOkEmpty_replies (s : State) : (returnOkEmpty s).replies = s.replies := rfl
@[simp] theorem returnOkEmpty_draws (s : State) : (returnOkEmpty s).draws = s.draws + 1 := rfl
@[simp] theorem returnOkEmpty_epoch (s : State) : (returnOkEmpty s).epoch = s.epoch := rfl

end Sys2Proof.Machine
end

