-- ==== Sys2Proof/Laws/Memory.lean ====
section
/-! SUPPORT. The laws of the memories: reading after a store, the canonical form, and what a store does
to IN and OUT. -/

namespace Sys2Proof.Machine

section Lists

variable {α : Type}

@[simp] theorem Memory.get_nil (a : Nat) : Memory.get ([] : Memory α) a = none := rfl

theorem Memory.get_cons (b : Nat) (v : α) (m : Memory α) (a : Nat) :
    Memory.get ((b, v) :: m) a = if a = b then some v else if a < b then none else Memory.get m a := rfl

theorem Memory.set_cons (b : Nat) (w : α) (m : Memory α) (a : Nat) (v : α) :
    Memory.set ((b, w) :: m) a v =
      if a = b then (a, v) :: m
      else if a < b then (a, v) :: (b, w) :: m else (b, w) :: Memory.set m a v := rfl

theorem Memory.above_cons {lo a : Nat} {v : α} {m : Memory α} :
    Memory.above lo ((a, v) :: m) = true ↔ lo < a ∧ Memory.above a m = true := by
  simp [Memory.above]

/-- Below the bound of a memory nothing is listed. -/
theorem Memory.get_of_above {m : Memory α} {lo a : Nat} (h : Memory.above lo m = true) (ha : a ≤ lo) :
    Memory.get m a = none := by
  cases m with
  | nil => rfl
  | cons c m =>
    obtain ⟨b, v⟩ := c
    rw [Memory.above_cons] at h
    rw [Memory.get_cons, if_neg (by omega), if_pos (by omega)]

/-- A store keeps addresses above a bound. -/
theorem Memory.above_set {m : Memory α} {lo a : Nat} {v : α} (h : Memory.above lo m = true)
    (ha : lo < a) : Memory.above lo (Memory.set m a v) = true := by
  induction m generalizing lo with
  | nil => simp [Memory.set, Memory.above, ha]
  | cons c m ih =>
    obtain ⟨b, w⟩ := c
    rw [Memory.above_cons] at h
    rw [Memory.set_cons]
    split
    · subst_vars; exact Memory.above_cons.2 h
    · split
      · exact Memory.above_cons.2 ⟨ha, Memory.above_cons.2 ⟨by omega, h.2⟩⟩
      · exact Memory.above_cons.2 ⟨h.1, ih h.2 (by omega)⟩

/-- A store keeps the canonical form. -/
theorem Memory.wf_set {m : Memory α} (h : Memory.wf m = true) (a : Nat) (v : α) :
    Memory.wf (Memory.set m a v) = true := by
  cases m with
  | nil => rfl
  | cons c m =>
    obtain ⟨b, w⟩ := c
    rw [Memory.set_cons]
    split
    · subst_vars; exact h
    · split
      · exact (Memory.above_cons (lo := a) (a := b) (v := w) (m := m)).2 ⟨by omega, h⟩
      · exact Memory.above_set h (by omega)

theorem Memory.get_set_of_above {m : Memory α} {lo : Nat} (h : Memory.above lo m = true)
    (a b : Nat) (v : α) :
    Memory.get (Memory.set m a v) b = if b = a then some v else Memory.get m b := by
  induction m generalizing lo with
  | nil => by_cases hb : b = a <;> simp [Memory.set, Memory.get_cons, hb]
  | cons c m ih =>
    obtain ⟨d, w⟩ := c
    rw [Memory.above_cons] at h
    rw [Memory.set_cons]
    split
    · subst_vars
      by_cases hb : b = d <;> simp [Memory.get_cons, hb]
    · split
      · by_cases hb : b = a
        · simp [Memory.get_cons, hb]
        · rw [Memory.get_cons, if_neg hb, if_neg hb]
          split
          · rw [Memory.get_cons, if_neg (by omega), if_pos (by omega)]
          · rfl
      · rename_i hne hlt
        rw [Memory.get_cons, Memory.get_cons, ih h.2]
        by_cases hb : b = a
        · subst hb; simp [hne, hlt]
        · simp [hb]

/-- Reading after a store, in canonical form: the stored value at its address, and what was there before
everywhere else. -/
theorem Memory.get_set {m : Memory α} (h : Memory.wf m = true) (a b : Nat) (v : α) :
    Memory.get (Memory.set m a v) b = if b = a then some v else Memory.get m b := by
  cases m with
  | nil => by_cases hb : b = a <;> simp [Memory.set, Memory.get_cons, hb]
  | cons c m =>
    obtain ⟨d, w⟩ := c
    rw [Memory.set_cons]
    split
    · subst_vars
      by_cases hb : b = d <;> simp [Memory.get_cons, hb]
    · split
      · by_cases hb : b = a
        · simp [Memory.get_cons, hb]
        · rw [Memory.get_cons, if_neg hb, if_neg hb]
          split
          · rw [Memory.get_cons, if_neg (by omega), if_pos (by omega)]
          · rfl
      · rename_i hne hlt
        rw [Memory.get_cons, Memory.get_cons, Memory.get_set_of_above h]
        by_cases hb : b = a
        · subst hb; simp [hne, hlt]
        · simp [hb]

/-- A store below the bound keeps every address below it. -/
theorem Memory.below_set {m : Memory α} {n a : Nat} (h : Memory.below n m = true) (ha : a < n) (v : α) :
    Memory.below n (Memory.set m a v) = true := by
  induction m with
  | nil => simp [Memory.set, Memory.below, ha]
  | cons c m ih =>
    obtain ⟨b, w⟩ := c
    simp only [Memory.below, List.all_cons, Bool.and_eq_true, decide_eq_true_eq] at h ih ⊢
    rw [Memory.set_cons]
    split
    · subst_vars; simpa using h
    · split
      · simpa [ha] using h
      · simpa using ⟨h.1, by simpa using ih h.2⟩

/-- Memories above one bound that list the same are the same. -/
theorem Memory.ext_of_above {m m' : Memory α} {lo lo' : Nat} (h : Memory.above lo m = true)
    (h' : Memory.above lo' m' = true) (hg : ∀ a, Memory.get m a = Memory.get m' a) : m = m' := by
  induction m generalizing m' lo lo' with
  | nil =>
    cases m' with
    | nil => rfl
    | cons c m' =>
      obtain ⟨b, v⟩ := c
      have := hg b
      simp [Memory.get_cons] at this
  | cons c m ih =>
    obtain ⟨b, v⟩ := c
    cases m' with
    | nil =>
      have := hg b
      simp [Memory.get_cons] at this
    | cons c' m' =>
      obtain ⟨b', v'⟩ := c'
      rw [Memory.above_cons] at h h'
      have hb := hg b
      have hb' := hg b'
      simp only [Memory.get_cons, if_true] at hb hb'
      have hbb : b = b' := by
        by_contra hne
        rw [if_neg hne] at hb
        rw [if_neg (Ne.symm hne)] at hb'
        split at hb
        · cases hb
        · rw [if_pos (by omega)] at hb'; cases hb'
      subst hbb
      simp only [if_true, Option.some.injEq] at hb
      subst hb
      congr 1
      refine ih h.2 h'.2 fun a => ?_
      by_cases ha : b < a
      · have := hg a
        simpa [Memory.get_cons, show ¬ a = b by omega, show ¬ a < b by omega] using this
      · rw [Memory.get_of_above h.2 (by omega), Memory.get_of_above h'.2 (by omega)]

end Lists

/-! ### IN and OUT -/

/-- What a read of IN depends on. -/
theorem readIn_congr {s t : State} (hp : t.params = s.params) (hm : t.inMem = s.inMem)
    (he : t.epoch = s.epoch) (p : Nat) : readIn t p = readIn s p := by
  simp [readIn, hp, hm, he]

/-- What a read of OUT depends on. -/
theorem readOut_congr {s t : State} (hp : t.params = s.params) (hm : t.outMem = s.outMem)
    (he : t.epoch = s.epoch) (k : Nat) : readOut t k = readOut s k := by
  simp [readOut, hp, hm, he]

/-- A store to IN: the byte at its offset when IN has it, every other byte as before (R265). -/
theorem readIn_writeIn {s : State} (h : Memory.wf s.inMem = true) (p : Nat) (b : Byte) (q : Nat) :
    readIn (writeIn s p b) q = if q = p ∧ p < s.params.inMax then b else readIn s q := by
  simp only [readIn, writeIn_params, writeIn_inMem, writeIn_epoch]
  by_cases hp : p < s.params.inMax
  · rw [if_pos hp, Memory.get_set h]
    by_cases hq : q = p
    · subst hq; simp [hp]
    · simp [hq]
  · simp [hp]

/-- A store to OUT: the word at its index when OUT has it, every other word as before (R267). -/
theorem readOut_writeOut {s : State} (h : Memory.wf s.outMem = true) (i : Nat) (v : Word) (k : Nat) :
    readOut (writeOut s i v) k = if k = i ∧ i < s.params.outMax then v else readOut s k := by
  simp only [readOut, writeOut_params, writeOut_outMem, writeOut_epoch]
  by_cases hi : i < s.params.outMax
  · rw [if_pos hi, Memory.get_set h]
    by_cases hk : k = i
    · subst hk; simp [hi]
    · simp [hk]
  · simp [hi]

/-- A store to OUT does not change what IN reads. -/
@[simp] theorem readIn_writeOut (s : State) (i : Nat) (v : Word) (p : Nat) :
    readIn (writeOut s i v) p = readIn s p := rfl

/-- A store to OUT keeps its canonical form and its range. -/
theorem writeOut_outMem_wf {s : State} (h : Memory.wf s.outMem = true) (i : Nat) (v : Word) :
    Memory.wf (writeOut s i v).outMem = true := by
  rw [writeOut_outMem]; split
  · exact Memory.wf_set h i v
  · exact h

theorem writeOut_outMem_below {s : State} (h : Memory.below s.params.outMax s.outMem = true) (i : Nat)
    (v : Word) : Memory.below s.params.outMax (writeOut s i v).outMem = true := by
  rw [writeOut_outMem]; split
  · exact Memory.below_set h ‹_› v
  · exact h

theorem writeIn_inMem_wf {s : State} (h : Memory.wf s.inMem = true) (p : Nat) (b : Byte) :
    Memory.wf (writeIn s p b).inMem = true := by
  rw [writeIn_inMem]; split
  · exact Memory.wf_set h p b
  · exact h

theorem writeIn_inMem_below {s : State} (h : Memory.below s.params.inMax s.inMem = true) (p : Nat)
    (b : Byte) : Memory.below s.params.inMax (writeIn s p b).inMem = true := by
  rw [writeIn_inMem]; split
  · exact Memory.below_set h ‹_› b
  · exact h

/-- The state right after reset lists nothing, so its memories are in canonical form. -/
theorem reset_memories_wf :
    Memory.wf State.reset.inMem = true ∧ Memory.wf State.reset.outMem = true := ⟨rfl, rfl⟩

end Sys2Proof.Machine
end

