-- ==== Sys2Proof/Laws/Run.lean ====
section
/-! SUPPORT. The core's phases, one lemma a phase that says once everything the phase can do, and the
laws of running them one after another. -/

namespace Sys2Proof.Machine

/-! ### Admission (R143) -/

/-- An admitted unpacker is not refused. -/
theorem Unpacker.ifAdmitted_of {u : Unpacker} (h : u.Admitted) (d : Decidable u.Admitted)
    (o : Host.Outcome State Fault Refusal) : u.ifAdmitted d o = o := by
  cases d with
  | isTrue _ => rfl
  | isFalse hn => exact absurd h hn

/-- Any other is, by name. -/
theorem Unpacker.ifAdmitted_of_not {u : Unpacker} (h : ¬ u.Admitted) (d : Decidable u.Admitted)
    (o : Host.Outcome State Fault Refusal) : u.ifAdmitted d o = .refused .unpackerNotAdmitted := by
  cases d with
  | isTrue hy => exact absurd hy h
  | isFalse _ => rfl

/-- The configured unpacker is admitted (assumption 5). -/
theorem unpacker_admitted : unpacker.Admitted := Unpacker.paired_admitted _ _

/-- An admitted unpacker counts what the lists hold (R142). -/
theorem Unpacker.Admitted.count_toOption {u : Unpacker} (h : u.Admitted) (bs : List Byte) :
    (u.count bs).toOption = (u.lists (wordsOf bs)).map List.length := h.2.2 bs

theorem Unpacker.Admitted.count_ok {u : Unpacker} (h : u.Admitted) {bs : List Byte} {vs : List Word}
    (hv : u.lists (wordsOf bs) = some vs) : u.count bs = .ok vs.length := by
  have h := h.count_toOption bs
  rw [hv] at h
  cases hc : u.count bs <;> rw [hc] at h <;> simp_all [Answer.toOption]

/-- What an admitted unpacker counted, its words' lists hold (R142 point 2). -/
theorem Unpacker.Admitted.lists_of_count {u : Unpacker} (h : u.Admitted) {bs : List Byte} {n : Nat}
    (hn : u.count bs = .ok n) : ∃ vs, u.lists (wordsOf bs) = some vs ∧ vs.length = n := by
  have h := h.count_toOption bs
  rw [hn] at h
  cases hv : u.lists (wordsOf bs) with
  | none => rw [hv] at h; cases h
  | some vs => rw [hv] at h; exact ⟨vs, rfl, (Option.some.inj h).symm⟩

/-! ### Running phases -/

@[simp] theorem runPhases_zero (u : Unpacker) (s : State) : runPhases u 0 s = s := rfl

/-- An idle core stays as it is, however many phases it may take. -/
theorem runPhases_idle {u : Unpacker} {s : State} (h : s.phase = .idle) (n : Nat) :
    runPhases u n s = s := by
  cases n with
  | zero => rfl
  | succ n => rw [runPhases, if_pos h]

/-- One phase, then the rest. -/
theorem runPhases_step {u : Unpacker} {s t : State} (h : s.phase ≠ .idle) (hs : phaseStep u s = t)
    (n : Nat) : runPhases u (n + 1) s = runPhases u n t := by
  rw [runPhases, if_neg h, hs]

/-- Once the operation has completed, more phases change nothing. -/
theorem runPhases_mono {u : Unpacker} {n m : Nat} {s t : State} (h : runPhases u n s = t)
    (ht : t.phase = .idle) (hm : n ≤ m) : runPhases u m s = t := by
  induction n generalizing m s with
  | zero =>
    rw [runPhases_zero] at h
    subst h
    exact runPhases_idle ht m
  | succ n ih =>
    obtain ⟨m, rfl⟩ : ∃ k, m = k + 1 := ⟨m - 1, by omega⟩
    rw [runPhases] at h ⊢
    split at h
    · rw [if_pos ‹_›]; exact h
    · rw [if_neg ‹_›]; exact ih h (by omega)

/-- What every phase keeps, a run of phases keeps. -/
theorem runPhases_keeps {u : Unpacker} {P : State → Prop} (hstep : ∀ s, P s → P (phaseStep u s)) {n : Nat}
    {s : State} (hs : P s) : P (runPhases u n s) := by
  induction n generalizing s with
  | zero => exact hs
  | succ n ih =>
    rw [runPhases]
    split
    · exact hs
    · exact ih (hstep s hs)

/-! ### What lies outside the operation -/

theorem sameOutside_refl (s : State) : sameOutside s s := ⟨rfl, rfl, rfl, rfl, rfl, rfl, rfl, rfl⟩

theorem sameOutside_trans {s t v : State} (h : sameOutside s t) (h' : sameOutside t v) :
    sameOutside s v := by
  obtain ⟨a, b, c, d, e, f, g, i⟩ := h
  obtain ⟨a', b', c', d', e', f', g', i'⟩ := h'
  exact ⟨a'.trans a, b'.trans b, c'.trans c, d'.trans d, e'.trans e, f'.trans f, g'.trans g, i'.trans i⟩

/-- Two states with the same outside read the same bytes from IN. -/
theorem sameOutside_readIn {s t : State} (h : sameOutside s t) (p : Nat) : readIn t p = readIn s p :=
  readIn_congr h.1 h.2.2.2.2.1 h.2.2.2.2.2.2.2 p

theorem complete_outside (f : Status) (l e : Word) (s : State) : sameOutside s (complete f l e s) :=
  ⟨rfl, rfl, rfl, rfl, rfl, rfl, rfl, rfl⟩

theorem raise_outside (k : ErrKind) (e : Word) (s : State) : sameOutside s (raise k e s) :=
  complete_outside _ _ _ _

theorem returnOk_outside (s : State) : sameOutside s (returnOk s) := complete_outside _ _ _ _

theorem writeOut_outside (s : State) (i : Nat) (v : Word) : sameOutside s (writeOut s i v) :=
  ⟨rfl, rfl, rfl, rfl, rfl, rfl, rfl, rfl⟩

theorem rawElementStep_outside (s : State) : sameOutside s (rawElementStep s) :=
  ⟨rfl, rfl, rfl, rfl, rfl, rfl, rfl, rfl⟩

theorem rleElementStep_outside (s : State) : sameOutside s (rleElementStep s) := by
  unfold rleElementStep
  split <;> exact ⟨rfl, rfl, rfl, rfl, rfl, rfl, rfl, rfl⟩

theorem pkValueStep_outside (s : State) (v : Word) : sameOutside s (pkValueStep s v) :=
  ⟨rfl, rfl, rfl, rfl, rfl, rfl, rfl, rfl⟩

theorem pkValues_outside (vs : List Word) (s : State) : sameOutside s (vs.foldl pkValueStep s) := by
  induction vs generalizing s with
  | nil => exact sameOutside_refl s
  | cons v vs ih => exact sameOutside_trans (pkValueStep_outside s v) (ih _)

/-- No phase changes anything outside the operation. -/
theorem phaseStep_outside (u : Unpacker) (s : State) : sameOutside s (phaseStep u s) := by
  unfold phaseStep
  split
  · exact sameOutside_refl s
  · exact sameOutside_refl s
  · unfold rawLoopPhase; split
    · exact rawElementStep_outside s
    · exact sameOutside_refl s
  · unfold pkFirstPhase; split
    · exact raise_outside _ _ _
    · exact sameOutside_refl s
  · unfold pkCountPhase; split
    · exact raise_outside _ _ _
    · unfold pkSize; split
      · exact raise_outside _ _ _
      · exact ⟨rfl, rfl, rfl, rfl, rfl, rfl, rfl, rfl⟩
  · unfold pkLoopPhase; split
    · split
      · exact raise_outside _ _ _
      · exact sameOutside_trans (t := advance s 8) ⟨rfl, rfl, rfl, rfl, rfl, rfl, rfl, rfl⟩
          (pkValues_outside _ _)
    · exact sameOutside_refl s
  · unfold rleFirstPhase; split
    · exact raise_outside _ _ _
    · exact sameOutside_refl s
  · unfold rleDeltaPhase; split
    · exact raise_outside _ _ _
    · exact sameOutside_refl s
  · unfold rleCountPhase; split
    · exact raise_outside _ _ _
    · unfold rleSize; split
      · exact raise_outside _ _ _
      · exact sameOutside_refl s
  · unfold rleFillPhase; split
    · exact rleElementStep_outside s
    · exact sameOutside_refl s
  · exact returnOk_outside s

/-- No run of phases changes anything outside the operation. -/
theorem runPhases_outside (u : Unpacker) (n : Nat) (s : State) : sameOutside s (runPhases u n s) :=
  runPhases_keeps (P := fun t => sameOutside s t)
    (fun _ hs => sameOutside_trans hs (phaseStep_outside u _)) (sameOutside_refl s)

end Sys2Proof.Machine
end

