-- ==== Sys2Proof/Laws/Cases.lean ====
section
/-! SUPPORT. For each shared operation that branches, one lemma that says once everything it can do, the
guard of each branch included. -/

namespace Sys2Proof.Machine

/-! ### The checks and the phases of the strategies -/

theorem rawSize_cases (s : State) :
    (payloadLen s % 8 ≠ 0 ∧
      rawSize s = raise .malformedLength (BitVec.ofNat 64 (payloadLen s)) s) ∨
    (payloadLen s % 8 = 0 ∧ s.regs.cap < payloadLen s / 8 ∧
      rawSize s = raise .capacityExceeded (satWord (payloadLen s / 8)) s) ∨
    (payloadLen s % 8 = 0 ∧ payloadLen s / 8 ≤ s.regs.cap ∧
      rawSize s =
        { s with
          phase := .rawLoop,
          regs := { s.regs with nout := payloadLen s / 8, acc := 0, idx := 0 } }) := by
  unfold rawSize
  split
  · exact .inl ⟨‹_›, rfl⟩
  · split
    · exact .inr (.inl ⟨not_not.1 ‹_›, ‹_›, rfl⟩)
    · exact .inr (.inr ⟨not_not.1 ‹_›, not_lt.1 ‹_›, rfl⟩)

theorem rawLoopPhase_cases (s : State) :
    (s.regs.idx < s.regs.nout ∧ rawLoopPhase s = rawElementStep s) ∨
    (s.regs.nout ≤ s.regs.idx ∧ rawLoopPhase s = { s with phase := .finish }) := by
  unfold rawLoopPhase
  split
  · exact .inl ⟨‹_›, rfl⟩
  · exact .inr ⟨not_lt.1 ‹_›, rfl⟩

theorem pkFirstPhase_cases (s : State) :
    (payloadLen s < 8 ∧ pkFirstPhase s = raise .tooShort (BitVec.ofNat 64 (payloadLen s)) s) ∨
    (8 ≤ payloadLen s ∧
      pkFirstPhase s =
        { s with
          phase := .pkCount,
          regs := { s.regs with first := zigzag (readFixed s), pos := s.regs.pos + 8 } }) := by
  unfold pkFirstPhase
  split
  · exact .inl ⟨‹_›, rfl⟩
  · exact .inr ⟨not_lt.1 ‹_›, rfl⟩

theorem pkSize_cases (n : Nat) (s : State) :
    (s.regs.cap < 1 + n ∧ pkSize n s = raise .capacityExceeded (satWord (1 + n)) s) ∨
    (1 + n ≤ s.regs.cap ∧
      pkSize n s =
        writeOut
          { s with
            phase := .pkLoop,
            regs := { s.regs with nout := 1 + n, acc := s.regs.first, idx := 1 } }
          0 s.regs.first) := by
  unfold pkSize
  split
  · exact .inl ⟨‹_›, rfl⟩
  · exact .inr ⟨not_lt.1 ‹_›, rfl⟩

theorem pkCountPhase_cases (u : Unpacker) (s : State) :
    (∃ d, u.count (countBytes s) = .err d ∧ pkCountPhase u s = raise .invalidPackedWord d s) ∨
    ∃ n, u.count (countBytes s) = .ok n ∧ pkCountPhase u s = pkSize n s := by
  unfold pkCountPhase
  split
  · exact .inl ⟨_, ‹_›, rfl⟩
  · exact .inr ⟨_, ‹_›, rfl⟩

theorem pkLoopPhase_cases (u : Unpacker) (s : State) :
    (s.regs.len < s.regs.pos + 8 ∧ pkLoopPhase u s = { s with phase := .finish }) ∨
    (s.regs.pos + 8 ≤ s.regs.len ∧
      ((∃ d, u.unpack (readFixed s) = .err d ∧
          pkLoopPhase u s = raise .invalidPackedWord d s) ∨
        ∃ vs, u.unpack (readFixed s) = .ok vs ∧
          pkLoopPhase u s = vs.foldl pkValueStep (advance s 8))) := by
  unfold pkLoopPhase
  split
  · refine .inr ⟨‹_›, ?_⟩
    split
    · exact .inl ⟨_, ‹_›, rfl⟩
    · exact .inr ⟨_, ‹_›, rfl⟩
  · exact .inl ⟨not_le.1 ‹_›, rfl⟩

theorem rleFirstPhase_cases (s : State) :
    (payloadLen s < 8 ∧ rleFirstPhase s = raise .tooShort (BitVec.ofNat 64 (payloadLen s)) s) ∨
    (8 ≤ payloadLen s ∧
      rleFirstPhase s =
        { s with
          phase := .rleDelta,
          regs := { s.regs with first := zigzag (readFixed s), pos := s.regs.pos + 8 } }) := by
  unfold rleFirstPhase
  split
  · exact .inl ⟨‹_›, rfl⟩
  · exact .inr ⟨not_lt.1 ‹_›, rfl⟩

theorem rleDeltaPhase_cases (s : State) :
    (readUvarint s = none ∧ rleDeltaPhase s = raise .malformedVarint 0 s) ∨
    ∃ v n, readUvarint s = some (v, n) ∧
      rleDeltaPhase s =
        { s with
          phase := .rleCount,
          regs := { s.regs with delta := zigzag v, pos := s.regs.pos + n } } := by
  unfold rleDeltaPhase
  split
  · exact .inl ⟨‹_›, rfl⟩
  · exact .inr ⟨_, _, ‹_›, rfl⟩

theorem rleSize_cases (count n : Nat) (s : State) :
    (s.regs.cap < count + 1 ∧
      rleSize count n s = raise .capacityExceeded (satWord (count + 1)) s) ∨
    (count + 1 ≤ s.regs.cap ∧
      rleSize count n s =
        { s with
          phase := .rleFill,
          regs := { s.regs with
            nout := count + 1, acc := s.regs.first, idx := 0, pos := s.regs.pos + n } }) := by
  unfold rleSize
  split
  · exact .inl ⟨‹_›, rfl⟩
  · exact .inr ⟨not_lt.1 ‹_›, rfl⟩

theorem rleCountPhase_cases (s : State) :
    (readUvarint s = none ∧ rleCountPhase s = raise .malformedVarint 1 s) ∨
    ∃ v n, readUvarint s = some (v, n) ∧ rleCountPhase s = rleSize v.toNat n s := by
  unfold rleCountPhase
  split
  · exact .inl ⟨‹_›, rfl⟩
  · exact .inr ⟨_, _, ‹_›, rfl⟩

theorem rleElementStep_cases (s : State) :
    (s.regs.delta = 0 ∧
      rleElementStep s =
        writeOut { s with regs := { s.regs with idx := s.regs.idx + 1 } } s.regs.idx s.regs.first) ∨
    (s.regs.delta ≠ 0 ∧
      rleElementStep s =
        writeOut
          { s with
            regs := { s.regs with acc := s.regs.acc + s.regs.delta, idx := s.regs.idx + 1 } }
          s.regs.idx s.regs.acc) := by
  unfold rleElementStep
  split
  · exact .inl ⟨‹_›, rfl⟩
  · exact .inr ⟨‹_›, rfl⟩

theorem rleFillPhase_cases (s : State) :
    (s.regs.idx < s.regs.nout ∧ rleFillPhase s = rleElementStep s) ∨
    (s.regs.nout ≤ s.regs.idx ∧ rleFillPhase s = { s with phase := .finish }) := by
  unfold rleFillPhase
  split
  · exact .inl ⟨‹_›, rfl⟩
  · exact .inr ⟨not_lt.1 ‹_›, rfl⟩

/-! ### The host's commands -/

theorem ctrlWrite_cases (v : Word) (s : State) :
    (s.status.busy = true ∧ ctrlWrite v s = { s with irqEn := v.getLsbD 2 }) ∨
    (s.status.busy = false ∧ v.getLsbD 0 = true ∧
      ctrlWrite v s = startOperation { s with irqEn := v.getLsbD 2 }) ∨
    (s.status.busy = false ∧ v.getLsbD 0 = false ∧ v.getLsbD 1 = true ∧
      ctrlWrite v s = clearDone { s with irqEn := v.getLsbD 2 }) ∨
    (s.status.busy = false ∧ v.getLsbD 0 = false ∧ v.getLsbD 1 = false ∧
      ctrlWrite v s = { s with irqEn := v.getLsbD 2 }) := by
  unfold ctrlWrite
  cases hb : s.status.busy <;> cases h0 : v.getLsbD 0 <;> cases h1 : v.getLsbD 1 <;> simp [hb]

/-- A CTRL write, an IN_LEN write, an OUT_CAP write, or a write that is ignored. -/
theorem regWrite_cases (n : Nat) (v : Word) (s : State) :
    (n = 0 ∧ regWrite n v s = ctrlWrite v s) ∨
    (n = 2 ∧ s.status.busy = false ∧ regWrite n v s = { s with inLen := v }) ∨
    (n = 3 ∧ s.status.busy = false ∧ regWrite n v s = { s with outCap := v }) ∨
    (n ≠ 0 ∧ (s.status.busy = false → n ≠ 2 ∧ n ≠ 3) ∧ regWrite n v s = s) := by
  cases hb : s.status.busy <;> match n with
    | 0 => simp [regWrite]
    | 1 => simp [regWrite]
    | 2 => simp [regWrite, hb]
    | 3 => simp [regWrite, hb]
    | n + 4 => simp [regWrite]

/-- A read of OUT changes the replies, and while busy the count of draws. -/
theorem outRead_cases (i : Nat) (s : State) :
    ((s.status.busy = false ∨ s.params.outMax ≤ i) ∧
      outRead i s = { s with replies := s.replies ++ [.outWord i (readOut s i)] }) ∨
    (s.status.busy = true ∧ i < s.params.outMax ∧
      outRead i s =
        { s with
          replies := s.replies ++ [.outWord i (Config.busyOutRead s.draws)],
          draws := s.draws + 1 }) := by
  unfold outRead
  split
  · exact .inr ⟨(‹_ ∧ _› : s.status.busy = true ∧ i < s.params.outMax).1,
      (‹_ ∧ _› : s.status.busy = true ∧ i < s.params.outMax).2, rfl⟩
  · rename_i h
    refine .inl ⟨?_, rfl⟩
    by_cases hb : s.status.busy = true
    · exact .inr (not_lt.1 fun hi => h ⟨hb, hi⟩)
    · exact .inl (by simpa using hb)

/-- The one fault of a host command is the hazard: a store to IN or OUT while BUSY = 1 (R344). -/
theorem hostCommand_fault {c : HostCmd} {s : State} {f : Fault} (h : hostCommand c s = .fault f) :
    f = .hostHazard ∧ s.status.busy = true ∧
      ((∃ p b, c = .inWrite p b) ∨ ∃ i v, c = .outWrite i v) := by
  cases c with
  | inWrite p b =>
    simp only [hostCommand] at h
    split at h
    · cases h; exact ⟨rfl, ‹_›, .inl ⟨p, b, rfl⟩⟩
    · cases h
  | outWrite i v =>
    simp only [hostCommand] at h
    split at h
    · cases h; exact ⟨rfl, ‹_›, .inr ⟨i, v, rfl⟩⟩
    · cases h
  | regRead n => cases h
  | regWrite n v => cases h
  | inRead p => cases h
  | outRead i => cases h

/-! ### The core -/

/-- The meaning of each instruction over the configured unpacker is `exec`'s. -/
theorem execWith_configured (i : Instr) (s : State) :
    execWith unpacker unpackerDecision i s = exec i s := by cases i <;> rfl

/-- The core of the machine runs the meanings of `exec`. -/
theorem runCore_eq (s : State) :
    runCore s =
      if s.status.busy then
        if s.phase = .header then
          if s.params.inMax < s.regs.len then .next (raiseInputRange s) else exec (fetchInstr s) s
        else .next (runOp unpacker s)
      else .next s := by
  rw [← execWith_configured]
  rfl

theorem phaseCore_eq (s : State) :
    phaseCore s =
      if s.status.busy then
        if s.phase = .header then
          if s.params.inMax < s.regs.len then .next (raiseInputRange s)
          else .next (enter (fetchInstr s) s)
        else .next (phaseStep unpacker s)
      else .next s := rfl

/-- The machine's own unpacker is admitted, so its step is the next event or the core's. -/
theorem step_eq (s : State) :
    step s =
      match s.events with
      | [] => runCore s
      | e :: es => runEvent e { s with events := es } := rfl

theorem runCore_cases (s : State) :
    (s.status.busy = false ∧ runCore s = .next s) ∨
    (s.status.busy = true ∧ s.phase = .header ∧ s.params.inMax < s.regs.len ∧
      runCore s = .next (raiseInputRange s)) ∨
    (s.status.busy = true ∧ s.phase = .header ∧ s.regs.len ≤ s.params.inMax ∧
      runCore s = exec (fetchInstr s) s) ∨
    (s.status.busy = true ∧ s.phase ≠ .header ∧ runCore s = .next (runOp unpacker s)) := by
  rw [runCore_eq]
  split
  · split
    · split
      · exact .inr (.inl ⟨‹_›, ‹_›, ‹_›, rfl⟩)
      · exact .inr (.inr (.inl ⟨‹_›, ‹_›, not_lt.1 ‹_›, rfl⟩))
    · exact .inr (.inr (.inr ⟨‹_›, ‹_›, rfl⟩))
  · exact .inl ⟨by simpa using ‹¬ s.status.busy = true›, rfl⟩

theorem phaseCore_cases (s : State) :
    (s.status.busy = false ∧ phaseCore s = .next s) ∨
    (s.status.busy = true ∧ s.phase = .header ∧ s.params.inMax < s.regs.len ∧
      phaseCore s = .next (raiseInputRange s)) ∨
    (s.status.busy = true ∧ s.phase = .header ∧ s.regs.len ≤ s.params.inMax ∧
      phaseCore s = .next (enter (fetchInstr s) s)) ∨
    (s.status.busy = true ∧ s.phase ≠ .header ∧ phaseCore s = .next (phaseStep unpacker s)) := by
  rw [phaseCore_eq]
  split
  · split
    · split
      · exact .inr (.inl ⟨‹_›, ‹_›, ‹_›, rfl⟩)
      · exact .inr (.inr (.inl ⟨‹_›, ‹_›, not_lt.1 ‹_›, rfl⟩))
    · exact .inr (.inr (.inr ⟨‹_›, ‹_›, rfl⟩))
  · exact .inl ⟨by simpa using ‹¬ s.status.busy = true›, rfl⟩

end Sys2Proof.Machine
end

