-- ==== Sys2Proof/Laws/Loops.lean ====
section
/-! SUPPORT. The three loops of the core run to their end: what the registers and OUT hold after any
number of elements, and the completion that follows. -/

namespace Sys2Proof.Machine

/-! ### Raw -/

/-- ACC after `k` more elements of the Raw loop. -/
def rawAcc (s : State) : Nat → Word
  | 0 => s.regs.acc
  | k + 1 => accumulate (rawAcc s k) (fixedAt s (s.regs.pos + 8 * k))

/-- What `fixedAt` depends on. -/
theorem fixedAt_congr {s t : State} (h : ∀ p, readIn t p = readIn s p) (p : Nat) :
    fixedAt t p = fixedAt s p := by simp [fixedAt, h]

/-- What `bytesAt` depends on: the bytes of its range. -/
theorem bytesAt_congr {s t : State} {p n : Nat} (h : ∀ q, p ≤ q → q < p + n → readIn t q = readIn s q) :
    bytesAt t p n = bytesAt s p n := by
  induction n generalizing p with
  | zero => rfl
  | succ n ih =>
    rw [bytesAt, bytesAt, h p (by omega) (by omega), ih fun q h1 h2 => h q (by omega) (by omega)]

theorem rawElements_outside (s : State) (k : Nat) : sameOutside s (rawElementStep^[k] s) := by
  induction k with
  | zero => exact sameOutside_refl s
  | succ k ih =>
    rw [Function.iterate_succ_apply']
    exact sameOutside_trans ih (rawElementStep_outside _)

theorem rawElements_phase (s : State) (k : Nat) : (rawElementStep^[k] s).phase = s.phase := by
  induction k with
  | zero => rfl
  | succ k ih => rw [Function.iterate_succ_apply']; exact ih

theorem rawElements_draws (s : State) (k : Nat) : (rawElementStep^[k] s).draws = s.draws := by
  induction k with
  | zero => rfl
  | succ k ih => rw [Function.iterate_succ_apply']; exact ih

/-- The registers after `k` elements of the Raw loop. -/
theorem rawElements_regs (s : State) (k : Nat) :
    (rawElementStep^[k] s).regs =
      { s.regs with
        pos := s.regs.pos + 8 * k, acc := rawAcc s k, idx := s.regs.idx + k } := by
  induction k with
  | zero => rfl
  | succ k ih =>
    rw [Function.iterate_succ_apply']
    have hf : fixedAt (rawElementStep^[k] s) (s.regs.pos + 8 * k) =
        fixedAt s (s.regs.pos + 8 * k) :=
      fixedAt_congr (sameOutside_readIn (rawElements_outside s k)) _
    simp only [rawElementStep, writeOut_regs, readFixed, ih, hf, rawAcc]
    congr 1

/-- OUT after `k` elements of the Raw loop. -/
theorem rawElements_out {s : State} (h : Memory.wf s.outMem = true) (k : Nat) :
    Memory.wf (rawElementStep^[k] s).outMem = true ∧
    ∀ j, readOut (rawElementStep^[k] s) j =
      if s.regs.idx ≤ j ∧ j < s.regs.idx + k ∧ j < s.params.outMax
        then rawAcc s (j - s.regs.idx + 1) else readOut s j := by
  induction k with
  | zero => exact ⟨h, fun j => by rw [if_neg (by omega)]; rfl⟩
  | succ k ih =>
    rw [Function.iterate_succ_apply']
    have hr := rawElements_regs s k
    have hf : fixedAt (rawElementStep^[k] s) (s.regs.pos + 8 * k) =
        fixedAt s (s.regs.pos + 8 * k) :=
      fixedAt_congr (sameOutside_readIn (rawElements_outside s k)) _
    have hp : (rawElementStep^[k] s).params = s.params := (rawElements_outside s k).1
    obtain ⟨hwf, hout⟩ := ih
    refine ⟨writeOut_outMem_wf (by exact hwf) _ _, fun j => ?_⟩
    rw [rawElementStep, readOut_writeOut (by exact hwf)]
    simp only [readFixed, hr, hf, hp]
    by_cases hj : j = s.regs.idx + k ∧ s.regs.idx + k < s.params.outMax
    · obtain ⟨rfl, hj⟩ := hj
      rw [if_pos ⟨rfl, hj⟩, if_pos ⟨by omega, by omega, hj⟩, Nat.add_sub_cancel_left]
      rfl
    · refine (if_neg hj).trans ?_
      refine (readOut_congr (s := rawElementStep^[k] s) (by exact hp.symm) (by rfl) (by rfl) j).trans ?_
      rw [hout j]
      by_cases hjk : s.regs.idx ≤ j ∧ j < s.regs.idx + k ∧ j < s.params.outMax
      · rw [if_pos hjk, if_pos (by omega)]
      · rw [if_neg hjk, if_neg (by omega)]

/-- The Raw loop, from any of its elements to the completion (R170). -/
theorem rawLoop_run (u : Unpacker) {s : State} {k : Nat} (hp : s.phase = .rawLoop)
    (hk : s.regs.nout = s.regs.idx + k) :
    runPhases u (k + 2) s = returnOk (rawElementStep^[k] s) := by
  induction k generalizing s with
  | zero =>
    rw [runPhases_step (t := { s with phase := .finish }) (by simp [hp])
        (by simp [phaseStep, hp, rawLoopPhase, hk]),
      runPhases_step (t := returnOk { s with phase := .finish }) (by simp) (by simp [phaseStep])]
    rfl
  | succ k ih =>
    rw [runPhases_step (t := rawElementStep s) (by simp [hp])
        (by simp only [phaseStep, hp, rawLoopPhase]; rw [if_pos (by omega)]),
      ih (s := rawElementStep s) (by exact hp)
        (by simp only [rawElementStep, writeOut_regs]; omega)]
    rfl

/-! ### Run-Length -/

theorem rleElements_outside (s : State) (k : Nat) : sameOutside s (rleElementStep^[k] s) := by
  induction k with
  | zero => exact sameOutside_refl s
  | succ k ih =>
    rw [Function.iterate_succ_apply']
    exact sameOutside_trans ih (rleElementStep_outside _)

/-- ACC after `k` more elements of the run: it grows only when DELTA is not 0 (R227, R228). -/
def rleAcc (s : State) (k : Nat) : Word :=
  if s.regs.delta = 0 then s.regs.acc else s.regs.acc + BitVec.ofNat 64 k * s.regs.delta

/-- The element the run writes after `k` others. -/
def rleElementAt (s : State) (k : Nat) : Word := if s.regs.delta = 0 then s.regs.first else rleAcc s k

theorem rleElementStep_regs (s : State) :
    (rleElementStep s).regs =
      { s.regs with
        acc := if s.regs.delta = 0 then s.regs.acc else s.regs.acc + s.regs.delta,
        idx := s.regs.idx + 1 } := by
  unfold rleElementStep
  split <;> simp_all

/-- The registers after `k` elements of the run. -/
theorem rleElements_regs (s : State) (k : Nat) :
    (rleElementStep^[k] s).regs =
      { s.regs with acc := rleAcc s k, idx := s.regs.idx + k } := by
  induction k with
  | zero => simp [rleAcc]
  | succ k ih =>
    rw [Function.iterate_succ_apply', rleElementStep_regs, ih]
    simp only [rleAcc]
    split
    · rfl
    · congr 1
      rw [BitVec.ofNat_add, BitVec.add_mul, BitVec.add_assoc]
      simp

/-- One element of the run is one store. -/
theorem rleElementStep_outMem (s : State) :
    (rleElementStep s).outMem = (writeOut s s.regs.idx (rleElementAt s 0)).outMem := by
  unfold rleElementStep rleElementAt rleAcc
  by_cases h : s.regs.delta = 0
  · rw [if_pos h, if_pos h]; rfl
  · rw [if_neg h, if_neg h, if_neg h, BitVec.zero_mul, BitVec.add_zero]; rfl

/-- OUT after `k` elements of the run. -/
theorem rleElements_out {s : State} (h : Memory.wf s.outMem = true) (k : Nat) :
    Memory.wf (rleElementStep^[k] s).outMem = true ∧
    ∀ j, readOut (rleElementStep^[k] s) j =
      if s.regs.idx ≤ j ∧ j < s.regs.idx + k ∧ j < s.params.outMax
        then rleElementAt s (j - s.regs.idx) else readOut s j := by
  induction k with
  | zero => exact ⟨h, fun j => by rw [if_neg (by omega)]; rfl⟩
  | succ k ih =>
    rw [Function.iterate_succ_apply']
    have hr := rleElements_regs s k
    have hp : (rleElementStep^[k] s).params = s.params := (rleElements_outside s k).1
    have ho := rleElementStep_outside (rleElementStep^[k] s)
    obtain ⟨hwf, hout⟩ := ih
    refine ⟨rleElementStep_outMem _ ▸ writeOut_outMem_wf hwf _ _, fun j => ?_⟩
    rw [readOut_congr (s := writeOut (rleElementStep^[k] s) _ _) ho.1 (rleElementStep_outMem _)
      ho.2.2.2.2.2.2.2, readOut_writeOut hwf, hp]
    have he : rleElementAt (rleElementStep^[k] s) 0 = rleElementAt s k := by
      simp [rleElementAt, rleAcc, hr]
    rw [he]
    simp only [hr]
    by_cases hj : j = s.regs.idx + k ∧ s.regs.idx + k < s.params.outMax
    · obtain ⟨rfl, hj⟩ := hj
      rw [if_pos ⟨rfl, hj⟩, if_pos ⟨by omega, by omega, hj⟩, Nat.add_sub_cancel_left]
    · rw [if_neg hj]
      refine (hout j).trans ?_
      by_cases hjk : s.regs.idx ≤ j ∧ j < s.regs.idx + k ∧ j < s.params.outMax
      · rw [if_pos hjk, if_pos (by omega)]
      · rw [if_neg hjk, if_neg (by omega)]

theorem rleElementStep_phase (s : State) : (rleElementStep s).phase = s.phase := by
  unfold rleElementStep
  split <;> rfl

/-- The run, from any of its elements to the completion (R220). -/
theorem rleFill_run (u : Unpacker) {s : State} {k : Nat} (hp : s.phase = .rleFill)
    (hk : s.regs.nout = s.regs.idx + k) :
    runPhases u (k + 2) s = returnOk (rleElementStep^[k] s) := by
  induction k generalizing s with
  | zero =>
    rw [runPhases_step (t := { s with phase := .finish }) (by simp [hp])
        (by simp [phaseStep, hp, rleFillPhase, hk]),
      runPhases_step (t := returnOk { s with phase := .finish }) (by simp) (by simp [phaseStep])]
    rfl
  | succ k ih =>
    rw [runPhases_step (t := rleElementStep s) (by simp [hp])
        (by simp only [phaseStep, hp, rleFillPhase]; rw [if_pos (by omega)]),
      ih (s := rleElementStep s) (by rw [rleElementStep_phase]; exact hp)
        (by simp only [rleElementStep_regs]; omega)]
    rfl

/-! ### Packed-Delta -/

/-- The registers after a list of unpacked values. -/
theorem pkValues_regs (vs : List Word) (s : State) :
    (vs.foldl pkValueStep s).regs =
      { s.regs with acc := vs.foldl accumulate s.regs.acc, idx := s.regs.idx + vs.length } := by
  induction vs generalizing s with
  | nil => rfl
  | cons v vs ih =>
    rw [List.foldl_cons, ih]
    simp only [pkValueStep, writeOut_regs, List.foldl_cons, List.length_cons]
    congr 1
    omega

theorem pkValues_phase (vs : List Word) (s : State) : (vs.foldl pkValueStep s).phase = s.phase := by
  induction vs generalizing s with
  | nil => rfl
  | cons v vs ih => rw [List.foldl_cons, ih]; rfl

/-- Moving POS twice is moving it once. -/
theorem advance_advance (s : State) (j k : Nat) : advance (advance s j) k = advance s (j + k) := by
  simp only [advance]
  congr 2
  omega

/-- Moving POS and writing values do not depend on each other. -/
theorem pkValues_advance (vs : List Word) (s : State) (k : Nat) :
    vs.foldl pkValueStep (advance s k) = advance (vs.foldl pkValueStep s) k := by
  induction vs generalizing s with
  | nil => rfl
  | cons v vs ih =>
    rw [List.foldl_cons, List.foldl_cons, ← ih]
    rfl

/-- OUT after a list of unpacked values. -/
theorem pkValues_out (vs : List Word) {s : State} (h : Memory.wf s.outMem = true) :
    Memory.wf (vs.foldl pkValueStep s).outMem = true ∧
    ∀ j, readOut (vs.foldl pkValueStep s) j =
      if s.regs.idx ≤ j ∧ j < s.regs.idx + vs.length ∧ j < s.params.outMax
        then (vs.take (j - s.regs.idx + 1)).foldl accumulate s.regs.acc else readOut s j := by
  induction vs generalizing s with
  | nil => exact ⟨h, fun j => by rw [if_neg (by simp only [List.length_nil]; omega)]; rfl⟩
  | cons v vs ih =>
    rw [List.foldl_cons]
    have hw : Memory.wf (pkValueStep s v).outMem = true := writeOut_outMem_wf (by exact h) _ _
    obtain ⟨h1, h2⟩ := ih hw
    refine ⟨h1, fun j => ?_⟩
    rw [h2]
    have hr : (pkValueStep s v).regs =
        { s.regs with acc := accumulate s.regs.acc v, idx := s.regs.idx + 1 } := rfl
    have hp : (pkValueStep s v).params = s.params := rfl
    simp only [hr, hp, List.length_cons]
    by_cases hj : s.regs.idx + 1 ≤ j ∧ j < s.regs.idx + 1 + vs.length ∧ j < s.params.outMax
    · rw [if_pos hj, if_pos (by omega)]
      obtain ⟨m, hm⟩ : ∃ m, j - s.regs.idx = m + 1 := ⟨j - s.regs.idx - 1, by omega⟩
      rw [hm, List.take_succ_cons, List.foldl_cons, show j - (s.regs.idx + 1) + 1 = m + 1 by omega]
    · rw [if_neg hj, pkValueStep, readOut_writeOut (by exact h)]
      by_cases hi : j = s.regs.idx ∧ s.regs.idx < s.params.outMax
      · obtain ⟨rfl, hi⟩ := hi
        rw [if_pos ⟨rfl, hi⟩, if_pos ⟨le_refl _, by omega, hi⟩]
        simp
      · rw [if_neg (by exact hi), if_neg (by omega)]
        rfl

/-- The first word of the bytes from `p`, and the words after it. -/
theorem wordsOf_bytesAt (s : State) (p n : Nat) :
    wordsOf (bytesAt s p n) =
      if 8 ≤ n then fixedAt s p :: wordsOf (bytesAt s (p + 8) (n - 8)) else [] := by
  match n with
  | 0 | 1 | 2 | 3 | 4 | 5 | 6 | 7 => rfl
  | n + 8 =>
    rw [if_pos (by omega), Nat.add_sub_cancel]
    rfl

/-- The decoding pass, from any of its words to the completion (R195, R196). -/
theorem pkLoop_run (u : Unpacker) {ws vs : List Word} {s : State} (hp : s.phase = .pkLoop)
    (hw : wordsOf (bytesAt s s.regs.pos (s.regs.len - s.regs.pos)) = ws)
    (hu : u.lists ws = some vs) :
    runPhases u (ws.length + 2) s =
      returnOk (vs.foldl pkValueStep (advance s (8 * ws.length))) := by
  induction ws generalizing s vs with
  | nil =>
    simp only [Unpacker.lists, Option.some.injEq] at hu
    subst hu
    rw [wordsOf_bytesAt] at hw
    have hl : ¬ s.regs.pos + 8 ≤ s.regs.len := by
      intro hl
      rw [if_pos (by omega)] at hw
      cases hw
    rw [List.length_nil,
      runPhases_step (t := { s with phase := .finish }) (by simp [hp])
        (by simp [phaseStep, hp, pkLoopPhase, hl]),
      runPhases_step (t := returnOk { s with phase := .finish }) (by simp) (by simp [phaseStep])]
    rfl
  | cons w ws ih =>
    rw [wordsOf_bytesAt] at hw
    split at hw
    · rename_i h8
      rw [List.cons.injEq] at hw
      obtain ⟨hw1, hw2⟩ := hw
      rw [Unpacker.lists] at hu
      cases h1 : u.unpack w with
      | err d => rw [h1] at hu; cases hu
      | ok xs =>
        cases h2 : u.lists ws with
        | none => rw [h1, h2] at hu; cases hu
        | some ys =>
          rw [h1, h2] at hu
          simp only [Option.some.injEq] at hu
          subst hu
          have ho : sameOutside s (xs.foldl pkValueStep (advance s 8)) :=
            sameOutside_trans (t := advance s 8) ⟨rfl, rfl, rfl, rfl, rfl, rfl, rfl, rfl⟩
              (pkValues_outside _ _)
          rw [List.length_cons,
            runPhases_step (t := xs.foldl pkValueStep (advance s 8)) (by simp [hp])
              (by simp only [phaseStep, hp, pkLoopPhase, readFixed]
                  rw [if_pos (by omega), hw1, h1])]
          rw [ih (s := xs.foldl pkValueStep (advance s 8)) (vs := ys)
            (by rw [pkValues_phase]; exact hp) ?_ h2]
          · rw [List.foldl_append, ← pkValues_advance, advance_advance,
              show 8 + 8 * ws.length = 8 * (ws.length + 1) by omega]
          · rw [pkValues_regs]
            simp only [advance_regs]
            rw [bytesAt_congr (s := s) fun q _ _ => sameOutside_readIn ho q, ← hw2]
            congr 2
    · cases hw

end Sys2Proof.Machine
end

