-- ==== Sys2Proof/Laws/Exec.lean ====
section
/-! SUPPORT. What each strategy instruction does from its header to its completion: one lemma a way
through its checks. -/

namespace Sys2Proof.Machine

/-- An operation that is already complete takes no phase. -/
theorem runOp_idle {u : Unpacker} {s : State} (h : s.phase = .idle) : runOp u s = s :=
  runPhases_idle h _

/-- An operation that completes within its bound. -/
theorem runOp_of_runPhases {u : Unpacker} {n : Nat} {s t : State} (h : runPhases u n s = t)
    (ht : t.phase = .idle) (hn : n ≤ phaseBound s) : runOp u s = t :=
  runPhases_mono h ht hn

/-- There are as many packed words as fit into the bytes. -/
theorem wordsOf_bytesAt_length (s : State) (p n : Nat) : (wordsOf (bytesAt s p n)).length = n / 8 := by
  induction n using Nat.strong_induction_on generalizing p with
  | _ n ih =>
    rw [wordsOf_bytesAt]
    split
    · rw [List.length_cons, ih (n - 8) (by omega)]
      omega
    · rw [List.length_nil]
      omega

/-! ### Raw -/

/-- The state in which the Raw loop begins (R172, R173). -/
def rawStart (s : State) : State :=
  { dispatchTo 0 s with
    phase := .rawLoop,
    regs := { (dispatchTo 0 s).regs with nout := payloadLen s / 8, acc := 0, idx := 0 } }

theorem execRaw_malformed {s : State} (h : payloadLen s % 8 ≠ 0) :
    execRaw s = .next (raise .malformedLength (BitVec.ofNat 64 (payloadLen s)) (dispatchTo 0 s)) := by
  rw [execRaw, enterRaw, rawSize, if_pos (by exact h), runOp_idle rfl]
  rfl

theorem execRaw_capacity {s : State} (h : payloadLen s % 8 = 0) (hc : s.regs.cap < payloadLen s / 8) :
    execRaw s = .next (raise .capacityExceeded (satWord (payloadLen s / 8)) (dispatchTo 0 s)) := by
  rw [execRaw, enterRaw, rawSize, if_neg (not_not.2 (by exact h)), if_pos (by exact hc), runOp_idle rfl]
  rfl

theorem execRaw_ok {s : State} (h : payloadLen s % 8 = 0) (hc : payloadLen s / 8 ≤ s.regs.cap) :
    execRaw s = .next (returnOk (rawElementStep^[payloadLen s / 8] (rawStart s))) := by
  rw [execRaw, enterRaw, rawSize, if_neg (not_not.2 (by exact h)), if_neg (by exact not_lt.2 hc)]
  refine congrArg _ (runOp_of_runPhases (rawLoop_run (s := rawStart s) unpacker rfl (Nat.zero_add _).symm) rfl ?_)
  show _ ≤ s.regs.len + s.regs.cap + payloadLen s / 8 + 8
  omega

/-! ### Packed-Delta -/

/-- The state in which the counting pass begins (R192). -/
def pkCountStart (s : State) : State :=
  { enterPacked s with
    phase := .pkCount,
    regs := { (enterPacked s).regs with first := zigzag (fixedAt s 1), pos := 9 } }

/-- The state in which the decoding pass begins, with element 0 written (R194). -/
def pkLoopStart (n : Nat) (s : State) : State :=
  writeOut
    { pkCountStart s with
      phase := .pkLoop,
      regs := { (pkCountStart s).regs with
        nout := 1 + n, acc := zigzag (fixedAt s 1), idx := 1 } }
    0 (zigzag (fixedAt s 1))

theorem enterPacked_outside (s : State) : sameOutside s (enterPacked s) :=
  ⟨rfl, rfl, rfl, rfl, rfl, rfl, rfl, rfl⟩

theorem pkCountStart_outside (s : State) : sameOutside s (pkCountStart s) :=
  sameOutside_trans (enterPacked_outside s) ⟨rfl, rfl, rfl, rfl, rfl, rfl, rfl, rfl⟩

theorem pkLoopStart_outside (n : Nat) (s : State) : sameOutside s (pkLoopStart n s) :=
  sameOutside_trans (pkCountStart_outside s) ⟨rfl, rfl, rfl, rfl, rfl, rfl, rfl, rfl⟩

/-- PACKED over an admitted unpacker is the run of its operation (R143). -/
theorem execPackedWith_of {u : Unpacker} (hu : u.Admitted) (d : Decidable u.Admitted) (s : State) :
    execPackedWith u d s = .next (runOp u (enterPacked s)) := Unpacker.ifAdmitted_of hu d _

/-- PACKED over any other is refused, whatever the block is (R143). -/
theorem execPackedWith_of_not {u : Unpacker} (hu : ¬ u.Admitted) (d : Decidable u.Admitted) (s : State) :
    execPackedWith u d s = .refused .unpackerNotAdmitted := Unpacker.ifAdmitted_of_not hu d _

/-- The machine's PACKED is never refused. -/
theorem execPacked_eq (s : State) : execPacked s = .next (runOp unpacker (enterPacked s)) := rfl

theorem runPacked_short {u : Unpacker} {s : State} (h : payloadLen s < 8) :
    runOp u (enterPacked s) = raise .tooShort (BitVec.ofNat 64 (payloadLen s)) (enterPacked s) := by
  refine runOp_of_runPhases (n := 1) ?_ rfl (by show 1 ≤ _ + 8; omega)
  rw [runPhases_step (t := raise .tooShort (BitVec.ofNat 64 (payloadLen s)) (enterPacked s))
    (by simp [enterPacked]) ?_, runPhases_zero]
  show pkFirstPhase (enterPacked s) = _
  rw [pkFirstPhase, if_pos (by exact h)]
  rfl

theorem enterPacked_step {u : Unpacker} {s : State} (h : 8 ≤ payloadLen s) :
    phaseStep u (enterPacked s) = pkCountStart s := by
  show pkFirstPhase (enterPacked s) = _
  rw [pkFirstPhase, if_neg (by exact not_lt.2 h)]
  rfl

/-- From the header to the counting pass. -/
theorem runPacked_count {u : Unpacker} {s : State} (h : 8 ≤ payloadLen s) :
    runOp u (enterPacked s) =
      runPhases u (s.regs.len + s.regs.cap + s.regs.nout + 7) (pkCountStart s) :=
  runPhases_step (by simp [enterPacked]) (enterPacked_step h) _

/-- The counting pass sees the bytes after the first value (R193). -/
theorem countBytes_start (s : State) : countBytes (pkCountStart s) = packedBytes s :=
  bytesAt_congr (s := s) fun _ _ _ => rfl

theorem pkCountStart_rejected {u : Unpacker} {s : State} {d : Word}
    (hd : u.count (packedBytes s) = .err d) :
    phaseStep u (pkCountStart s) = raise .invalidPackedWord d (pkCountStart s) := by
  show pkCountPhase u (pkCountStart s) = _
  rw [pkCountPhase, countBytes_start, hd]

theorem pkCountStart_step {u : Unpacker} {s : State} {n : Nat} (hn : u.count (packedBytes s) = .ok n) :
    phaseStep u (pkCountStart s) = pkSize n (pkCountStart s) := by
  show pkCountPhase u (pkCountStart s) = _
  rw [pkCountPhase, countBytes_start, hn]

theorem runPacked_diag {u : Unpacker} {s : State} {d : Word} (h : 8 ≤ payloadLen s)
    (hd : u.count (packedBytes s) = .err d) :
    runOp u (enterPacked s) = raise .invalidPackedWord d (pkCountStart s) := by
  rw [runPacked_count h, runPhases_step (by simp [pkCountStart]) (pkCountStart_rejected hd),
    runPhases_idle rfl]

theorem runPacked_capacity {u : Unpacker} {s : State} {n : Nat} (h : 8 ≤ payloadLen s)
    (hn : u.count (packedBytes s) = .ok n) (hc : s.regs.cap < 1 + n) :
    runOp u (enterPacked s) = raise .capacityExceeded (satWord (1 + n)) (pkCountStart s) := by
  rw [runPacked_count h, runPhases_step (by simp [pkCountStart]) (pkCountStart_step hn), pkSize,
    if_pos (by exact hc), runPhases_idle rfl]

theorem runPacked_ok {u : Unpacker} (hu : u.Admitted) {s : State} {vs : List Word}
    (h : 8 ≤ payloadLen s) (hv : u.lists (wordsOf (packedBytes s)) = some vs)
    (hc : 1 + vs.length ≤ s.regs.cap) :
    runOp u (enterPacked s) =
      returnOk (vs.foldl pkValueStep
        (advance (pkLoopStart vs.length s) (8 * (wordsOf (packedBytes s)).length))) := by
  rw [runPacked_count h, runPhases_step (by simp [pkCountStart]) (pkCountStart_step (hu.count_ok hv)),
    pkSize, if_neg (by exact not_lt.2 hc)]
  have hb : bytesAt (pkLoopStart vs.length s) (pkLoopStart vs.length s).regs.pos
      ((pkLoopStart vs.length s).regs.len - (pkLoopStart vs.length s).regs.pos) = packedBytes s :=
    bytesAt_congr (s := s) fun q _ _ => rfl
  refine runPhases_mono (n := (wordsOf (packedBytes s)).length + 2)
    (pkLoop_run (s := pkLoopStart vs.length s) u rfl (congrArg wordsOf hb) hv) rfl ?_
  rw [packedBytes, wordsOf_bytesAt_length]
  omega

/-! ### Run-Length -/

/-- The state in which the delta varint is read (R222). -/
def rleDeltaStart (s : State) : State :=
  { enterRle s with
    phase := .rleDelta,
    regs := { (enterRle s).regs with first := zigzag (fixedAt s 1), pos := 9 } }

/-- The state in which the count varint is read (R223). -/
def rleCountStart (v1 : Word) (n1 : Nat) (s : State) : State :=
  { rleDeltaStart s with
    phase := .rleCount,
    regs := { (rleDeltaStart s).regs with delta := zigzag v1, pos := 9 + n1 } }

/-- The state in which the run begins (R225). -/
def rleFillStart (v1 : Word) (n1 count n2 : Nat) (s : State) : State :=
  { rleCountStart v1 n1 s with
    phase := .rleFill,
    regs := { (rleCountStart v1 n1 s).regs with
      nout := count + 1, acc := zigzag (fixedAt s 1), idx := 0, pos := 9 + n1 + n2 } }

theorem enterRle_outside (s : State) : sameOutside s (enterRle s) :=
  ⟨rfl, rfl, rfl, rfl, rfl, rfl, rfl, rfl⟩

theorem rleDeltaStart_outside (s : State) : sameOutside s (rleDeltaStart s) :=
  sameOutside_trans (enterRle_outside s) ⟨rfl, rfl, rfl, rfl, rfl, rfl, rfl, rfl⟩

theorem rleCountStart_outside (v1 : Word) (n1 : Nat) (s : State) :
    sameOutside s (rleCountStart v1 n1 s) :=
  sameOutside_trans (rleDeltaStart_outside s) ⟨rfl, rfl, rfl, rfl, rfl, rfl, rfl, rfl⟩

theorem rleFillStart_outside (v1 : Word) (n1 count n2 : Nat) (s : State) :
    sameOutside s (rleFillStart v1 n1 count n2 s) :=
  sameOutside_trans (rleCountStart_outside v1 n1 s) ⟨rfl, rfl, rfl, rfl, rfl, rfl, rfl, rfl⟩

theorem execRle_short {s : State} (h : payloadLen s < 8) :
    execRle s = .next (raise .tooShort (BitVec.ofNat 64 (payloadLen s)) (enterRle s)) := by
  refine congrArg _ (runOp_of_runPhases (n := 1) ?_ rfl (by show 1 ≤ _ + 8; omega))
  rw [runPhases_step (t := raise .tooShort (BitVec.ofNat 64 (payloadLen s)) (enterRle s))
    (s := enterRle s) (by simp [enterRle]) ?_, runPhases_zero]
  show rleFirstPhase (enterRle s) = _
  rw [rleFirstPhase, if_pos (by exact h)]
  rfl

/-- From the header to the delta varint. -/
theorem execRle_delta {s : State} (h : 8 ≤ payloadLen s) :
    execRle s =
      .next (runPhases unpacker (s.regs.len + s.regs.cap + s.regs.nout + 7) (rleDeltaStart s)) := by
  refine congrArg _ (runPhases_step (s := enterRle s) (t := rleDeltaStart s) (by simp [enterRle]) ?_ _)
  show rleFirstPhase (enterRle s) = _
  rw [rleFirstPhase, if_neg (by exact not_lt.2 h)]
  rfl

theorem execRle_malformed_delta {s : State} (h : 8 ≤ payloadLen s) (hv : varintAt s 9 = none) :
    execRle s = .next (raise .malformedVarint 0 (rleDeltaStart s)) := by
  rw [execRle_delta h, runPhases_step (t := raise .malformedVarint 0 (rleDeltaStart s))
    (by simp [rleDeltaStart]) ?_, runPhases_idle rfl]
  show rleDeltaPhase (rleDeltaStart s) = _
  rw [rleDeltaPhase, show readUvarint (rleDeltaStart s) = none from hv]

/-- From the header to the count varint. -/
theorem execRle_count {s : State} {v1 : Word} {n1 : Nat} (h : 8 ≤ payloadLen s)
    (h1 : varintAt s 9 = some (v1, n1)) :
    execRle s =
      .next
        (runPhases unpacker (s.regs.len + s.regs.cap + s.regs.nout + 6) (rleCountStart v1 n1 s)) := by
  rw [execRle_delta h]
  refine congrArg _ (runPhases_step (t := rleCountStart v1 n1 s) (by simp [rleDeltaStart]) ?_ _)
  show rleDeltaPhase (rleDeltaStart s) = _
  rw [rleDeltaPhase, show readUvarint (rleDeltaStart s) = some (v1, n1) from h1]
  rfl

theorem execRle_malformed_count {s : State} {v1 : Word} {n1 : Nat} (h : 8 ≤ payloadLen s)
    (h1 : varintAt s 9 = some (v1, n1)) (hv : varintAt s (9 + n1) = none) :
    execRle s = .next (raise .malformedVarint 1 (rleCountStart v1 n1 s)) := by
  rw [execRle_count h h1, runPhases_step (t := raise .malformedVarint 1 (rleCountStart v1 n1 s))
    (by simp [rleCountStart]) ?_, runPhases_idle rfl]
  show rleCountPhase (rleCountStart v1 n1 s) = _
  rw [rleCountPhase, show readUvarint (rleCountStart v1 n1 s) = none from hv]

theorem rleCountStart_step {u : Unpacker} {s : State} {v1 v2 : Word} {n1 n2 : Nat}
    (h2 : varintAt s (9 + n1) = some (v2, n2)) :
    phaseStep u (rleCountStart v1 n1 s) = rleSize v2.toNat n2 (rleCountStart v1 n1 s) := by
  show rleCountPhase (rleCountStart v1 n1 s) = _
  rw [rleCountPhase, show readUvarint (rleCountStart v1 n1 s) = some (v2, n2) from h2]

theorem execRle_capacity {s : State} {v1 v2 : Word} {n1 n2 : Nat} (h : 8 ≤ payloadLen s)
    (h1 : varintAt s 9 = some (v1, n1)) (h2 : varintAt s (9 + n1) = some (v2, n2))
    (hc : s.regs.cap < v2.toNat + 1) :
    execRle s =
      .next (raise .capacityExceeded (satWord (v2.toNat + 1)) (rleCountStart v1 n1 s)) := by
  rw [execRle_count h h1, runPhases_step (by simp [rleCountStart]) (rleCountStart_step h2), rleSize,
    if_pos (by exact hc), runPhases_idle rfl]

theorem execRle_ok {s : State} {v1 v2 : Word} {n1 n2 : Nat} (h : 8 ≤ payloadLen s)
    (h1 : varintAt s 9 = some (v1, n1)) (h2 : varintAt s (9 + n1) = some (v2, n2))
    (hc : v2.toNat + 1 ≤ s.regs.cap) :
    execRle s =
      .next (returnOk (rleElementStep^[v2.toNat + 1] (rleFillStart v1 n1 v2.toNat n2 s))) := by
  rw [execRle_count h h1, runPhases_step (by simp [rleCountStart]) (rleCountStart_step h2), rleSize,
    if_neg (by exact not_lt.2 hc)]
  refine congrArg _ (runPhases_mono (n := v2.toNat + 1 + 2)
    (rleFill_run (s := rleFillStart v1 n1 v2.toNat n2 s) unpacker rfl (Nat.zero_add _).symm) rfl ?_)
  omega

end Sys2Proof.Machine
end

