-- ==== Sys2Proof/Laws/PerInstr.lean ====
section
/-! SUPPORT. Statements made for each instruction, one lemma a constructor of `Instr`. -/

namespace Sys2Proof.Laws.HeaderRoundTrip

/-- The instruction is well formed, its bytes are at most its header byte, and the decoder reads it back
from them, alone or (when it has a header) before any payload (`spec/30_encoding.md` rules R90, R91,
R102). -/
def Statement (i : Instr) : Prop :=
  i.wf = true ∧ (encode i).length ≤ 1 ∧ decode (encode i) = (i, []) ∧
    ∀ rest : List Byte, encode i ≠ [] → decode (encode i ++ rest) = (i, rest)

/-- The decoder reads back each header byte the encoder writes. -/
theorem of_header {i : Instr} {code lo : Nibble} (hw : i.wf = true) (he : encode i = [headerByte code lo])
    (hd : decodeHeader (headerByte code lo) = i) : Statement i := by
  refine ⟨hw, by rw [he]; rfl, ?_, fun rest _ => ?_⟩
  · rw [he, decode, hd]
  · rw [he, List.singleton_append, decode, hd]

theorem empty : Statement .empty := ⟨rfl, Nat.zero_le _, rfl, fun _ h => absurd rfl h⟩

theorem raw (lo : Nibble) : Statement (.raw lo) :=
  of_header rfl rfl ((by decide : ∀ lo : Nibble, decodeHeader (headerByte 0 lo) = .raw lo) lo)

theorem packed (lo : Nibble) : Statement (.packed lo) :=
  of_header rfl rfl ((by decide : ∀ lo : Nibble, decodeHeader (headerByte 1 lo) = .packed lo) lo)

theorem rle (lo : Nibble) : Statement (.rle lo) :=
  of_header rfl rfl ((by decide : ∀ lo : Nibble, decodeHeader (headerByte 2 lo) = .rle lo) lo)

theorem invalid3 (lo : Nibble) : Statement (.invalid3 lo) :=
  of_header rfl rfl ((by decide : ∀ lo : Nibble, decodeHeader (headerByte 3 lo) = .invalid3 lo) lo)

theorem invalid4 (lo : Nibble) : Statement (.invalid4 lo) :=
  of_header rfl rfl ((by decide : ∀ lo : Nibble, decodeHeader (headerByte 4 lo) = .invalid4 lo) lo)

theorem invalid5 (lo : Nibble) : Statement (.invalid5 lo) :=
  of_header rfl rfl ((by decide : ∀ lo : Nibble, decodeHeader (headerByte 5 lo) = .invalid5 lo) lo)

theorem invalid6 (lo : Nibble) : Statement (.invalid6 lo) :=
  of_header rfl rfl ((by decide : ∀ lo : Nibble, decodeHeader (headerByte 6 lo) = .invalid6 lo) lo)

theorem invalid7 (lo : Nibble) : Statement (.invalid7 lo) :=
  of_header rfl rfl ((by decide : ∀ lo : Nibble, decodeHeader (headerByte 7 lo) = .invalid7 lo) lo)

theorem invalid8 (lo : Nibble) : Statement (.invalid8 lo) :=
  of_header rfl rfl ((by decide : ∀ lo : Nibble, decodeHeader (headerByte 8 lo) = .invalid8 lo) lo)

theorem invalid9 (lo : Nibble) : Statement (.invalid9 lo) :=
  of_header rfl rfl ((by decide : ∀ lo : Nibble, decodeHeader (headerByte 9 lo) = .invalid9 lo) lo)

theorem invalid10 (lo : Nibble) : Statement (.invalid10 lo) :=
  of_header rfl rfl ((by decide : ∀ lo : Nibble, decodeHeader (headerByte 10 lo) = .invalid10 lo) lo)

theorem invalid11 (lo : Nibble) : Statement (.invalid11 lo) :=
  of_header rfl rfl ((by decide : ∀ lo : Nibble, decodeHeader (headerByte 11 lo) = .invalid11 lo) lo)

theorem invalid12 (lo : Nibble) : Statement (.invalid12 lo) :=
  of_header rfl rfl ((by decide : ∀ lo : Nibble, decodeHeader (headerByte 12 lo) = .invalid12 lo) lo)

theorem invalid13 (lo : Nibble) : Statement (.invalid13 lo) :=
  of_header rfl rfl ((by decide : ∀ lo : Nibble, decodeHeader (headerByte 13 lo) = .invalid13 lo) lo)

theorem invalid14 (lo : Nibble) : Statement (.invalid14 lo) :=
  of_header rfl rfl ((by decide : ∀ lo : Nibble, decodeHeader (headerByte 14 lo) = .invalid14 lo) lo)

theorem invalid15 (lo : Nibble) : Statement (.invalid15 lo) :=
  of_header rfl rfl ((by decide : ∀ lo : Nibble, decodeHeader (headerByte 15 lo) = .invalid15 lo) lo)

end Sys2Proof.Laws.HeaderRoundTrip
end

