-- ==== Sys2Proof/Laws/Words.lean ====
section
/-! SUPPORT. The laws of bytes and words: parts of a byte string read from IN, the packed words in them,
the varint loop, and what the writers of R62, R123 and R129 write. -/

namespace Sys2Proof.Machine

theorem bytesAt_length (s : State) (p n : Nat) : (bytesAt s p n).length = n := by
  induction n generalizing p with
  | zero => rfl
  | succ n ih => simp [bytesAt, ih]

theorem bytesAt_take (s : State) {p n k : Nat} (h : k ≤ n) : (bytesAt s p n).take k = bytesAt s p k := by
  induction k generalizing p n with
  | zero => simp [bytesAt]
  | succ k ih =>
    obtain ⟨n, rfl⟩ : ∃ m, n = m + 1 := ⟨n - 1, by omega⟩
    simp only [bytesAt, List.take_succ_cons, ih (p := p + 1) (n := n) (by omega)]

theorem bytesAt_drop (s : State) {p n k : Nat} (h : k ≤ n) :
    (bytesAt s p n).drop k = bytesAt s (p + k) (n - k) := by
  induction k generalizing p n with
  | zero => simp
  | succ k ih =>
    obtain ⟨n, rfl⟩ : ∃ m, n = m + 1 := ⟨n - 1, by omega⟩
    simp only [bytesAt, List.drop_succ_cons, ih (p := p + 1) (n := n) (by omega)]
    congr 1 <;> omega

/-- The packed words depend only on the bytes of the complete ones. -/
theorem wordsOf_bytesAt_congr {s t : State} {p n : Nat}
    (h : ∀ q, p ≤ q → q < p + 8 * (n / 8) → readIn t q = readIn s q) :
    wordsOf (bytesAt t p n) = wordsOf (bytesAt s p n) := by
  induction n using Nat.strong_induction_on generalizing p with
  | _ n ih =>
    rw [wordsOf_bytesAt t p n, wordsOf_bytesAt s p n]
    split
    · rw [ih (n - 8) (by omega) fun q h1 h2 => h q (by omega) (by omega)]
      congr 1
      simp only [fixedAt]
      rw [h p (by omega) (by omega), h (p + 1) (by omega) (by omega), h (p + 2) (by omega) (by omega),
        h (p + 3) (by omega) (by omega), h (p + 4) (by omega) (by omega),
        h (p + 5) (by omega) (by omega), h (p + 6) (by omega) (by omega),
        h (p + 7) (by omega) (by omega)]
    · rfl

/-- A varint that succeeds ends after its `i`-th byte, within its bounds. -/
theorem uvarintLoop_bounds {rd : Nat → Byte} {len pos n i m : Nat} {x v : Word}
    (h : uvarintLoop rd len pos n i x = some (v, m)) : i < m ∧ m ≤ i + n ∧ pos + m ≤ len := by
  induction n generalizing i x with
  | zero => simp [uvarintLoop] at h
  | succ n ih =>
    rw [uvarintLoop] at h
    split at h
    · cases h
    · simp only at h
      split at h
      · have := ih h
        omega
      · split at h
        · cases h
        · simp only [Option.some.injEq, Prod.mk.injEq] at h
          omega

/-- A varint that succeeds depends only on its own bytes. -/
theorem uvarintLoop_congr {rd rd' : Nat → Byte} {len pos n i m : Nat} {x v : Word}
    (h : uvarintLoop rd len pos n i x = some (v, m))
    (hr : ∀ j, i ≤ j → j < m → rd' (pos + j) = rd (pos + j)) :
    uvarintLoop rd' len pos n i x = some (v, m) := by
  induction n generalizing i x with
  | zero => simp [uvarintLoop] at h
  | succ n ih =>
    have hm := (uvarintLoop_bounds h).1
    rw [uvarintLoop] at h ⊢
    rw [hr i (le_refl _) hm]
    split at h
    · cases h
    · rw [if_neg ‹_›]
      simp only at h ⊢
      split at h
      · rw [if_pos ‹_›]
        exact ih h fun j h1 h2 => hr j (by omega) h2
      · rw [if_neg ‹_›]
        exact h

/-! ### The writers -/

/-- Each written word is 8 bytes. -/
theorem beBytes_length (w : Word) : (beBytes w).length = 8 := rfl

theorem flatMap_beBytes_length (ws : List Word) : (ws.flatMap beBytes).length = 8 * ws.length := by
  induction ws with
  | nil => rfl
  | cons w ws ih =>
    rw [List.flatMap_cons, List.length_append, ih, beBytes_length, List.length_cons]
    omega

/-- The high nibble of a written header byte is its code. -/
theorem headerByte_high : ∀ code lo : Nibble, (headerByte code lo).toNat / 16 = code.toNat := by decide

/-- An unpacker's lists, one word at a time. -/
theorem lists_cons {u : Unpacker} {w : Word} {ws vs : List Word} (h : u.lists (w :: ws) = some vs) :
    ∃ xs ys, u.unpack w = .ok xs ∧ u.lists ws = some ys ∧ vs = xs ++ ys := by
  rw [Unpacker.lists] at h
  cases h1 : u.unpack w with
  | err d => rw [h1] at h; cases h
  | ok xs =>
    cases h2 : u.lists ws with
    | none => rw [h1, h2] at h; cases h
    | some ys =>
      rw [h1, h2, Option.some.injEq] at h
      exact ⟨xs, ys, rfl, rfl, h.symm⟩

end Sys2Proof.Machine
end

