-- ==== Sys2Proof/Tests/Slice0.lean ====
section
/-! SUPPORT. The model's own tests, all from the spec: header bytes written out from R91 and R102, the
vectors of `spec/95_test_vectors.md` (named V-…), an ill-formed block for each check of WellFormed, and
for each statement with hypotheses a state that meets them. -/

open Sys2Proof Sys2Proof.Machine

namespace Sys2Proof.Tests

/-! ### Small states -/

/-- A block instance with IN_MAX = 64 and OUT_MAX = 8, right after reset. -/
def small : State := { State.reset with params := { inMax := 64, outMax := 8 } }

/-- The block `bs` in IN, OUT_CAP = cap, and an operation started on it. -/
def block (cap : Nat) (bs : List Byte) : State :=
  loadBlock { small with outCap := BitVec.ofNat 64 cap } bs

/-- What the host reads after a step: STATUS, RESULT_LEN, ERR_INFO and the result's words. -/
def seen (o : Host.Outcome State Fault Refusal) : Option (Word × Word × Word × List Word) :=
  match o with
  | .next t =>
    some (regValue t 1, t.resultLen, t.errInfo, (List.range t.resultLen.toNat).map (readOut t))
  | .fault _ => none
  | .refused _ => none

/-- UNPACK_T of `spec/95_test_vectors.md` section 2. -/
def unpackT (w : Word) : Word ⊕ List Word :=
  if 7 < (w >>> 56).toNat then .inl (w >>> 56)
  else .inr ((List.range (w >>> 56).toNat).map fun k => (w >>> (8 * k)) &&& 0xFF)

/-- The diagnostic of COUNT_T: the first rejected word's. -/
def diagT : List Word → Word
  | [] => 0
  | w :: ws =>
    match unpackT w with
    | .inl d => d
    | .inr _ => diagT ws

/-- The test unpacker, an admitted one. -/
def testUnpacker : Unpacker := Unpacker.paired unpackT diagT
theorem testUnpacker_admitted : testUnpacker.Admitted := Unpacker.paired_admitted _ _

/-- An unpacker that is not admitted: it rejects one word, and counts nothing for it (R142). -/
def badUnpacker : Unpacker :=
  { unpack := fun w => if w = 1 then .err 1 else .ok [], count := fun _ => .ok 0 }
theorem badUnpacker_not_admitted : ¬ badUnpacker.Admitted := fun h =>
  absurd (h.2.2 [0, 0, 0, 0, 0, 0, 0, 1]) (by decide)

/-- The writers of `small`'s memories keep them as the invariant asks. -/
theorem placeBytes_keeps (bs : List Byte) (s : State) (p : Nat)
    (hw : Memory.wf s.inMem = true) (hb : Memory.below s.params.inMax s.inMem = true) :
    Memory.wf (placeBytes s p bs).inMem = true ∧
      Memory.below s.params.inMax (placeBytes s p bs).inMem = true ∧
      (placeBytes s p bs).params = s.params ∧ (placeBytes s p bs).outMem = s.outMem ∧
      (placeBytes s p bs).outCap = s.outCap := by
  induction bs generalizing s p with
  | nil => exact ⟨hw, hb, rfl, rfl, rfl⟩
  | cons b bs ih => exact ih (writeIn s p b) (p + 1) (writeIn_inMem_wf hw p b) (writeIn_inMem_below hb p b)

/-- Every block of at most 64 bytes is where an instruction may begin. -/
theorem block_atHeader (cap : Nat) (bs : List Byte) (h : bs.length ≤ 64) : (block cap bs).AtHeader := by
  obtain ⟨h1, h2, h3, h4, h5⟩ := placeBytes_keeps bs { small with outCap := BitVec.ofNat 64 cap } 0 rfl rfl
  refine ⟨⟨?_, ?_, ?_, ?_, ?_, ?_, ?_, ?_, ?_, ?_, ?_, ?_, ?_, ?_, ?_, ?_, rfl⟩, rfl, ?_⟩
  · show 1 ≤ (placeBytes _ _ _).params.inMax; rw [h3]; exact (by decide : 1 ≤ 64)
  · show (placeBytes _ _ _).params.inMax ≤ _; rw [h3]; exact (by decide : 64 ≤ maxWord)
  · show (placeBytes _ _ _).params.outMax ≤ _; rw [h3]; exact (by decide : 8 ≤ maxWord)
  · exact h1
  · show Memory.below (placeBytes _ _ _).params.inMax _ = _; rw [h3]; exact h2
  · show Memory.wf (placeBytes _ _ _).outMem = _; rw [h4]; rfl
  · show Memory.below _ (placeBytes _ _ _).outMem = _; rw [h4]; rfl
  · exact ⟨fun _ h => Phase.noConfusion h, fun _ => rfl⟩
  · exact fun _ => ⟨rfl, rfl, rfl⟩
  · exact ⟨fun h => Bool.noConfusion h, fun h => absurd rfl h⟩
  · exact fun h => Bool.noConfusion h
  · exact fun _ => rfl
  · exact fun _ => rfl
  · exact fun _ => rfl
  · exact Nat.zero_le _
  · exact fun _ => ⟨rfl, rfl⟩
  · show (BitVec.ofNat 64 bs.length).toNat ≤ (placeBytes _ _ _).params.inMax
    rw [h3]
    exact le_trans (Nat.mod_le _ _) h

/-! ### WellFormed: one ill-formed block for each check -/

theorem test_wf_trailing_too_long :
    (Block.packed 0 0 [] [1, 2, 3, 4, 5, 6, 7, 8]).wf = false := by decide
theorem test_wf_trailing_at_most_seven :
    (Block.packed 0 0 [] [1, 2, 3, 4, 5, 6, 7]).wf = true := by decide
theorem test_wf_varint_absent : (Block.rle 0 0 [] [0] []).wf = false := by decide
theorem test_wf_varint_unfinished : (Block.rle 0 0 [5] [0x80] []).wf = false := by decide
theorem test_wf_varint_two_in_one : (Block.rle 0 0 [5, 0x77] [0] []).wf = false := by decide
theorem test_wf_varint_too_long :
    (Block.rle 0 0 [0x80, 0x80, 0x80, 0x80, 0x80, 0x80, 0x80, 0x80, 0x80, 0x80, 0] [0] []).wf = false := by
  decide
theorem test_wf_varint_too_large :
    (Block.rle 0 0 [0xFF, 0xFF, 0xFF, 0xFF, 0xFF, 0xFF, 0xFF, 0xFF, 0xFF, 2] [0] []).wf = false := by
  decide
theorem test_wf_run_of_none : (Block.rleRun 10 0 0).wf = false := by decide
theorem test_wf_run_too_long : (Block.rleRun 10 0 (2 ^ 64 + 1)).wf = false := by decide

/-! ### Decoding: the table's words, written out bit by bit (R91, R102) -/

theorem test_decode_empty : decodeTableWord 0 0 = some .empty := by decide
theorem test_decode_raw : decodeTableWord 8 0b00000111 = some (.raw 7) := by decide
theorem test_decode_packed : decodeTableWord 8 0b00010000 = some (.packed 0) := by decide
theorem test_decode_rle : decodeTableWord 8 0b00101111 = some (.rle 15) := by decide
theorem test_decode_invalid3 : decodeTableWord 8 0b00111111 = some (.invalid3 15) := by decide
theorem test_decode_invalid4 : decodeTableWord 8 0b01000000 = some (.invalid4 0) := by decide
theorem test_decode_invalid5 : decodeTableWord 8 0b01010001 = some (.invalid5 1) := by decide
theorem test_decode_invalid6 : decodeTableWord 8 0b01100010 = some (.invalid6 2) := by decide
theorem test_decode_invalid7 : decodeTableWord 8 0b01111010 = some (.invalid7 10) := by decide
theorem test_decode_invalid8 : decodeTableWord 8 0b10000000 = some (.invalid8 0) := by decide
theorem test_decode_invalid9 : decodeTableWord 8 0b10010100 = some (.invalid9 4) := by decide
theorem test_decode_invalid10 : decodeTableWord 8 0b10101000 = some (.invalid10 8) := by decide
theorem test_decode_invalid11 : decodeTableWord 8 0b10110000 = some (.invalid11 0) := by decide
theorem test_decode_invalid12 : decodeTableWord 8 0b11000001 = some (.invalid12 1) := by decide
theorem test_decode_invalid13 : decodeTableWord 8 0b11010010 = some (.invalid13 2) := by decide
theorem test_decode_invalid14 : decodeTableWord 8 0b11100100 = some (.invalid14 4) := by decide
theorem test_decode_invalid15 : decodeTableWord 8 0b11110000 = some (.invalid15 0) := by decide

/-- Block notation (R104): the bytes of V-L2. -/
theorem test_bytes_rle_run :
    (Block.rleRun 10 (-3) 3).bytes = [0x20, 0, 0, 0, 0, 0, 0, 0, 0x14, 5, 2] := by decide

/-! ### Primitives -/

/-- V-Z6, V-Z7, V-ZE4. -/
theorem test_zigzag :
    zigzag 0xFFFFFFFFFFFFFFFE = 0x7FFFFFFFFFFFFFFF ∧ zigzag 0xFFFFFFFFFFFFFFFF = 0x8000000000000000 ∧
      zigzagEncode (-3) = 5 := by decide

/-- V-V8, V-V9, V-V11, V-V13, V-V14, V-V16: a varint at the start of a block. -/
theorem test_varint_largest :
    readUvarint (block 0 [0xFF, 0xFF, 0xFF, 0xFF, 0xFF, 0xFF, 0xFF, 0xFF, 0xFF, 1]) =
      some (0xFFFFFFFFFFFFFFFF, 10) := by decide
theorem test_varint_not_minimal : readUvarint (block 0 [0x80, 0]) = some (0, 2) := by decide
theorem test_varint_no_byte : readUvarint (block 0 []) = none := by decide
theorem test_varint_truncated :
    readUvarint (block 0 [0xFF, 0xFF, 0xFF, 0xFF, 0xFF, 0xFF, 0xFF, 0xFF, 0xFF]) = none := by decide
theorem test_varint_above :
    readUvarint (block 0 [0xFF, 0xFF, 0xFF, 0xFF, 0xFF, 0xFF, 0xFF, 0xFF, 0xFF, 2]) = none := by decide
theorem test_varint_eleven :
    readUvarint (block 0 [0x80, 0x80, 0x80, 0x80, 0x80, 0x80, 0x80, 0x80, 0x80, 0x80, 0]) = none := by
  decide

/-! ### The instructions: one step each -/

/-- V-E1. -/
theorem test_empty : seen (step (block 0 [])) = some (0x000A, 0, 0, []) := by decide

/-- V-R9. -/
theorem test_raw_wraps :
    seen (step (block 2 [0x00, 0xFF, 0xFF, 0xFF, 0xFF, 0xFF, 0xFF, 0xFF, 0xFE,
      0, 0, 0, 0, 0, 0, 0, 2])) =
      some (0x0002, 2, 0, [0x7FFFFFFFFFFFFFFF, 0x8000000000000000]) := by decide

/-- V-R5. -/
theorem test_raw_length_before_capacity :
    seen (step (block 0 [0, 0, 0, 0, 0, 0, 0, 0, 0, 0])) = some (0x0016, 0, 9, []) := by decide

/-- V-P1: no packed word, so the configured unpacker's values do not matter. -/
theorem test_packed_first_value_alone :
    seen (step (block 1 [0x10, 0, 0, 0, 0, 0, 0, 0, 0x14])) = some (0x1002, 1, 0, [10]) := by decide

/-- V-P12, with the test unpacker. -/
theorem test_packed_two_words :
    seen (execPackedWith testUnpacker (.isTrue testUnpacker_admitted) (block 8 [0x10, 0, 0, 0, 0, 0, 0, 0, 9,
      3, 0, 0, 0, 0, 6, 4, 2, 2, 0, 0, 0, 0, 0, 1, 3])) =
      some (0x1002, 6, 0, [-5, -4, -2, 1, -1, -2]) := by decide

/-- R143: an instance is refused for a word its block does not hold, at any step, and whatever PACKED
would raise. -/
theorem test_unadmitted_refused :
    stepWith badUnpacker (.isFalse badUnpacker_not_admitted) (block 0 []) =
        .refused .unpackerNotAdmitted ∧
      execPackedWith badUnpacker (.isFalse badUnpacker_not_admitted) (block 5 [0x10]) =
        .refused .unpackerNotAdmitted := ⟨rfl, rfl⟩

/-- V-L14: varints that are not minimal. -/
theorem test_rle_run :
    seen (step (block 3 [0x20, 0, 0, 0, 0, 0, 0, 0, 0x14, 0x85, 0, 0x82, 0x80, 0])) =
      some (0x2002, 3, 0, [10, 7, 4]) := by decide

/-- V-L12: the repeat count 2^64. -/
theorem test_rle_longest_run :
    seen (step (block 0xFFFFFFFFFFFFFFFF [0x20, 0, 0, 0, 0, 0, 0, 0, 0, 0,
      0xFF, 0xFF, 0xFF, 0xFF, 0xFF, 0xFF, 0xFF, 0xFF, 0xFF, 1])) =
      some (0x2066, 0, 0xFFFFFFFFFFFFFFFF, []) := by decide

/-- V-I2, V-I3, V-I4, V-I5, V-I6 and the other codes by the same rule (R250). -/
theorem test_invalid3 : seen (step (block 0 [0x3F])) = some (0x3356, 0, 3, []) := by decide
theorem test_invalid4 : seen (step (block 0 [0x40])) = some (0x3456, 0, 4, []) := by decide
theorem test_invalid5 : seen (step (block 0 [0x5A])) = some (0x3556, 0, 5, []) := by decide
theorem test_invalid6 : seen (step (block 0 [0x60])) = some (0x3656, 0, 6, []) := by decide
theorem test_invalid7 : seen (step (block 0 [0x7A])) = some (0x3756, 0, 7, []) := by decide
theorem test_invalid8 : seen (step (block 0 [0x80])) = some (0x3856, 0, 8, []) := by decide
theorem test_invalid9 : seen (step (block 0 [0x91])) = some (0x3956, 0, 9, []) := by decide
theorem test_invalid10 : seen (step (block 0 [0xA2])) = some (0x3A56, 0, 10, []) := by decide
theorem test_invalid11 : seen (step (block 0 [0xB3])) = some (0x3B56, 0, 11, []) := by decide
theorem test_invalid12 : seen (step (block 0 [0xC4])) = some (0x3C56, 0, 12, []) := by decide
theorem test_invalid13 : seen (step (block 0 [0xD5])) = some (0x3D56, 0, 13, []) := by decide
theorem test_invalid14 : seen (step (block 0 [0xE6])) = some (0x3E56, 0, 14, []) := by decide
theorem test_invalid15 : seen (step (block 0 [0xF0])) = some (0x3F56, 0, 15, []) := by decide

/-- The host's fixed names, on the machine as it is after reset: the very next step runs the word. -/
theorem test_fetch_word_raw :
    seen (step (State.reset.withFetchWord 8 0x00)) = some (0x0002, 0, 0, []) := by decide
theorem test_fetch_word_packed :
    seen (step (State.reset.withFetchWord 8 0x10)) = some (0x1026, 0, 0, []) := by decide
theorem test_fetch_word_rle :
    seen (step (State.reset.withFetchWord 8 0x2F)) = some (0x2026, 0, 0, []) := by decide
theorem test_fetch_word_invalid15 :
    seen (step (State.reset.withFetchWord 8 0xF0)) = some (0x3F56, 0, 15, []) := by decide

/-! ### The host's commands -/

/-- The state after a list of commands, one after another. -/
def after (s : State) : List HostCmd → Host.Outcome State Fault Refusal
  | [] => .next s
  | c :: cs =>
    match hostCommand c s with
    | .next t => after t cs
    | .fault f => .fault f
    | .refused r => .refused r

/-- The replies of a run of commands. -/
def answers (s : State) (cs : List HostCmd) : Option (List Reply) :=
  match after s cs with
  | .next t => some t.replies
  | .fault _ => none
  | .refused _ => none

/-- V-H3. -/
theorem test_ctrl_reads_irq_en_alone :
    answers small [.regWrite 0 0xFFFFFFFFFFFFFFFC, .regRead 0, .regRead 1] =
      some [.reg 0 4, .reg 1 0] := by decide

/-- V-H6, V-H7. -/
theorem test_busy_registers :
    answers (block 1 [0x20, 0, 0, 0, 0, 0, 0, 0, 0x14, 5, 2])
      [.regWrite 2 5, .regRead 2, .regRead 1, .regRead 4, .regRead 5] =
      some [.reg 2 11, .reg 1 1, .reg 4 0, .reg 5 0] := by decide

/-- R265, R266: a stored byte is read back, and outside IN a read gives 0. -/
theorem test_in_reads_back :
    answers small [.inWrite 63 0xAB, .inWrite 64 0xCD, .inRead 63, .inRead 64] =
      some [.inByte 63 0xAB, .inByte 64 0] := by decide

/-- R344. -/
theorem test_hazard : hostCommand (.inWrite 0 1) (block 0 [0]) = .fault .hostHazard := rfl

/-! ### States for the statements' hypotheses -/

/-- V-R2, V-P5, V-P8, V-L2, V-L12: the blocks most witnesses use. -/
def rawBlock : State := block 2 [0x07, 0, 0, 0, 0, 0, 0, 0, 0x0A, 0, 0, 0, 0, 0, 0, 0, 5]
def packedBlock : State := block 4 [0x10, 0, 0, 0, 0, 0, 0, 0, 0x14, 3, 0, 0, 0, 0, 6, 4, 2]
def packedTail : State := block 1 [0x10, 0, 0, 0, 0, 0, 0, 0, 0x14, 9, 9, 9, 9, 9, 9, 9]
def rleBlock : State := block 3 [0x20, 0, 0, 0, 0, 0, 0, 0, 0x14, 5, 2]
def rleLongest : State :=
  block 0xFFFFFFFFFFFFFFFF
    [0x20, 0, 0, 0, 0, 0, 0, 0, 0, 0, 0xFF, 0xFF, 0xFF, 0xFF, 0xFF, 0xFF, 0xFF, 0xFF, 0xFF, 1]

/-- An idle state whose last operation succeeded with a result, and IRQ_EN = 1. -/
def doneState : State :=
  { small with irqEn := true, status := okStatus 2, resultLen := 3 }

/-- The parts of the invariant that evaluate. -/
def plainParts (s : State) : Bool :=
  decide (1 ≤ s.params.inMax) && decide (s.params.inMax ≤ maxWord) &&
    decide (s.params.outMax ≤ maxWord) && Memory.wf s.inMem && Memory.below s.params.inMax s.inMem &&
    Memory.wf s.outMem && Memory.below s.params.outMax s.outMem &&
    decide (s.status.busy = true ↔ s.phase ≠ .idle) &&
    decide (s.status.busy = true → s.status = startStatus ∧ s.resultLen = 0 ∧ s.errInfo = 0) &&
    decide (s.status.err = true ↔ s.status.errKind ≠ .none) &&
    decide (s.status.empty = true → s.status.err = false ∧ s.resultLen = 0) &&
    decide (s.status.errKind ≠ .unknownEncoding → s.status.errNibble = 0) &&
    decide (s.status.err = false → s.errInfo = 0) && decide (s.status.err = true → s.resultLen = 0) &&
    decide (s.resultLen.toNat ≤ s.params.outMax) &&
    decide (s.status.busy = true →
      s.regs.len = s.inLen.toNat ∧ s.regs.cap = min s.outCap.toNat s.params.outMax)

theorem inv_of_parts {u : Unpacker} {s : State} (h : plainParts s = true) (hp : phaseInv u s) :
    s.InvWith u := by
  simp only [plainParts, Bool.and_eq_true, decide_eq_true_eq] at h
  obtain ⟨⟨⟨⟨⟨⟨⟨⟨⟨⟨⟨⟨⟨⟨⟨h1, h2⟩, h3⟩, h4⟩, h5⟩, h6⟩, h7⟩, h8⟩, h9⟩, h10⟩, h11⟩, h12⟩, h13⟩, h14⟩, h15⟩, h16⟩ := h
  exact ⟨h1, h2, h3, h4, h5, h6, h7, h8, h9, h10, h11, h12, h13, h14, h15, h16, hp⟩

theorem small_inv : small.Inv := inv_of_parts (by decide) trivial
theorem doneState_inv : doneState.Inv := inv_of_parts (by decide) trivial
theorem rawBlock_atHeader : rawBlock.AtHeader := block_atHeader _ _ (by decide)
theorem packedBlock_atHeader : packedBlock.AtHeader := block_atHeader _ _ (by decide)
theorem packedTail_atHeader : packedTail.AtHeader := block_atHeader _ _ (by decide)
theorem rleBlock_atHeader : rleBlock.AtHeader := block_atHeader _ _ (by decide)
theorem rleLongest_atHeader : rleLongest.AtHeader := block_atHeader _ _ (by decide)

/-- The Raw loop, the decoding pass and the run, in the middle of an operation. -/
def inRawLoop : State := rawElementStep (rawStart rawBlock)
def inPkLoop : State := pkLoopStart 0 packedTail
def inRleFill : State := rleElementStep (rleFillStart 5 1 2 1 rleBlock)

theorem inRawLoop_inv : inRawLoop.Inv := by
  refine inv_of_parts (by decide) ?_
  show inRawLoop.regs.nib = 0 ∧ inRawLoop.regs.code = 0 ∧ _ ≤ _ ∧ _ ≤ _ ∧ _ ≤ _ ∧ _ = _ ∧ _ = _
  decide

theorem inPkLoop_inv : inPkLoop.Inv := by
  refine inv_of_parts (by decide) ?_
  show inPkLoop.regs.nib = 1 ∧ inPkLoop.regs.code = 1 ∧ _ ≤ _ ∧ _ ≤ _ ∧ _ ≤ _ ∧ _ ≤ _ ∧ _ ≤ _ ∧ ∃ vs, _ ∧ _
  exact ⟨by decide, by decide, by decide, by decide, by decide, by decide, by decide, [], by decide,
    by decide⟩

theorem inRleFill_inv : inRleFill.Inv := by
  refine inv_of_parts (by decide) ?_
  show inRleFill.regs.nib = 2 ∧ inRleFill.regs.code = 2 ∧ _ ≤ _ ∧ _ ≤ _ ∧ _ ≤ _ ∧ _ ≤ _ ∧ _ ≤ _ ∧
    _ ≤ _ ∧ _ ≤ _ ∧ (_ → _)
  decide

/-- The counting pass about to begin. -/
def inPkCount : State := pkCountStart packedTail

theorem inPkCount_inv : inPkCount.Inv := by
  refine inv_of_parts (by decide) ?_
  show inPkCount.regs.nib = 1 ∧ inPkCount.regs.code = 1 ∧ _ ≤ _ ∧ _ ≤ _ ∧ _ = _
  decide

/-- V-P8 completes, whatever the configured unpacker is. -/
theorem packedTail_runs : ∃ t, exec (.packed 0) packedTail = .next t := ⟨_, rfl⟩

/-! ### A witness for the hypotheses of each statement, clause by clause at the ends of its range -/

theorem witness_DecodeAndEncodeAgree : (Instr.raw 0).wf = true ∧ Instr.raw 0 ≠ .empty := by decide

/-- A header byte for each clause: codes 0, 1, 2, 3 and 15. -/
theorem witness_HighNibbleSelectsTheOperation :
    (block 0 [0x0F]).regs.len ≠ 0 ∧ (readIn (block 0 [0x0F]) 0).toNat / 16 = 0 ∧
      (readIn (block 0 [0x10]) 0).toNat / 16 = 1 ∧ (readIn (block 0 [0x2F]) 0).toNat / 16 = 2 ∧
      3 ≤ (readIn (block 0 [0x30]) 0).toNat / 16 ∧ 3 ≤ (readIn (block 0 [0xFF]) 0).toNat / 16 := by
  decide

theorem witness_LowNibbleHasNoEffect :
    (0x00 : Byte).toNat / 16 = (0x0F : Byte).toNat / 16 ∧
      (0xF0 : Byte).toNat / 16 = (0xFF : Byte).toNat / 16 := by decide

theorem witness_ZigzagIsTheSignFold :
    (0 : Word).toNat % 2 = 0 ∧ (0xFFFFFFFFFFFFFFFE : Word).toNat % 2 = 0 ∧ (1 : Word).toNat % 2 = 1 ∧
      (0xFFFFFFFFFFFFFFFF : Word).toNat % 2 = 1 := by decide

/-- A varint of one byte and one of ten. -/
theorem witness_VarintsAreBase128 :
    readUvarint (block 0 [0x7F]) = some (127, 1) ∧
      readUvarint (block 0 [0x80, 0x80, 0x80, 0x80, 0x80, 0x80, 0x80, 0x80, 0x80, 1]) =
        some (0x8000000000000000, 10) := by decide

/-- The least and the greatest value (`holdsAt` written out). -/
theorem witness_VarintReadsBack :
    (bytesAt (block 0 (uvarint 0)) 0 (uvarint 0).length = uvarint 0 ∧
      0 + (uvarint 0).length ≤ (block 0 (uvarint 0)).regs.len) ∧
    (bytesAt (block 0 (uvarint 0xFFFFFFFFFFFFFFFF)) 0 (uvarint 0xFFFFFFFFFFFFFFFF).length =
        uvarint 0xFFFFFFFFFFFFFFFF ∧
      0 + (uvarint 0xFFFFFFFFFFFFFFFF).length ≤ (block 0 (uvarint 0xFFFFFFFFFFFFFFFF)).regs.len) := by
  decide

/-- Words and bytes. -/
theorem witness_MemoryKeepsItsForm :
    (Memory.wf ([(0, 1), (5, 2)] : Memory Word) = true ∧
      ∀ a, Memory.get ([(0, 1), (5, 2)] : Memory Word) a = Memory.get [(0, 1), (5, 2)] a) ∧
    Memory.wf ([(0, 1), (5, 2)] : Memory Byte) = true ∧
      ∀ a, Memory.get ([(0, 1), (5, 2)] : Memory Byte) a = Memory.get [(0, 1), (5, 2)] a :=
  ⟨⟨by decide, fun _ => rfl⟩, by decide, fun _ => rfl⟩

/-- The test unpacker is an admitted one. -/
theorem witness_ConfiguredUnpackerIsAdmitted : testUnpacker.Admitted := testUnpacker_admitted

theorem witness_InwriteStoresOneByte :
    small.Inv ∧ small.status.busy = false ∧ rawBlock.Inv ∧ rawBlock.status.busy = true ∧
      63 < rawBlock.params.inMax := ⟨small_inv, rfl, rawBlock_atHeader.inv, rfl, by decide⟩

theorem witness_OutwriteStoresOneWord :
    small.Inv ∧ small.status.busy = false ∧ rawBlock.Inv ∧ rawBlock.status.busy = true ∧
      7 < rawBlock.params.outMax := ⟨small_inv, rfl, rawBlock_atHeader.inv, rfl, by decide⟩

theorem witness_MemoryReadsHaveNoSideEffect :
    small.params.inMax ≤ 64 ∧ small.status.busy = false ∧ small.params.outMax ≤ 8 ∧
      rawBlock.status.busy = true := by decide

theorem witness_ReservedRegistersAreInert : 6 ≤ 6 ∧ 6 ≤ 1000 := by decide
theorem witness_IdleRegisterWrites : small.status.busy = false := rfl
theorem witness_BusyRegisterWritesAreIgnored : rawBlock.status.busy = true ∧ 1 ≠ 0 := by decide

/-- V-H3: every bit but START and CLEAR set, and none. -/
theorem witness_EveryCtrlWriteStoresIrqEn :
    ((0xFFFFFFFFFFFFFFFC : Word).getLsbD 0 = false ∧ (0xFFFFFFFFFFFFFFFC : Word).getLsbD 1 = false) ∧
      (0 : Word).getLsbD 0 = false ∧ (0 : Word).getLsbD 1 = false := by decide

/-- START alone, and with CLEAR (V-H12). -/
theorem witness_StartBeginsAnOperation :
    small.status.busy = false ∧ (1 : Word).getLsbD 0 = true ∧ (3 : Word).getLsbD 0 = true := by decide

/-- V-H9, CLEAR while busy, and START with and without CLEAR. -/
theorem witness_ClearLowersDoneAlone :
    (2 : Word).getLsbD 1 = true ∧ (2 : Word).getLsbD 0 = false ∧ doneState.status.busy = false ∧
      rawBlock.status.busy = true ∧ (1 : Word).getLsbD 0 = true ∧ (3 : Word).getLsbD 0 = true ∧
      (1 : Word).getLsbD 2 = (3 : Word).getLsbD 2 := by decide

/-- START, CLEAR and a write of IRQ_EN = 0, in a state where irq is 1 (V-H10). -/
theorem witness_IrqFollowsDoneAndEnable :
    doneState.irq = true ∧ doneState.status.busy = false ∧ (5 : Word).getLsbD 0 = true ∧
      (6 : Word).getLsbD 1 = true ∧ (0 : Word).getLsbD 2 = false ∧
      hostCommand (.regWrite 0 5) doneState = .next (ctrlWrite 5 doneState) ∧
      hostCommand (.regWrite 0 6) doneState = .next (ctrlWrite 6 doneState) ∧
      hostCommand (.regWrite 0 0) doneState = .next (ctrlWrite 0 doneState) :=
  ⟨by decide, by decide, by decide, by decide, by decide, rfl, rfl, rfl⟩

/-- Reset asserted while an operation runs. -/
theorem witness_ResetGivesEveryRegisterItsValue :
    { rawBlock with events := [.reset] }.events = .reset :: [] := rfl

/-- No event to come, and `run` to come. -/
theorem witness_StepRunsTheDecodedInstruction :
    rawBlock.status.busy = true ∧ rawBlock.phase = .header ∧
      rawBlock.regs.len ≤ rawBlock.params.inMax ∧ decode (fetchBytes rawBlock) = (.raw 7, []) ∧
      (Instr.raw 7).wf = true ∧ rawBlock.events = [] ∧
      { rawBlock with events := [.run] }.events = [.run] := by decide

/-- V-N1: IN_MAX = 8 and LEN = 9. -/
def tooLong : State :=
  loadBlock { small with params := { inMax := 8, outMax := 8 } } [0, 0, 0, 0, 0, 0, 0, 0, 0]

theorem witness_InputRangeComesFirst :
    tooLong.Inv ∧ tooLong.events = [] ∧ tooLong.phase = .header ∧
      tooLong.params.inMax < tooLong.regs.len :=
  ⟨inv_of_parts (by decide) rfl, rfl, rfl, by decide⟩

theorem witness_EmptyBlockDecodesToNothing : (block 0 []).regs.len = 0 := by decide

theorem witness_InvalidCodesNameTheirNibble :
    (Instr.invalid3 0, (3 : Nibble)) ∈ invalidOps 0 ∧
      (Instr.invalid15 15, (15 : Nibble)) ∈ invalidOps 15 := by decide

/-- V-R2, whose result just fits, and V-R1, the empty result. -/
theorem witness_RawDecodesPrefixSums :
    (rawBlock.AtHeader ∧ payloadLen rawBlock % 8 = 0 ∧ payloadLen rawBlock / 8 ≤ rawBlock.regs.cap) ∧
    ((block 0 [0]).AtHeader ∧ payloadLen (block 0 [0]) % 8 = 0 ∧
      payloadLen (block 0 [0]) / 8 ≤ (block 0 [0]).regs.cap) :=
  ⟨⟨rawBlock_atHeader, by decide, by decide⟩, block_atHeader _ _ (by decide), by decide, by decide⟩

/-- V-R6 (Lp = 7), V-R4 (Lp = 9), and V-R7 (CAP one short). -/
theorem witness_RawRaisesItsErrors :
    ((block 5 [0, 1, 1, 1, 1, 1, 1, 1]).AtHeader ∧ payloadLen (block 5 [0, 1, 1, 1, 1, 1, 1, 1]) % 8 ≠ 0) ∧
    ((block 8 [0, 0, 0, 0, 0, 0, 0, 0, 0, 0]).AtHeader ∧
      payloadLen (block 8 [0, 0, 0, 0, 0, 0, 0, 0, 0, 0]) % 8 ≠ 0) ∧
    ((block 0 [0, 0, 0, 0, 0, 0, 0, 0, 2]).AtHeader ∧
      payloadLen (block 0 [0, 0, 0, 0, 0, 0, 0, 0, 2]) % 8 = 0 ∧
      (block 0 [0, 0, 0, 0, 0, 0, 0, 0, 2]).regs.cap < payloadLen (block 0 [0, 0, 0, 0, 0, 0, 0, 0, 2]) / 8) :=
  ⟨⟨block_atHeader _ _ (by decide), by decide⟩, ⟨block_atHeader _ _ (by decide), by decide⟩,
    block_atHeader _ _ (by decide), by decide, by decide⟩

/-- V-P5 with the test unpacker, whose result just fits. -/
theorem witness_PackedDecodesWithAnyUnpacker :
    testUnpacker.Admitted ∧ packedBlock.AtHeader ∧ 9 ≤ packedBlock.regs.len ∧
      testUnpacker.lists (wordsOf (packedBytes packedBlock)) = some [2, 4, 6] ∧
      1 + [(2 : Word), 4, 6].length ≤ packedBlock.regs.cap :=
  ⟨testUnpacker_admitted, packedBlock_atHeader, by decide, by decide, by decide⟩

/-- V-P8: a trailing fragment and no packed word, so the open values of Config do not matter. -/
theorem witness_PackedDecodesRunningSums :
    packedTail.AtHeader ∧ 9 ≤ packedTail.regs.len ∧
      unpacker.lists (wordsOf (packedBytes packedTail)) = some [] ∧
      1 + ([] : List Word).length ≤ packedTail.regs.cap :=
  ⟨packedTail_atHeader, by decide, by decide, by decide⟩

/-- V-P3 and V-P4 (Lp = 0 and 7). -/
theorem witness_PackedRaisesItsErrors_short :
    testUnpacker.Admitted ∧
    ((block 5 [0x10]).AtHeader ∧ 1 ≤ (block 5 [0x10]).regs.len ∧ payloadLen (block 5 [0x10]) < 8) ∧
    ((block 5 [0x10, 0, 0, 0, 0, 0, 0, 0]).AtHeader ∧
      1 ≤ (block 5 [0x10, 0, 0, 0, 0, 0, 0, 0]).regs.len ∧
      payloadLen (block 5 [0x10, 0, 0, 0, 0, 0, 0, 0]) < 8) :=
  ⟨testUnpacker_admitted, ⟨block_atHeader _ _ (by decide), by decide, by decide⟩,
    block_atHeader _ _ (by decide), by decide, by decide⟩

/-- V-P9: a rejected word with CAP = 0. -/
theorem witness_PackedRaisesItsErrors_rejected :
    testUnpacker.Admitted ∧
      (block 0 [0x10, 0, 0, 0, 0, 0, 0, 0, 0x14, 8, 0, 0, 0, 0, 0, 0, 1]).AtHeader ∧
      8 ≤ payloadLen (block 0 [0x10, 0, 0, 0, 0, 0, 0, 0, 0x14, 8, 0, 0, 0, 0, 0, 0, 1]) ∧
      testUnpacker.count
        (packedBytes (block 0 [0x10, 0, 0, 0, 0, 0, 0, 0, 0x14, 8, 0, 0, 0, 0, 0, 0, 1])) = .err 8 :=
  ⟨testUnpacker_admitted, block_atHeader _ _ (by decide), by decide, by decide⟩

/-- V-P2: Lp = 8 and CAP one short. -/
theorem witness_PackedRaisesItsErrors_capacity :
    testUnpacker.Admitted ∧ (block 0 [0x10, 0, 0, 0, 0, 0, 0, 0, 0x14]).AtHeader ∧
      8 ≤ payloadLen (block 0 [0x10, 0, 0, 0, 0, 0, 0, 0, 0x14]) ∧
      testUnpacker.count (packedBytes (block 0 [0x10, 0, 0, 0, 0, 0, 0, 0, 0x14])) = .ok 0 ∧
      (block 0 [0x10, 0, 0, 0, 0, 0, 0, 0, 0x14]).regs.cap < 1 + 0 :=
  ⟨testUnpacker_admitted, block_atHeader _ _ (by decide), by decide, by decide, by decide⟩

/-- Both sides of the admission, and the bytes of V-P5, which COUNT accepts. -/
theorem witness_OnlyUnadmittedUnpackersAreRefused :
    ¬ badUnpacker.Admitted ∧ testUnpacker.Admitted ∧
      testUnpacker.count (packedBytes packedBlock) = .ok 3 ∧
      (0x0300000000060402 : Word) ∈ wordsOf (packedBytes packedBlock) :=
  ⟨badUnpacker_not_admitted, testUnpacker_admitted, by decide, by decide⟩

/-- V-P8, and the same block with other trailing bytes. -/
theorem witness_PackedTrailingFragmentIsIgnored :
    packedTail.AtHeader ∧ 9 ≤ packedTail.regs.len ∧
      (∀ p, p < packedTail.regs.len - (payloadLen packedTail - 8) % 8 →
        readIn { packedTail with inMem := Memory.set packedTail.inMem 9 0xAA } p = readIn packedTail p) ∧
      ∃ t, exec (.packed 0) packedTail = .next t :=
  ⟨packedTail_atHeader, by decide, by decide, packedTail_runs⟩

/-- V-L2, whose result just fits. -/
theorem witness_RunLengthDecodesTheProgression :
    rleBlock.AtHeader ∧ 9 ≤ rleBlock.regs.len ∧ varintAt rleBlock 9 = some (5, 1) ∧
      varintAt rleBlock (9 + 1) = some (2, 1) ∧ (2 : Word).toNat + 1 ≤ rleBlock.regs.cap :=
  ⟨rleBlock_atHeader, by decide, by decide, by decide, by decide⟩

/-- V-L6 (Lp = 7), V-L7 (the delta varint missing), V-L8 (the count varint missing). -/
theorem witness_RunLengthRaisesItsErrors_malformed :
    ((block 5 [0x20, 0, 0, 0, 0, 0, 0, 0]).AtHeader ∧
      1 ≤ (block 5 [0x20, 0, 0, 0, 0, 0, 0, 0]).regs.len ∧
      payloadLen (block 5 [0x20, 0, 0, 0, 0, 0, 0, 0]) < 8) ∧
    ((block 5 [0x20, 0, 0, 0, 0, 0, 0, 0, 0x14]).AtHeader ∧
      8 ≤ payloadLen (block 5 [0x20, 0, 0, 0, 0, 0, 0, 0, 0x14]) ∧
      varintAt (block 5 [0x20, 0, 0, 0, 0, 0, 0, 0, 0x14]) 9 = none) ∧
    ((block 5 [0x20, 0, 0, 0, 0, 0, 0, 0, 0x14, 5]).AtHeader ∧
      8 ≤ payloadLen (block 5 [0x20, 0, 0, 0, 0, 0, 0, 0, 0x14, 5]) ∧
      varintAt (block 5 [0x20, 0, 0, 0, 0, 0, 0, 0, 0x14, 5]) 9 = some (5, 1) ∧
      varintAt (block 5 [0x20, 0, 0, 0, 0, 0, 0, 0, 0x14, 5]) (9 + 1) = none) :=
  ⟨⟨block_atHeader _ _ (by decide), by decide, by decide⟩,
    ⟨block_atHeader _ _ (by decide), by decide, by decide⟩,
    block_atHeader _ _ (by decide), by decide, by decide, by decide⟩

/-- V-L13 (CAP one short) and V-L12 (the repeat count 2^64). -/
theorem witness_RunLengthRaisesItsErrors_capacity :
    ((block 2 [0x20, 0, 0, 0, 0, 0, 0, 0, 0x14, 5, 2]).AtHeader ∧
      varintAt (block 2 [0x20, 0, 0, 0, 0, 0, 0, 0, 0x14, 5, 2]) 9 = some (5, 1) ∧
      varintAt (block 2 [0x20, 0, 0, 0, 0, 0, 0, 0, 0x14, 5, 2]) (9 + 1) = some (2, 1) ∧
      (block 2 [0x20, 0, 0, 0, 0, 0, 0, 0, 0x14, 5, 2]).regs.cap < (2 : Word).toNat + 1) ∧
    (rleLongest.AtHeader ∧ 8 ≤ payloadLen rleLongest ∧ varintAt rleLongest 9 = some (0, 1) ∧
      varintAt rleLongest (9 + 1) = some (0xFFFFFFFFFFFFFFFF, 10) ∧
      (0xFFFFFFFFFFFFFFFF : Word).toNat + 1 = 2 ^ 64) :=
  ⟨⟨block_atHeader _ _ (by decide), by decide, by decide, by decide⟩,
    rleLongest_atHeader, by decide, by decide, by decide, by decide⟩

/-- V-L15 with two other trailing bytes. -/
theorem witness_RunLengthTrailingBytesAreIgnored :
    (block 3 [0x20, 0, 0, 0, 0, 0, 0, 0, 0x14, 5, 2, 0xDE, 0xAD]).AtHeader ∧
      varintAt (block 3 [0x20, 0, 0, 0, 0, 0, 0, 0, 0x14, 5, 2, 0xDE, 0xAD]) 9 = some (5, 1) ∧
      varintAt (block 3 [0x20, 0, 0, 0, 0, 0, 0, 0, 0x14, 5, 2, 0xDE, 0xAD]) (9 + 1) = some (2, 1) ∧
      (∀ p, p < 9 + 1 + 1 →
        readIn
          { block 3 [0x20, 0, 0, 0, 0, 0, 0, 0, 0x14, 5, 2, 0xDE, 0xAD] with
            inMem := (block 3 [0x20, 0, 0, 0, 0, 0, 0, 0, 0x14, 5, 2]).inMem } p =
          readIn (block 3 [0x20, 0, 0, 0, 0, 0, 0, 0, 0x14, 5, 2, 0xDE, 0xAD]) p) ∧
      ∃ t, exec (.rle 0) (block 3 [0x20, 0, 0, 0, 0, 0, 0, 0, 0x14, 5, 2, 0xDE, 0xAD]) = .next t :=
  ⟨block_atHeader _ _ (by decide), by decide, by decide, by decide, _,
    execRle_ok (v1 := 5) (n1 := 1) (v2 := 2) (n2 := 1) (by decide) (by decide) (by decide) (by decide)⟩

/-- Each operation answers a next state somewhere. -/
theorem witness_HandlerIsTheNormalizedCode :
    (∃ t, exec (.raw 0) rawBlock = .next t) ∧ (∃ t, exec (.packed 0) packedTail = .next t) ∧
      (∃ t, exec (.rle 0) rleBlock = .next t) ∧
      ((Instr.invalid3 0, (3 : Nibble)) ∈ invalidOps 0 ∧ ∃ t, exec (.invalid3 0) (block 0 [0x30]) = .next t) ∧
      ∃ t, exec .empty (block 0 []) = .next t :=
  ⟨⟨_, execRaw_ok (by decide) (by decide)⟩,
    packedTail_runs,
    ⟨_, execRle_ok (v1 := 5) (n1 := 1) (v2 := 2) (n2 := 1) (by decide) (by decide) (by decide) (by decide)⟩,
    ⟨by decide, _, rfl⟩, _, rfl⟩

/-- V-R4. -/
theorem witness_ErrorsLeaveNoOutput :
    ∃ t, exec (.raw 0) (block 8 [0, 0, 0, 0, 0, 0, 0, 0, 0, 0]) = .next t ∧ t.status.err = true :=
  ⟨_, execRaw_malformed (by decide), rfl⟩

theorem witness_OperationsKeepEverythingElse :
    rawBlock.AtHeader ∧ ∃ t, exec (.raw 7) rawBlock = .next t :=
  ⟨rawBlock_atHeader, _, execRaw_ok (by decide) (by decide)⟩

/-- The dispatch, and one element of the Raw loop. -/
theorem witness_DecodeStepsKeepStatus :
    (∃ t, phaseCore rawBlock = .next t ∧ rawBlock.status.busy = true ∧ t.status.busy = true) ∧
    ∃ t, phaseCore inRawLoop = .next t ∧ inRawLoop.status.busy = true ∧ t.status.busy = true :=
  ⟨⟨_, rfl, by decide, by decide⟩, _, rfl, by decide, by decide⟩

theorem witness_ReadPointerOnlyMovesForward :
    ∃ t, inRawLoop.Inv ∧ phaseCore inRawLoop = .next t ∧ inRawLoop.status.busy = true ∧
      t.status.busy = true := ⟨_, inRawLoop_inv, rfl, by decide, by decide⟩

/-- The states in which each loop has its last phase to take. -/
def endRawLoop : State := rawElementStep inRawLoop
def endRleFill : State := rleElementStep (rleElementStep inRleFill)

theorem endRawLoop_inv : endRawLoop.Inv := by
  refine inv_of_parts (by decide) ?_
  show endRawLoop.regs.nib = 0 ∧ endRawLoop.regs.code = 0 ∧ _ ≤ _ ∧ _ ≤ _ ∧ _ ≤ _ ∧ _ = _ ∧ _ = _
  decide

theorem endRleFill_inv : endRleFill.Inv := by
  refine inv_of_parts (by decide) ?_
  show endRleFill.regs.nib = 2 ∧ endRleFill.regs.code = 2 ∧ _ ≤ _ ∧ _ ≤ _ ∧ _ ≤ _ ∧ _ ≤ _ ∧ _ ≤ _ ∧
    _ ≤ _ ∧ _ ≤ _ ∧ (_ → _)
  decide

/-- V-P5 with the test unpacker: the decoding pass about to take its one word. -/
def inPkWord : State := pkLoopStart 3 packedBlock

theorem inPkWord_inv : inPkWord.InvWith testUnpacker := by
  refine inv_of_parts (by decide) ?_
  show inPkWord.regs.nib = 1 ∧ inPkWord.regs.code = 1 ∧ _ ≤ _ ∧ _ ≤ _ ∧ _ ≤ _ ∧ _ ≤ _ ∧ _ ≤ _ ∧ ∃ vs, _ ∧ _
  exact ⟨by decide, by decide, by decide, by decide, by decide, by decide, by decide, [2, 4, 6],
    by decide, by decide⟩

/-- An element of the Raw loop and its end, the counting pass, the end of the decoding pass and a word of
it, and an element of the run and its end. -/
theorem witness_OutputIsWrittenInIndexOrder :
    unpacker.Admitted ∧ testUnpacker.Admitted ∧
    (∃ t, inPkWord.InvWith testUnpacker ∧ inPkWord.phase = .pkLoop ∧
      phaseCoreWith testUnpacker inPkWord = .next t ∧ t.status.busy = true ∧
      inPkWord.regs.pos + 8 ≤ inPkWord.regs.len) ∧
    (∃ t, inRawLoop.Inv ∧ inRawLoop.phase = .rawLoop ∧ phaseCore inRawLoop = .next t ∧
      t.status.busy = true ∧ inRawLoop.regs.idx < inRawLoop.regs.nout) ∧
    (∃ t, endRawLoop.Inv ∧ endRawLoop.phase = .rawLoop ∧ phaseCore endRawLoop = .next t ∧
      t.status.busy = true ∧ endRawLoop.regs.idx = endRawLoop.regs.nout) ∧
    (∃ t, inPkCount.Inv ∧ inPkCount.phase = .pkCount ∧ phaseCore inPkCount = .next t ∧
      t.status.busy = true) ∧
    (∃ t, inPkLoop.Inv ∧ inPkLoop.phase = .pkLoop ∧ phaseCore inPkLoop = .next t ∧
      t.status.busy = true ∧ inPkLoop.regs.len < inPkLoop.regs.pos + 8) ∧
    (∃ t, inRleFill.Inv ∧ inRleFill.phase = .rleFill ∧ phaseCore inRleFill = .next t ∧
      t.status.busy = true ∧ inRleFill.regs.idx < inRleFill.regs.nout) ∧
    ∃ t, endRleFill.Inv ∧ endRleFill.phase = .rleFill ∧ phaseCore endRleFill = .next t ∧
      t.status.busy = true ∧ endRleFill.regs.idx = endRleFill.regs.nout :=
  ⟨unpacker_admitted, testUnpacker_admitted, ⟨_, inPkWord_inv, rfl, rfl, by decide, by decide⟩,
    ⟨_, inRawLoop_inv, rfl, rfl, by decide, by decide⟩,
    ⟨_, endRawLoop_inv, rfl, rfl, by decide, by decide⟩,
    ⟨_, inPkCount_inv, rfl, rfl, by decide⟩, ⟨_, inPkLoop_inv, rfl, rfl, by decide, by decide⟩,
    ⟨_, inRleFill_inv, rfl, rfl, by decide, by decide⟩,
    _, endRleFill_inv, rfl, rfl, by decide, by decide⟩

/-- From the header, and from the middle of each loop. -/
theorem witness_PhasesReachTheCompletion :
    (rleBlock.Inv ∧ rleBlock.status.busy = true) ∧ (inRawLoop.Inv ∧ inRawLoop.status.busy = true) ∧
      (inPkLoop.Inv ∧ inPkLoop.status.busy = true) ∧ inRleFill.Inv ∧ inRleFill.status.busy = true :=
  ⟨⟨rleBlock_atHeader.inv, rfl⟩, ⟨inRawLoop_inv, by decide⟩, ⟨inPkLoop_inv, by decide⟩, inRleFill_inv,
    by decide⟩

theorem witness_IdleCoreTakesNoStep : doneState.status.busy = false ∧ doneState.events = [] := by decide

/-- The hazard of each memory. -/
theorem witness_OnlyHazardsFault :
    step { rawBlock with events := [.host (.inWrite 0 1)] } = .fault .hostHazard ∧
      step { rawBlock with events := [.host (.outWrite 0 1)] } = .fault .hostHazard := ⟨rfl, rfl⟩

/-- A write of OUT_CAP and a second START while busy (program P4), and a read of OUT. -/
theorem witness_HostCommandsDoNotDisturbTheOperation :
    rawBlock.status.busy = true ∧ (∃ s, hostCommand (.regWrite 3 0) rawBlock = .next s) ∧
      (∃ s, hostCommand (.regWrite 0 5) rawBlock = .next s) ∧
      (∃ s, hostCommand (.outRead 0) rawBlock = .next s) ∧ ∃ t, runCore rawBlock = .next t :=
  ⟨rfl, ⟨_, rfl⟩, ⟨_, rfl⟩, ⟨_, rfl⟩, _, execRaw_ok (s := rawBlock) (by decide) (by decide)⟩

/-- A reset, and the run of a whole operation. -/
theorem witness_EveryStepKeepsTheInvariant :
    (small.Inv ∧ ∃ t, step small = .next t) ∧ rawBlock.Inv ∧ ∃ t, step rawBlock = .next t :=
  ⟨⟨small_inv, _, rfl⟩, rawBlock_atHeader.inv, _, execRaw_ok (s := rawBlock) (by decide) (by decide)⟩

/-- An operation inside IN, an empty one, and one above IN_MAX. -/
theorem witness_OperationComputesDecodeBlock :
    (rleBlock.Inv ∧ rleBlock.phase = .header) ∧ ((block 0 []).Inv ∧ (block 0 []).phase = .header) ∧
      tooLong.Inv ∧ tooLong.phase = .header :=
  ⟨⟨rleBlock_atHeader.inv, rfl⟩, ⟨(block_atHeader 0 [] (by decide)).inv, rfl⟩,
    inv_of_parts (by decide) rfl, rfl⟩

/-- [5, 2] (V-R3), and the empty sequence. -/
theorem witness_RawReconstructsEverySequence :
    (rawBlock.AtHeader ∧ holdsBlock rawBlock (Block.raw 7 (differences 0 [5, 2])).bytes ∧
      [(5 : Word), 2].length ≤ rawBlock.regs.cap) ∧
    (block 0 [0]).AtHeader ∧ holdsBlock (block 0 [0]) (Block.raw 0 (differences 0 [])).bytes :=
  ⟨⟨rawBlock_atHeader, by exact ⟨by decide, show _ = _ by decide⟩, by decide⟩,
    block_atHeader _ _ (by decide), by exact ⟨by decide, show _ = _ by decide⟩⟩

/-- [10], with a trailing fragment of 7 bytes (V-P8). -/
theorem witness_PackedReconstructsEverySequence :
    packedTail.AtHeader ∧ [(9 : Byte), 9, 9, 9, 9, 9, 9].length ≤ 7 ∧
      holdsBlock packedTail (Block.packed 0 (zigzagEncode 10) [] [9, 9, 9, 9, 9, 9, 9]).bytes ∧
      unpacker.lists [] = some ((differences 10 []).map zigzagEncode) ∧
      1 + ([] : List Word).length ≤ packedTail.regs.cap :=
  ⟨packedTail_atHeader, by decide, by exact ⟨by decide, show _ = _ by decide⟩, rfl, by decide⟩

/-- [10, 7, 4] (V-L2), and a run of one (V-L5 without its delta). -/
theorem witness_RunLengthReconstructsEveryProgression :
    (rleBlock.AtHeader ∧ 1 ≤ 3 ∧ 3 ≤ rleBlock.regs.cap ∧
      holdsBlock rleBlock (Block.rleRun 10 (-3) 3).bytes) ∧
    (block 1 (Block.rleRun 7 100 1).bytes).AtHeader ∧
      1 ≤ (block 1 (Block.rleRun 7 100 1).bytes).regs.cap ∧
      holdsBlock (block 1 (Block.rleRun 7 100 1).bytes) (Block.rleRun 7 100 1).bytes :=
  ⟨⟨rleBlock_atHeader, by decide, by decide, by exact ⟨by decide, show _ = _ by decide⟩⟩,
    block_atHeader _ _ (by decide), by decide, by exact ⟨by decide, show _ = _ by decide⟩⟩

end Sys2Proof.Tests
end

/-! SUPPORT. The primitives of `spec/40_primitives.md` in closed form: the sign-fold and its inverse in
unbounded integers (R120, R123), and words and varints as numbers (R62, R63). -/

namespace Sys2Proof.Machine

/-! ### Sign-fold -/

theorem and_one_of_even {w : Word} (h : w.toNat % 2 = 0) : w &&& 1 = 0 :=
  BitVec.eq_of_toNat_eq (by simp [h])

theorem and_one_of_odd {w : Word} (h : w.toNat % 2 = 1) : w &&& 1 = 1 :=
  BitVec.eq_of_toNat_eq (by simp [h])

theorem ushiftRight_one_toNat (w : Word) : (w >>> 1).toNat = w.toNat / 2 := by
  simp [Nat.shiftRight_eq_div_pow]

theorem signFold_of_even {w : Word} (h : w.toNat % 2 = 0) : signFold w = (w.toNat / 2 : Nat) := by
  rw [signFold, if_pos h]
  rfl

theorem signFold_of_odd {w : Word} (h : w.toNat % 2 = 1) :
    signFold w = -((w.toNat / 2 : Nat) : Int) - 1 := by
  rw [signFold, if_neg (by omega)]
  omega

/-- The branch-free sign-fold (R121) is the one in unbounded integers (R120). -/
theorem zigzag_eq_signFold (w : Word) : zigzag w = BitVec.ofInt 64 (signFold w) := by
  have hlt := w.isLt
  rw [zigzag]
  rcases Nat.mod_two_eq_zero_or_one w.toNat with h | h
  · rw [and_one_of_even h, signFold_of_even h, show (0 - 0 : Word) = 0#64 from rfl, BitVec.xor_zero]
    refine BitVec.eq_of_toNat_eq ?_
    simp only [ushiftRight_one_toNat, BitVec.toNat_ofInt]
    omega
  · rw [and_one_of_odd h, signFold_of_odd h,
      show (0 - 1 : Word) = BitVec.allOnes 64 from rfl, BitVec.xor_allOnes]
    refine BitVec.eq_of_toNat_eq ?_
    simp only [BitVec.toNat_not, ushiftRight_one_toNat, BitVec.toNat_ofInt]
    omega

theorem accumulate_eq (acc d : Word) : accumulate acc d = acc + BitVec.ofInt 64 (signFold d) := by
  rw [accumulate, zigzag_eq_signFold]

/-- The sign bit of an i64, spread over the word. -/
theorem sshiftRight_sign (v : Word) :
    v.sshiftRight 63 = if v.toNat < 2 ^ 63 then 0#64 else BitVec.allOnes 64 := by
  have hlt := v.isLt
  refine BitVec.eq_of_toInt_eq ?_
  rw [BitVec.toInt_sshiftRight, Int.shiftRight_eq_div_pow, BitVec.toInt_eq_toNat_cond]
  by_cases h : v.toNat < 2 ^ 63
  · rw [if_pos (by omega), if_pos h, show (0#64).toInt = 0 from rfl]
    omega
  · rw [if_neg (by omega), if_neg h, show (BitVec.allOnes 64).toInt = -1 from rfl]
    omega

/-- The inverse of the sign-fold as a number (R123). -/
theorem zigzagEncode_toNat (v : Word) :
    (zigzagEncode v).toNat =
      if v.toNat < 2 ^ 63 then 2 * v.toNat else 2 * (2 ^ 64 - v.toNat) - 1 := by
  have hlt := v.isLt
  have hshift : (v <<< 1).toNat = 2 * v.toNat % 2 ^ 64 := by
    simp [Nat.shiftLeft_eq, Nat.mul_comm]
  rw [zigzagEncode, sshiftRight_sign]
  by_cases h : v.toNat < 2 ^ 63
  · rw [if_pos h, if_pos h, BitVec.xor_zero, hshift]
    omega
  · rw [if_neg h, if_neg h, BitVec.xor_allOnes, BitVec.toNat_not, hshift]
    omega

/-- The sign-fold undoes its inverse (R122, R123). -/
theorem signFold_zigzagEncode (v : Word) : signFold (zigzagEncode v) = v.toInt := by
  have hlt := v.isLt
  have hn := zigzagEncode_toNat v
  by_cases h : v.toNat < 2 ^ 63
  · rw [if_pos h] at hn
    rw [signFold_of_even (by omega), BitVec.toInt_eq_toNat_cond, if_pos (by omega), hn]
    omega
  · rw [if_neg h] at hn
    rw [signFold_of_odd (by omega), BitVec.toInt_eq_toNat_cond, if_neg (by omega), hn]
    omega

@[simp] theorem ofInt_signFold_zigzagEncode (v : Word) :
    BitVec.ofInt 64 (signFold (zigzagEncode v)) = v := by
  rw [signFold_zigzagEncode, BitVec.ofInt_toInt]

/-! ### Numbers put together from bytes -/

/-- Putting a digit above the bits in use is adding it at its weight. -/
theorem ofNat_or_shiftLeft {x k : Nat} (y : Nat) (h : x < 2 ^ k) :
    (BitVec.ofNat 64 x ||| BitVec.ofNat 64 y <<< k) = BitVec.ofNat 64 (x + 2 ^ k * y) := by
  have hor : x + 2 ^ k * y = x ||| y <<< k := by
    rw [Nat.shiftLeft_eq, Nat.mul_comm y, Nat.lor_comm, ← Nat.two_pow_add_eq_or_of_lt h, Nat.add_comm]
  refine BitVec.eq_of_getLsbD_eq fun i hi => ?_
  rw [hor]
  simp only [BitVec.getLsbD_or, BitVec.getLsbD_shiftLeft, BitVec.getLsbD_ofNat, Nat.testBit_or,
    Nat.testBit_shiftLeft, hi, decide_true, Bool.true_and]
  by_cases hk : i < k
  · simp [hk]
  · simp [hk, show i - k < 64 by omega, Nat.le_of_not_lt hk]

/-- A byte is the number it stands for. -/
theorem setWidth_byte (b : Byte) : b.setWidth 64 = BitVec.ofNat 64 b.toNat :=
  (BitVec.ofNat_toNat 64 b).symm

/-- A big-endian number, modulo 2^64, is the one the bytes stand for (R62). -/
theorem beWord_eq_ofNat (bs : List Byte) :
    beWord bs = BitVec.ofNat 64 (bs.foldl (fun a b => 256 * a + b.toNat) 0) := by
  suffices h : ∀ n : Nat,
      bs.foldl (fun (a : Word) b => a <<< 8 ||| b.setWidth 64) (BitVec.ofNat 64 n) =
      BitVec.ofNat 64 (bs.foldl (fun a b => 256 * a + b.toNat) n) from h 0
  induction bs with
  | nil => exact fun _ => rfl
  | cons b bs ih =>
    intro n
    rw [List.foldl_cons, List.foldl_cons, ← ih, setWidth_byte, BitVec.or_comm,
      ofNat_or_shiftLeft (k := 8) n b.isLt, Nat.add_comm b.toNat]
    rfl

theorem firstWord_eq_beWord (payload : List Byte) : firstWord payload = beWord (payload.take 8) :=
  (beWord_eq_ofNat _).symm

/-- The digit of weight `2^k` in base 256, put under the digits above it. -/
theorem base256_step (x k : Nat) : 256 * (x / 2 ^ (k + 8)) + x / 2 ^ k % 2 ^ 8 = x / 2 ^ k := by
  rw [Nat.pow_add, ← Nat.div_div_eq_div_mul]
  exact Nat.div_add_mod _ _

/-- The digits a word is written with (R62). -/
theorem beBytes_digits (w : Word) :
    (beBytes w).foldl (fun a b => 256 * a + b.toNat) 0 = w.toNat := by
  have htop : 256 * 0 + w.toNat / 2 ^ 56 % 2 ^ 8 = w.toNat / 2 ^ 56 := by
    have hlt := w.isLt
    omega
  simp only [beBytes, List.foldl_cons, List.foldl_nil, BitVec.extractLsb'_toNat,
    Nat.shiftRight_eq_div_pow, -Nat.reducePow]
  rw [htop, base256_step _ 48, base256_step _ 40, base256_step _ 32, base256_step _ 24,
    base256_step _ 16, base256_step _ 8, base256_step _ 0, Nat.pow_zero, Nat.div_one]

/-- Reading a written word gives it back (R62). -/
theorem beWord_beBytes (w : Word) : beWord (beBytes w) = w := by
  rw [beWord_eq_ofNat, beBytes_digits, BitVec.ofNat_toNat, BitVec.setWidth_eq]

@[simp] theorem firstWord_beBytes_append (w : Word) (rest : List Byte) :
    firstWord (beBytes w ++ rest) = w := by
  rw [firstWord_eq_beWord, ← beBytes_length w, List.take_left, beWord_beBytes]

@[simp] theorem wordsOf_beBytes_append (w : Word) (rest : List Byte) :
    wordsOf (beBytes w ++ rest) = w :: wordsOf rest := by
  conv_rhs => rw [← beWord_beBytes w]
  rfl

theorem wordsOf_of_length_lt {bs : List Byte} (h : bs.length < 8) : wordsOf bs = [] := by
  rw [← wordsOf_completePart, completePart, Nat.div_eq_of_lt h]
  rfl

/-- The words of written words are these, whatever fragment follows them (R95). -/
theorem wordsOf_flatMap_beBytes (ws : List Word) {trailing : List Byte} (h : trailing.length < 8) :
    wordsOf (ws.flatMap beBytes ++ trailing) = ws := by
  induction ws with
  | nil => exact wordsOf_of_length_lt h
  | cons w ws ih => rw [List.flatMap_cons, List.append_assoc, wordsOf_beBytes_append, ih]

/-! ### Varints -/

/-- Reading the minimal varint of a number gives it back, with the bytes that follow (R129). -/
theorem varintValue_uvarintBytes {n i x : Nat} (rest : List Byte) (hn : n + i = 10) (hi : i ≤ 9)
    (hx : x < 2 ^ (64 - 7 * i)) : varintValue i (uvarintBytes n x ++ rest) = some (x, rest) := by
  induction n generalizing i x with
  | zero => omega
  | succ n ih =>
    have hmax : i ≠ Config.varintMax := by rw [Config.varintMax]; omega
    rw [uvarintBytes]
    split
    · rename_i hlast
      have hb : (BitVec.ofNat 8 x).toNat = x := Nat.mod_eq_of_lt (by omega)
      have htenth : ¬ (i = 9 ∧ 1 < x) := by rintro ⟨rfl, h1⟩; omega
      rw [List.cons_append, List.nil_append, varintValue, if_neg hmax, hb, if_pos hlast,
        if_neg htenth]
    · rename_i hmore
      have hb : (BitVec.ofNat 8 (x % 128 + 128)).toNat = x % 128 + 128 :=
        Nat.mod_eq_of_lt (by omega)
      have hi8 : i ≤ 8 := by
        by_contra h9
        obtain rfl : i = 9 := by omega
        omega
      have hquot : x / 128 < 2 ^ (64 - 7 * (i + 1)) := by
        rw [Nat.div_lt_iff_lt_mul (by decide), show 128 = 2 ^ 7 from rfl, ← Nat.pow_add]
        rwa [show 64 - 7 * (i + 1) + 7 = 64 - 7 * i by omega]
      have hval : x % 128 + 128 - 128 + 128 * (x / 128) = x := by omega
      rw [List.cons_append, varintValue, if_neg hmax, hb, if_neg (by omega),
        ih (by omega) (by omega) hquot, Option.map_some, hval]

@[simp] theorem varintValue_uvarint_append (x : Word) (rest : List Byte) :
    varintValue 0 (uvarint x ++ rest) = some (x.toNat, rest) :=
  varintValue_uvarintBytes rest rfl (by decide) x.isLt

/-- A varint that succeeds stands for a u64 (R127). -/
theorem varintValue_lt {i v : Nat} {bs rest : List Byte} (h : varintValue i bs = some (v, rest))
    (hi : i ≤ 9) : v < 2 ^ (64 - 7 * i) := by
  induction bs generalizing i v with
  | nil => simp [varintValue] at h
  | cons b bs ih =>
    rw [varintValue] at h
    split at h
    · cases h
    · split at h
      · rename_i hlast
        split at h
        · cases h
        · cases h
          rcases Nat.lt_or_ge i 9 with h8 | h9
          · exact lt_of_lt_of_le hlast
              (Nat.pow_le_pow_right (n := 2) (i := 7) (by decide) (by omega))
          · obtain rfl : i = 9 := by omega
            omega
      · rename_i hmax hmore
        obtain ⟨⟨r, rest'⟩, hr, he⟩ := Option.map_eq_some_iff.1 h
        cases he
        rcases Nat.lt_or_ge i 9 with h8 | h9
        · have hlt := ih hr (by omega)
          have hb := b.isLt
          rw [show 64 - 7 * i = 7 + (64 - 7 * (i + 1)) by omega, Nat.pow_add]
          omega
        · obtain rfl : i = 9 := by omega
          cases bs <;> simp [varintValue, Config.varintMax] at hr

end Sys2Proof.Machine

/-! SUPPORT. The parts of a block as its handlers read them from IN, and the same parts of its byte
string: the first value, the packed words and the varints. -/

namespace Sys2Proof.Machine

/-! ### Words and varints in IN -/

/-- Word `k` of a byte string read from IN. -/
theorem wordsOf_bytesAt_getElem? (s : State) {p n k : Nat} (h : k < n / 8) :
    (wordsOf (bytesAt s p n))[k]? = some (fixedAt s (p + 8 * k)) := by
  induction k generalizing p n with
  | zero => rw [wordsOf_bytesAt, if_pos (by omega)]; rfl
  | succ k ih =>
    rw [wordsOf_bytesAt, if_pos (by omega), List.getElem?_cons_succ, ih (by omega)]
    congr 2
    omega

/-- The first value of a payload of at least 8 bytes (R192, R222). -/
theorem firstWord_bytesAt (s : State) {p n : Nat} (h : 8 ≤ n) :
    firstWord (bytesAt s p n) = fixedAt s p := by
  rw [firstWord_eq_beWord, bytesAt_take s h]
  rfl

/-- Bit 7 of a varint's byte says that another follows (R63). -/
theorem getLsbD_seven_iff (b : Byte) : b.getLsbD 7 = true ↔ 128 ≤ b.toNat := by
  rw [← BitVec.msb_eq_getLsbD_last (x := b), BitVec.msb_eq_decide, decide_eq_true_iff]

/-- The seven bits of a varint's byte that another follows. -/
theorem lowBits_of_more {b : Byte} (h : 128 ≤ b.toNat) :
    (b &&& 0x7F).setWidth 64 = BitVec.ofNat 64 (b.toNat - 128) := by
  have hlt := b.isLt
  have hand : (b &&& 0x7F).toNat = b.toNat - 128 := by
    rw [BitVec.toNat_and]
    exact (Nat.and_two_pow_sub_one_eq_mod b.toNat 7).trans (by omega)
  rw [setWidth_byte, hand]

theorem varintValue_ten (bs : List Byte) : varintValue 10 bs = none := by
  cases bs with
  | nil => rfl
  | cons b bs => rw [varintValue, if_pos (by rfl)]

/-- What a varint leaves is the end of the bytes it was read from. -/
theorem varintValue_suffix {i v : Nat} {bs rest : List Byte} (h : varintValue i bs = some (v, rest)) :
    rest <:+ bs := by
  induction bs generalizing i v with
  | nil => cases h
  | cons b bs ih =>
    rw [varintValue] at h
    split at h
    · cases h
    · split at h
      · split at h
        · cases h
        · cases h
          exact List.suffix_cons b _
      · obtain ⟨⟨r, rest'⟩, hr, he⟩ := Option.map_eq_some_iff.1 h
        cases he
        exact (ih hr).trans (List.suffix_cons b _)

/-- The loop of ReadUvarint (R125), with `x` the number of the `i` bytes before, is the number in base
128: it adds the digits that follow at their weight, and ends where they end. -/
theorem uvarintLoop_eq_varintValue (s : State) (len pos : Nat) {n i x : Nat} (hn : n + i = 10)
    (hx : x < 2 ^ (7 * i)) :
    uvarintLoop (readIn s) len pos n i (BitVec.ofNat 64 x) =
      (varintValue i (bytesAt s (pos + i) (len - (pos + i)))).map fun r =>
        (BitVec.ofNat 64 (x + 2 ^ (7 * i) * r.1), len - pos - r.2.length) := by
  induction n generalizing i x with
  | zero =>
    obtain rfl : i = 10 := by omega
    rw [varintValue_ten]
    rfl
  | succ n ih =>
    rw [uvarintLoop]
    by_cases hend : len ≤ pos + i
    · rw [if_pos hend, Nat.sub_eq_zero_of_le hend]
      rfl
    obtain ⟨k, hk⟩ : ∃ k, len - (pos + i) = k + 1 := ⟨len - (pos + i) - 1, by omega⟩
    have hmax : i ≠ Config.varintMax := by rw [Config.varintMax]; omega
    rw [if_neg hend, hk, bytesAt, varintValue, if_neg hmax]
    simp only [getLsbD_seven_iff]
    by_cases hmore : 128 ≤ (readIn s (pos + i)).toNat
    · have hb := (readIn s (pos + i)).isLt
      have hx' : x + 2 ^ (7 * i) * ((readIn s (pos + i)).toNat - 128) < 2 ^ (7 * (i + 1)) := by
        calc x + 2 ^ (7 * i) * ((readIn s (pos + i)).toNat - 128)
            < 2 ^ (7 * i) * ((readIn s (pos + i)).toNat - 128 + 1) := by
              rw [Nat.mul_add_one, Nat.add_comm]; omega
          _ ≤ 2 ^ (7 * i) * 2 ^ 7 := Nat.mul_le_mul_left _ (by omega)
          _ = 2 ^ (7 * (i + 1)) := by rw [← Nat.pow_add, Nat.mul_add_one]
      have hval (r : Nat) : x + 2 ^ (7 * i) * ((readIn s (pos + i)).toNat - 128) +
          2 ^ (7 * (i + 1)) * r =
            x + 2 ^ (7 * i) * ((readIn s (pos + i)).toNat - 128 + 128 * r) := by
        rw [Nat.mul_add_one, Nat.pow_add]
        ring
      rw [if_pos hmore, if_neg (by omega), lowBits_of_more hmore, ofNat_or_shiftLeft _ hx,
        ih (by omega) hx', Option.map_map, show len - (pos + (i + 1)) = k by omega]
      simp only [hval, Function.comp_def]
      rfl
    · rw [if_neg hmore, if_pos (Nat.not_le.1 hmore), setWidth_byte, ofNat_or_shiftLeft _ hx]
      split
      · rfl
      · rw [Option.map_some, bytesAt_length, show len - pos - k = i + 1 by omega]

/-- A varint of the block fails when its bytes stand for no number (R126, R127). -/
theorem varintAt_of_none {s : State} {p : Nat}
    (h : varintValue 0 (bytesAt s p (s.regs.len - p)) = none) : varintAt s p = none := by
  have hloop := uvarintLoop_eq_varintValue s s.regs.len p (n := 10) (i := 0) (x := 0) rfl (by decide)
  rw [Nat.add_zero, h] at hloop
  exact hloop

/-- A varint of the block is the number its bytes stand for, and the next field follows it (R63). -/
theorem varintAt_of_some {s : State} {p v : Nat} {rest : List Byte}
    (h : varintValue 0 (bytesAt s p (s.regs.len - p)) = some (v, rest)) :
    ∃ n, varintAt s p = some (BitVec.ofNat 64 v, n) ∧
      rest = bytesAt s (p + n) (s.regs.len - (p + n)) := by
  have hloop := uvarintLoop_eq_varintValue s s.regs.len p (n := 10) (i := 0) (x := 0) rfl (by decide)
  rw [Nat.add_zero, h, Option.map_some, Nat.mul_zero, Nat.pow_zero, Nat.zero_add, Nat.one_mul] at hloop
  refine ⟨_, hloop, ?_⟩
  have hsuffix := varintValue_suffix h
  have hle := hsuffix.length_le
  rw [bytesAt_length] at hle
  rw [List.suffix_iff_eq_drop.1 hsuffix, bytesAt_length, List.length_drop, bytesAt_length,
    bytesAt_drop s (by omega)]
  congr 1 <;> omega

/-! ### Running sums -/

/-- The running sums in closed form. -/
theorem prefixSums_eq_map_range (acc : Word) (ds : List Word) :
    prefixSums acc ds =
      (List.range ds.length).map fun j => (ds.take (j + 1)).foldl accumulate acc := by
  induction ds generalizing acc with
  | nil => rfl
  | cons d ds ih =>
    rw [prefixSums, ← accumulate_eq, ih, List.length_cons, List.range_succ_eq_map, List.map_cons,
      List.map_map]
    rfl

/-- ACC of the Raw loop is the running sum of the words it has read (R173). -/
theorem rawAcc_eq_foldl {s : State} {n k : Nat} (hk : k ≤ n / 8) :
    rawAcc s k = ((wordsOf (bytesAt s s.regs.pos n)).take k).foldl accumulate s.regs.acc := by
  induction k with
  | zero => rfl
  | succ k ih =>
    rw [rawAcc, ih (by omega), List.take_add_one, wordsOf_bytesAt_getElem? s (by omega),
      Option.toList_some, List.foldl_append]
    rfl

/-- The elements of the run are the progression in closed form, with a zero delta too (R227, R228). -/
theorem rleElementAt_eq {s : State} (h : s.regs.acc = s.regs.first) (k : Nat) :
    rleElementAt s k = s.regs.first + BitVec.ofNat 64 k * s.regs.delta := by
  rw [rleElementAt, rleAcc, h]
  by_cases hd : s.regs.delta = 0
  · rw [if_pos hd, hd]
    exact ((congrArg _ BitVec.mul_zero).trans (BitVec.add_zero _)).symm
  · rw [if_neg hd, if_neg hd]

end Sys2Proof.Machine

/-! SUPPORT. Each instruction, from its header to its completion, answers what the reference of its
strategy says of the payload (R6, R152). -/

namespace Sys2Proof.Machine

/-! ### Completions -/

/-- `o` is a completion with the result `r`, as the host reads it (R271), and nothing outside the
operation has changed since `s`. -/
def completesWith (r : Result) (s : State) (o : Host.Outcome State Fault Refusal) : Prop :=
  ∃ t, o = .next t ∧ sameOutside s t ∧ hostResult t = some r

/-- An error that names no nibble (R310). -/
theorem completesWith_raise {s t : State} {kind : ErrKind} (info : Word) (ht : sameOutside s t)
    (hk : kind ≠ .unknownEncoding) :
    completesWith (.err kind 0 info) s (.next (raise kind info t)) := by
  refine ⟨_, rfl, sameOutside_trans ht (raise_outside _ _ _), ?_⟩
  show some (Result.err kind (if kind = .unknownEncoding then t.regs.nib else 0) info) = _
  rw [if_neg hk]

/-- UnknownEncoding names NIB (R310). -/
theorem completesWith_raise_unknownEncoding {s t : State} (info : Word) (ht : sameOutside s t) :
    completesWith (.err .unknownEncoding t.regs.nib info) s
      (.next (raise .unknownEncoding info t)) :=
  ⟨_, rfl, sameOutside_trans ht (raise_outside _ _ _), rfl⟩

/-- A success gives the first NOUT words of OUT (R271, R311). -/
theorem completesWith_returnOk {s t : State} (ht : sameOutside s t) (hn : t.regs.nout ≤ maxWord) :
    completesWith (.ok ((List.range t.regs.nout).map (readOut t))) s (.next (returnOk t)) := by
  refine ⟨_, rfl, sameOutside_trans ht (returnOk_outside t), ?_⟩
  have hlen : (returnOk t).resultLen.toNat = t.regs.nout :=
    Nat.mod_eq_of_lt (Nat.lt_succ_of_le hn)
  show some (Result.ok ((List.range (returnOk t).resultLen.toNat).map (readOut (returnOk t)))) = _
  rw [hlen]
  rfl

/-- The same, when NOUT and the words of OUT are known. -/
theorem completesWith_returnOk_of {s t : State} {n : Nat} {f : Nat → Word} (ht : sameOutside s t)
    (hnout : t.regs.nout = n) (hn : n ≤ maxWord) (hout : ∀ j, j < n → readOut t j = f j) :
    completesWith (.ok ((List.range n).map f)) s (.next (returnOk t)) := by
  subst hnout
  have hseq : (List.range t.regs.nout).map (readOut t) = (List.range t.regs.nout).map f :=
    List.map_congr_left fun j hj => hout j (List.mem_range.1 hj)
  exact hseq ▸ completesWith_returnOk ht hn

theorem completesWith_returnOkEmpty (s : State) :
    completesWith .okEmpty s (.next (returnOkEmpty s)) :=
  ⟨_, rfl, complete_outside _ _ _ s, rfl⟩

/-- The capacity of an operation is at most OUT_MAX (R37). -/
theorem State.AtHeader.cap_le_outMax {s : State} (h : s.AtHeader) : s.regs.cap ≤ s.params.outMax := by
  have hbusy : s.status.busy = true := h.inv.busy_phase.2 (by rw [h.phase]; decide)
  rw [(h.inv.busy_operands hbusy).2]
  exact Nat.min_le_right _ _

theorem State.AtHeader.cap_le_maxWord {s : State} (h : s.AtHeader) : s.regs.cap ≤ maxWord :=
  h.cap_le_outMax.trans h.inv.outMax_le

theorem dispatchTo_outside (nib : Nibble) (s : State) : sameOutside s (dispatchTo nib s) :=
  ⟨rfl, rfl, rfl, rfl, rfl, rfl, rfl, rfl⟩

/-! ### Raw -/

theorem rawStart_outside (s : State) : sameOutside s (rawStart s) :=
  ⟨rfl, rfl, rfl, rfl, rfl, rfl, rfl, rfl⟩

theorem bytesAt_rawStart (s : State) (p n : Nat) : bytesAt (rawStart s) p n = bytesAt s p n :=
  bytesAt_congr fun q _ _ => sameOutside_readIn (rawStart_outside s) q

/-- The elements of a decoded Raw block: the running sums of its words (R173). -/
theorem rawElements_rawStart_out {s : State} (hwf : Memory.wf s.outMem = true) {j : Nat}
    (hj : j < payloadLen s / 8) (hjOut : j < s.params.outMax) :
    readOut (rawElementStep^[payloadLen s / 8] (rawStart s)) j =
      ((wordsOf (bytesAt s 1 (payloadLen s))).take (j + 1)).foldl accumulate 0 := by
  obtain ⟨_, hout⟩ := rawElements_out (s := rawStart s) hwf (payloadLen s / 8)
  rw [hout, if_pos ⟨Nat.zero_le j, (Nat.zero_add _).symm ▸ hj, hjOut⟩,
    rawAcc_eq_foldl (n := payloadLen s) (by exact hj), bytesAt_rawStart]
  rfl

/-- RAW computes its reference (R170 to R173). -/
theorem execRaw_completes {s : State} (h : s.AtHeader) :
    completesWith (rawResult s.regs.cap (bytesAt s 1 (payloadLen s))) s (execRaw s) := by
  rw [rawResult, bytesAt_length]
  by_cases hmod : payloadLen s % 8 = 0
  · rw [if_neg (not_not.2 hmod), sized]
    by_cases hcap : s.regs.cap < payloadLen s / 8
    · rw [if_pos hcap, execRaw_capacity hmod hcap]
      exact completesWith_raise _ (dispatchTo_outside 0 s) (by decide)
    · have hcapOut := h.cap_le_outMax
      have hcapWord := h.cap_le_maxWord
      rw [if_neg hcap, execRaw_ok hmod (Nat.not_lt.1 hcap), prefixSums_eq_map_range,
        wordsOf_bytesAt_length]
      exact completesWith_returnOk_of
        (sameOutside_trans (rawStart_outside s) (rawElements_outside _ _))
        (by rw [rawElements_regs]; rfl) (by omega)
        fun j hj => rawElements_rawStart_out h.inv.outMem_wf hj (by omega)
  · rw [if_pos hmod, execRaw_malformed hmod]
    exact completesWith_raise _ (dispatchTo_outside 0 s) (by decide)

/-! ### Packed-Delta -/

/-- The payload after the first value (R193). -/
theorem payload_drop_eight {s : State} (h : 8 ≤ payloadLen s) :
    (bytesAt s 1 (payloadLen s)).drop 8 = packedBytes s := by
  rw [bytesAt_drop s h, payloadLen, Nat.sub_sub]
  rfl

/-- OUT when the decoding pass begins: element 0 is written (R194). -/
theorem pkLoopStart_out {s : State} (hwf : Memory.wf s.outMem = true) (n j : Nat) :
    readOut (pkLoopStart n s) j =
      if j = 0 ∧ 0 < s.params.outMax then zigzag (fixedAt s 1) else readOut s j := by
  rw [pkLoopStart, readOut_writeOut (by exact hwf)]
  rfl

theorem pkLoopStart_outMem_wf {s : State} (hwf : Memory.wf s.outMem = true) (n : Nat) :
    Memory.wf (pkLoopStart n s).outMem = true :=
  writeOut_outMem_wf (by exact hwf) _ _

/-- The elements of a decoded Packed-Delta block: the first value and its running sums (R194, R195). -/
theorem pkValues_pkLoopStart_out {s : State} (hwf : Memory.wf s.outMem = true) (vs : List Word)
    (k : Nat) {j : Nat} (hj : j < 1 + vs.length) (hjOut : j < s.params.outMax) :
    readOut (vs.foldl pkValueStep (advance (pkLoopStart vs.length s) k)) j =
      (vs.take j).foldl accumulate (zigzag (fixedAt s 1)) := by
  obtain ⟨_, hout⟩ := pkValues_out vs (s := advance (pkLoopStart vs.length s) k)
    (pkLoopStart_outMem_wf hwf vs.length)
  rw [hout]
  cases j with
  | zero =>
    rw [if_neg (fun hbad => absurd hbad.1 (by decide : ¬ 1 ≤ 0)),
      readOut_congr (s := pkLoopStart vs.length s) (advance_params _ _) (advance_outMem _ _)
        (advance_epoch _ _), pkLoopStart_out hwf, if_pos ⟨rfl, hjOut⟩]
    rfl
  | succ i =>
    rw [if_pos ⟨Nat.le_add_left 1 i, hj, hjOut⟩]
    rfl

/-- PACKED over an admitted unpacker computes its reference (R190 to R197). -/
theorem execPackedWith_completes {u : Unpacker} (hu : u.Admitted) (d : Decidable u.Admitted)
    {s : State} (h : s.AtHeader) :
    completesWith (packedResult u s.regs.cap (bytesAt s 1 (payloadLen s))) s
      (execPackedWith u d s) := by
  rw [execPackedWith_of hu, packedResult, bytesAt_length]
  by_cases hshort : payloadLen s < 8
  · rw [if_pos hshort, runPacked_short hshort]
    exact completesWith_raise _ (enterPacked_outside s) (by decide)
  have h8 : 8 ≤ payloadLen s := Nat.not_lt.1 hshort
  rw [if_neg hshort, payload_drop_eight h8, firstWord_bytesAt s h8, ← zigzag_eq_signFold]
  cases hcount : u.count (packedBytes s) with
  | err e =>
    rw [runPacked_diag h8 hcount]
    exact completesWith_raise _ (pkCountStart_outside s) (by decide)
  | ok n =>
    obtain ⟨vs, hvs, rfl⟩ := hu.lists_of_count hcount
    simp only [hvs, Option.getD_some, sized]
    by_cases hcap : s.regs.cap < 1 + vs.length
    · rw [if_pos hcap, runPacked_capacity h8 hcount hcap]
      exact completesWith_raise _ (pkCountStart_outside s) (by decide)
    · have hcapOut := h.cap_le_outMax
      have hcapWord := h.cap_le_maxWord
      have hseq : zigzag (fixedAt s 1) :: prefixSums (zigzag (fixedAt s 1)) vs =
          (List.range (1 + vs.length)).map fun j =>
            (vs.take j).foldl accumulate (zigzag (fixedAt s 1)) := by
        rw [prefixSums_eq_map_range, Nat.add_comm, List.range_succ_eq_map, List.map_cons,
          List.map_map]
        rfl
      rw [if_neg hcap, runPacked_ok hu h8 hvs (Nat.not_lt.1 hcap), hseq]
      exact completesWith_returnOk_of
        (sameOutside_trans (pkLoopStart_outside vs.length s)
          (sameOutside_trans ⟨rfl, rfl, rfl, rfl, rfl, rfl, rfl, rfl⟩ (pkValues_outside vs _)))
        (by rw [pkValues_regs]; rfl) (by omega)
        fun j hj => pkValues_pkLoopStart_out h.inv.outMem_wf vs _ hj (by omega)

/-! ### Run-Length -/

theorem rleFillStart_outMem (v1 : Word) (n1 count n2 : Nat) (s : State) :
    (rleFillStart v1 n1 count n2 s).outMem = s.outMem := by
  simp only [rleFillStart, rleCountStart, rleDeltaStart, enterRle, dispatchTo_outMem]

/-- The elements of a decoded Run-Length block: the progression (R225 to R228). -/
theorem rleElements_rleFillStart_out {s : State} (hwf : Memory.wf s.outMem = true) (v1 : Word)
    (n1 n2 : Nat) {count j : Nat} (hj : j < count + 1) (hjOut : j < s.params.outMax) :
    readOut (rleElementStep^[count + 1] (rleFillStart v1 n1 count n2 s)) j =
      zigzag (fixedAt s 1) + BitVec.ofNat 64 j * zigzag v1 := by
  have hwf' : Memory.wf (rleFillStart v1 n1 count n2 s).outMem = true :=
    (rleFillStart_outMem v1 n1 count n2 s).symm ▸ hwf
  obtain ⟨_, hout⟩ := rleElements_out hwf' (count + 1)
  rw [hout, if_pos ⟨Nat.zero_le j, (Nat.zero_add _).symm ▸ hj, hjOut⟩, rleElementAt_eq rfl]
  rfl

/-- RLE computes its reference (R220 to R228). -/
theorem execRle_completes {s : State} (h : s.AtHeader) :
    completesWith (rleResult s.regs.cap (bytesAt s 1 (payloadLen s))) s (execRle s) := by
  rw [rleResult, bytesAt_length]
  by_cases hshort : payloadLen s < 8
  · rw [if_pos hshort, execRle_short hshort]
    exact completesWith_raise _ (enterRle_outside s) (by decide)
  have h8 : 8 ≤ payloadLen s := Nat.not_lt.1 hshort
  rw [if_neg hshort, payload_drop_eight h8, packedBytes, firstWord_bytesAt s h8, ← zigzag_eq_signFold]
  cases hv1 : varintValue 0 (bytesAt s 9 (s.regs.len - 9)) with
  | none =>
    rw [execRle_malformed_delta h8 (varintAt_of_none hv1)]
    exact completesWith_raise _ (rleDeltaStart_outside s) (by decide)
  | some r1 =>
    obtain ⟨v1, rest1⟩ := r1
    obtain ⟨n1, hat1, rfl⟩ := varintAt_of_some hv1
    simp only
    cases hv2 : varintValue 0 (bytesAt s (9 + n1) (s.regs.len - (9 + n1))) with
    | none =>
      rw [execRle_malformed_count h8 hat1 (varintAt_of_none hv2)]
      exact completesWith_raise _ (rleCountStart_outside _ n1 s) (by decide)
    | some r2 =>
      obtain ⟨v2, rest2⟩ := r2
      obtain ⟨n2, hat2, -⟩ := varintAt_of_some hv2
      have hv2Nat : (BitVec.ofNat 64 v2).toNat = v2 :=
        Nat.mod_eq_of_lt (varintValue_lt hv2 (by decide))
      simp only [sized]
      by_cases hcap : s.regs.cap < v2 + 1
      · rw [if_pos hcap, execRle_capacity h8 hat1 hat2 (by rwa [hv2Nat]), hv2Nat]
        exact completesWith_raise _ (rleCountStart_outside _ n1 s) (by decide)
      · have hcapOut := h.cap_le_outMax
        have hcapWord := h.cap_le_maxWord
        rw [if_neg hcap, execRle_ok h8 hat1 hat2 (by omega), hv2Nat, progression,
          ← zigzag_eq_signFold]
        exact completesWith_returnOk_of
          (sameOutside_trans (rleFillStart_outside _ n1 v2 n2 s) (rleElements_outside _ _))
          (by rw [rleElements_regs]; rfl) (by omega)
          fun j hj => rleElements_rleFillStart_out h.inv.outMem_wf _ _ _ hj (by omega)

/-! ### Dispatch -/

theorem headerCode_toNat (h : Byte) : (headerCode h).toNat = h.toNat / 16 := by
  have hlt := h.isLt
  rw [headerCode, BitVec.extractLsb'_toNat, Nat.shiftRight_eq_div_pow]
  omega

theorem decodeHeader_raw {h : Byte} (hc : h.toNat / 16 = 0) : decodeHeader h = .raw (headerLow h) := by
  rw [decodeHeader, headerCode_toNat, hc]
  rfl

theorem decodeHeader_packed {h : Byte} (hc : h.toNat / 16 = 1) :
    decodeHeader h = .packed (headerLow h) := by
  rw [decodeHeader, headerCode_toNat, hc]
  rfl

theorem decodeHeader_rle {h : Byte} (hc : h.toNat / 16 = 2) : decodeHeader h = .rle (headerLow h) := by
  rw [decodeHeader, headerCode_toNat, hc]
  rfl

/-- Codes 3 to 15 select the Invalid operations (R101). -/
theorem decodeHeader_invalid : ∀ h : Byte, 3 ≤ h.toNat / 16 →
    (decodeHeader h, headerCode h) ∈ invalidOps (headerLow h) := by
  decide

/-- Each Invalid operation is one error, of the code it names (R250). -/
theorem exec_of_mem_invalidOps {lo n : Nibble} {i : Instr} (h : (i, n) ∈ invalidOps lo) (s : State) :
    exec i s = .next (enterInvalid n s) := by
  simp only [invalidOps, List.mem_cons, Prod.mk.injEq, List.not_mem_nil, or_false] at h
  rcases h with ⟨rfl, rfl⟩ | ⟨rfl, rfl⟩ | ⟨rfl, rfl⟩ | ⟨rfl, rfl⟩ | ⟨rfl, rfl⟩ | ⟨rfl, rfl⟩ |
    ⟨rfl, rfl⟩ | ⟨rfl, rfl⟩ | ⟨rfl, rfl⟩ | ⟨rfl, rfl⟩ | ⟨rfl, rfl⟩ | ⟨rfl, rfl⟩ | ⟨rfl, rfl⟩ <;> rfl

/-- UnknownEncoding, naming the code (R250, R251). -/
theorem enterInvalid_completes (n : Nibble) (s : State) :
    completesWith (.err .unknownEncoding n (n.setWidth 64)) s (.next (enterInvalid n s)) :=
  completesWith_raise_unknownEncoding _ (dispatchTo_outside n s)

/-- `DecodeBlock` of a block that lies inside IN, by its header byte (R152). -/
theorem decodeBlock_nil (u : Unpacker) (inMax cap : Nat) : decodeBlock u inMax cap [] = .okEmpty := rfl

theorem decodeBlock_cons (u : Unpacker) {inMax : Nat} (cap : Nat) {h : Byte} {payload : List Byte}
    (hlen : (h :: payload).length ≤ inMax) :
    decodeBlock u inMax cap (h :: payload) =
      if h.toNat / 16 = 0 then rawResult cap payload
      else if h.toNat / 16 = 1 then packedResult u cap payload
      else if h.toNat / 16 = 2 then rleResult cap payload
      else .err .unknownEncoding (BitVec.ofNat 4 (h.toNat / 16)) (BitVec.ofNat 64 (h.toNat / 16)) :=
  if_neg (Nat.not_lt.2 hlen)

theorem decodeBlock_inputRange (u : Unpacker) {inMax : Nat} (cap : Nat) {block : List Byte}
    (hlen : inMax < block.length) :
    decodeBlock u inMax cap block = .err .inputRange 0 (BitVec.ofNat 64 block.length) :=
  if_pos hlen

/-- The instruction fetched at HEADER computes `DecodeBlock` on the bytes of its block (R6, R152). -/
theorem exec_fetchInstr_completes {s : State} (h : s.AtHeader) :
    completesWith (decodeBlock unpacker s.params.inMax s.regs.cap (blockBytes s)) s
      (exec (fetchInstr s) s) := by
  have hlen : (blockBytes s).length ≤ s.params.inMax := (bytesAt_length s 0 _).trans_le h.len_le
  by_cases h0 : s.regs.len = 0
  · have hbytes : blockBytes s = [] := by rw [blockBytes, h0]; rfl
    have hinstr : fetchInstr s = .empty := by rw [fetchInstr, fetchBytes, if_pos h0]; rfl
    rw [hbytes, hinstr, decodeBlock_nil]
    exact completesWith_returnOkEmpty s
  · have hbytes : blockBytes s = readIn s 0 :: bytesAt s 1 (payloadLen s) := by
      rw [blockBytes, ← Nat.succ_pred_eq_of_ne_zero h0]
      rfl
    have hinstr : fetchInstr s = decodeHeader (readIn s 0) := by
      rw [fetchInstr, fetchBytes, if_neg h0]
      rfl
    rw [hbytes] at hlen
    rw [hbytes, hinstr, decodeBlock_cons unpacker s.regs.cap hlen]
    by_cases hraw : (readIn s 0).toNat / 16 = 0
    · rw [if_pos hraw, decodeHeader_raw hraw]
      exact execRaw_completes h
    by_cases hpacked : (readIn s 0).toNat / 16 = 1
    · rw [if_neg hraw, if_pos hpacked, decodeHeader_packed hpacked]
      exact execPackedWith_completes unpacker_admitted unpackerDecision h
    by_cases hrle : (readIn s 0).toNat / 16 = 2
    · rw [if_neg hraw, if_neg hpacked, if_pos hrle, decodeHeader_rle hrle]
      exact execRle_completes h
    · rw [if_neg hraw, if_neg hpacked, if_neg hrle,
        exec_of_mem_invalidOps (decodeHeader_invalid (readIn s 0) (by omega)),
        ← headerCode_toNat, BitVec.ofNat_toNat, BitVec.ofNat_toNat, BitVec.setWidth_eq]
      exact enterInvalid_completes _ s

/-- A LEN above IN_MAX (R151). -/
theorem raiseInputRange_completes (s : State) :
    completesWith (.err .inputRange 0 (BitVec.ofNat 64 s.regs.len)) s (.next (raiseInputRange s)) :=
  completesWith_raise _ (sameOutside_refl s) (by decide)

/-- From HEADER the core computes `DecodeBlock`, InputRange among its results (R151, R152). -/
theorem runCore_completes {s : State} (hinv : s.Inv) (hp : s.phase = .header) :
    completesWith (decodeBlock unpacker s.params.inMax s.regs.cap (blockBytes s)) s (runCore s) := by
  have hbusy : s.status.busy = true := hinv.busy_phase.2 (by rw [hp]; decide)
  rw [runCore_eq, if_pos hbusy, if_pos hp]
  by_cases hlen : s.params.inMax < s.regs.len
  · have hlen' : (blockBytes s).length = s.regs.len := bytesAt_length s 0 _
    rw [if_pos hlen, decodeBlock_inputRange unpacker _ (hlen'.symm ▸ hlen), hlen']
    exact raiseInputRange_completes s
  · rw [if_neg hlen]
    exact exec_fetchInstr_completes ⟨hinv, hp, Nat.not_lt.1 hlen⟩

end Sys2Proof.Machine

/-! The statements of `spec/00_scope.md`: the operation computes `DecodeBlock` (R6), and `DecodeBlock`
gives back each sequence from the block that encodes it (R2). -/

namespace Sys2Proof.Machine

/-! ### DecodeBlock undoes the encoders -/

/-- The running sums of the written differences are the sequence (R173, R174). -/
theorem prefixSums_differences (before : Word) (values : List Word) :
    prefixSums before ((differences before values).map zigzagEncode) = values := by
  induction values generalizing before with
  | nil => rfl
  | cons v vs ih =>
    have hv : before + (v - before) = v := by rw [BitVec.add_comm, BitVec.sub_add_cancel]
    rw [differences, List.map_cons, prefixSums, ofInt_signFold_zigzagEncode, hv, ih]

theorem differences_length (before : Word) (values : List Word) :
    (differences before values).length = values.length := by
  induction values generalizing before with
  | nil => rfl
  | cons v vs ih => rw [differences, List.length_cons, ih, List.length_cons]

/-- A payload that begins with a written word is not too short, and the rest follows the word. -/
theorem not_lt_eight_beBytes_append (w : Word) (rest : List Byte) :
    ¬ (beBytes w ++ rest).length < 8 := by
  rw [List.length_append, beBytes_length]
  omega

theorem drop_eight_beBytes_append (w : Word) (rest : List Byte) : (beBytes w ++ rest).drop 8 = rest :=
  List.drop_left' (beBytes_length w)

/-- Raw: the block of a sequence's differences gives it back. -/
theorem rawResult_differences {cap : Nat} {values : List Word} (hcap : values.length ≤ cap) :
    rawResult cap ((differences 0 values).flatMap fun d => beBytes (zigzagEncode d)) = .ok values := by
  have hpayload : ((differences 0 values).flatMap fun d => beBytes (zigzagEncode d)) =
      ((differences 0 values).map zigzagEncode).flatMap beBytes :=
    (List.flatMap_map ..).symm
  have hwords := wordsOf_flatMap_beBytes ((differences 0 values).map zigzagEncode)
    (trailing := []) (by decide)
  rw [List.append_nil] at hwords
  rw [hpayload, rawResult, flatMap_beBytes_length, List.length_map, differences_length, hwords,
    prefixSums_differences, sized, if_neg (by omega), if_neg (by omega)]

/-- Packed-Delta: so does a block whose words unpack to them. -/
theorem packedResult_differences {u : Unpacker} (hu : u.Admitted) {cap : Nat} {first : Word}
    {values words : List Word} {trailing : List Byte} (htrailing : trailing.length ≤ 7)
    (hwords : u.lists words = some ((differences first values).map zigzagEncode))
    (hcap : 1 + values.length ≤ cap) :
    packedResult u cap (beBytes (zigzagEncode first) ++ words.flatMap beBytes ++ trailing) =
      .ok (first :: values) := by
  have hwords' : u.lists (wordsOf (words.flatMap beBytes ++ trailing)) =
      some ((differences first values).map zigzagEncode) := by
    rw [wordsOf_flatMap_beBytes words (by omega), hwords]
  have hcount := hu.count_ok hwords'
  rw [List.length_map, differences_length] at hcount
  rw [packedResult, List.append_assoc, if_neg (not_lt_eight_beBytes_append _ _),
    drop_eight_beBytes_append, hcount, firstWord_beBytes_append, ofInt_signFold_zigzagEncode, hwords']
  simp only [Option.getD_some, prefixSums_differences, sized]
  rw [if_neg (by omega)]

/-- Run-Length: the block of a progression gives it back. -/
theorem rleResult_progression {cap count : Nat} {first delta : Word} (hpos : 1 ≤ count)
    (hmax : count ≤ maxWord) (hcap : count ≤ cap) :
    rleResult cap
        (beBytes (zigzagEncode first) ++ uvarint (zigzagEncode delta) ++
          uvarint (BitVec.ofNat 64 (count - 1))) = .ok (progression first delta count) := by
  have hfield : (BitVec.ofNat 64 (count - 1)).toNat + 1 = count := by
    rw [BitVec.toNat_ofNat, Nat.mod_eq_of_lt (by rw [maxWord] at hmax; omega)]
    omega
  have hcount := varintValue_uvarint_append (BitVec.ofNat 64 (count - 1)) []
  rw [List.append_nil] at hcount
  rw [rleResult, List.append_assoc, if_neg (not_lt_eight_beBytes_append _ _),
    drop_eight_beBytes_append, varintValue_uvarint_append, firstWord_beBytes_append, ofInt_signFold_zigzagEncode]
  simp only [hcount, hfield, BitVec.ofNat_toNat, BitVec.setWidth_eq, ofInt_signFold_zigzagEncode, sized]
  rw [if_neg (by omega)]

/-- The header's code selects the strategy, whatever its low nibble is (R92, R102). -/
theorem decodeBlock_headerByte_raw (u : Unpacker) {inMax : Nat} (cap : Nat) {lo : Nibble}
    {payload : List Byte} (hlen : (headerByte 0 lo :: payload).length ≤ inMax) :
    decodeBlock u inMax cap (headerByte 0 lo :: payload) = rawResult cap payload := by
  rw [decodeBlock_cons u cap hlen, headerByte_high, if_pos (by decide)]

theorem decodeBlock_headerByte_packed (u : Unpacker) {inMax : Nat} (cap : Nat) {lo : Nibble}
    {payload : List Byte} (hlen : (headerByte 1 lo :: payload).length ≤ inMax) :
    decodeBlock u inMax cap (headerByte 1 lo :: payload) = packedResult u cap payload := by
  rw [decodeBlock_cons u cap hlen, headerByte_high, if_neg (by decide), if_pos (by decide)]

theorem decodeBlock_headerByte_rle (u : Unpacker) {inMax : Nat} (cap : Nat) {lo : Nibble}
    {payload : List Byte} (hlen : (headerByte 2 lo :: payload).length ≤ inMax) :
    decodeBlock u inMax cap (headerByte 2 lo :: payload) = rleResult cap payload := by
  rw [decodeBlock_cons u cap hlen, headerByte_high, if_neg (by decide), if_neg (by decide),
    if_pos (by decide)]

/-! ### The machine on a given block -/

theorem blockBytes_of_holdsBlock {s : State} {bs : List Byte} (h : holdsBlock s bs) :
    blockBytes s = bs := by
  obtain ⟨hlen, hat⟩ := h
  rw [blockBytes, hlen]
  exact hat

/-- An operation on a given block completes with what `DecodeBlock` makes of it. -/
theorem exec_fetchInstr_of_holdsBlock {s : State} {bs : List Byte} {r : Result} (h : s.AtHeader)
    (hbs : holdsBlock s bs)
    (hr : bs.length ≤ s.params.inMax → decodeBlock unpacker s.params.inMax s.regs.cap bs = r) :
    ∃ t, exec (fetchInstr s) s = .next t ∧ hostResult t = some r := by
  obtain ⟨t, hexec, -, hres⟩ := exec_fetchInstr_completes h
  rw [blockBytes_of_holdsBlock hbs, hr (hbs.1 ▸ h.len_le)] at hres
  exact ⟨t, hexec, hres⟩

/-! ### Fetching -/

theorem fetchInstr_of_decode {s : State} {i : Instr} {rest : List Byte}
    (h : decode (fetchBytes s) = (i, rest)) : fetchInstr s = i := by
  rw [fetchInstr, h]

/-- At HEADER, on a block inside IN, the core runs the fetched instruction (R151, R152). -/
theorem runCore_at_header {s : State} (hbusy : s.status.busy = true) (hp : s.phase = .header)
    (hlen : s.regs.len ≤ s.params.inMax) : runCore s = exec (fetchInstr s) s := by
  rw [runCore_eq, if_pos hbusy, if_pos hp, if_neg (Nat.not_lt.2 hlen)]

theorem step_of_no_event {s : State} (h : s.events = []) : step s = runCore s := by
  rw [step_eq, h]

theorem step_of_event {s : State} {e : Event} {es : List Event} (h : s.events = e :: es) :
    step s = runEvent e { s with events := es } := by
  rw [step_eq, h]

end Sys2Proof.Machine

namespace Sys2Proof.Proofs

open Sys2Proof.Machine

/-- Settles O57: `DecodeBlock` of the block of differences is the sequence, and the operation computes
`DecodeBlock`. -/
theorem rawReconstructsEverySequence : Obligations.RawReconstructsEverySequence := by
  intro s lo values h hbs hcap
  refine exec_fetchInstr_of_holdsBlock h hbs fun hlen => ?_
  exact (decodeBlock_headerByte_raw unpacker _ hlen).trans (rawResult_differences hcap)

/-- Settles O58, in the same way; the words are all that COUNT and UNPACK see of the payload after the
first value, whatever fragment follows them. -/
theorem packedReconstructsEverySequence : Obligations.PackedReconstructsEverySequence := by
  intro s lo first values words trailing h htrailing hbs hwords hcap
  refine exec_fetchInstr_of_holdsBlock h hbs fun hlen => ?_
  exact (decodeBlock_headerByte_packed unpacker _ hlen).trans
    (packedResult_differences unpacker_admitted htrailing hwords hcap)

/-- Settles O59, in the same way; the count fits its field since no capacity exceeds OUT_MAX. -/
theorem runLengthReconstructsEveryProgression : Obligations.RunLengthReconstructsEveryProgression := by
  intro s first delta count h hpos hcap hbs
  refine exec_fetchInstr_of_holdsBlock h hbs fun hlen => ?_
  exact (decodeBlock_headerByte_rle unpacker _ hlen).trans
    (rleResult_progression hpos (hcap.trans h.cap_le_maxWord) hcap)

/-- Settles O56: each strategy computes its part of the reference. -/
theorem operationComputesDecodeBlock : Obligations.OperationComputesDecodeBlock :=
  fun _ hinv hp => runCore_completes hinv hp

/-- Settles O30: over the admitted unpacker a step is the next event or the core's, and at HEADER the core
runs what it fetched; the event list is no part of what it fetches. -/
theorem stepRunsTheDecodedInstruction : Obligations.StepRunsTheDecodedInstruction := by
  refine ⟨fun s i rest hbusy hp hlen hdec _ => ?_, fun s e es he => step_of_event he⟩
  have hinstr : fetchInstr s = i := fetchInstr_of_decode hdec
  refine ⟨fun he => ?_, fun es he => ?_⟩
  · rw [step_of_no_event he, runCore_at_header hbusy hp hlen, hinstr]
  · subst hinstr
    exact (step_of_event he).trans (runCore_at_header (s := { s with events := es }) hbusy hp hlen)

end Sys2Proof.Proofs

/-! SUPPORT. Memories in canonical form are determined by what they list (assumption 8). -/

namespace Sys2Proof.Machine

/-- The lowest address a memory lists is no higher than any that one listing the same does. -/
theorem Memory.head_le_of_get_eq {α : Type} {b b' : Nat} {v v' : α} {m m' : Memory α}
    (h : Memory.get ((b, v) :: m) b = Memory.get ((b', v') :: m') b) : b' ≤ b := by
  by_contra hlt
  rw [Memory.get_cons, Memory.get_cons, if_pos rfl, if_neg (by omega), if_pos (by omega)] at h
  cases h

/-- Canonical memories that list the same are the same: their lowest cells agree, and then the cells
above them. -/
theorem Memory.ext_of_wf {α : Type} {m m' : Memory α} (h : Memory.wf m = true)
    (h' : Memory.wf m' = true) (hget : ∀ a, Memory.get m a = Memory.get m' a) : m = m' := by
  match m, m' with
  | [], [] => rfl
  | [], (b', v') :: m' =>
    have hb := hget b'
    simp [Memory.get_cons] at hb
  | (b, v) :: m, [] =>
    have hb := hget b
    simp [Memory.get_cons] at hb
  | (b, v) :: m, (b', v') :: m' =>
    obtain rfl : b = b' :=
      le_antisymm (Memory.head_le_of_get_eq (hget b').symm) (Memory.head_le_of_get_eq (hget b))
    obtain rfl : v = v' := by simpa [Memory.get_cons] using hget b
    refine congrArg _ (Memory.ext_of_above h h' fun a => ?_)
    rcases Nat.lt_or_ge b a with hlt | hge
    · simpa [Memory.get_cons, show ¬ a = b by omega, show ¬ a < b by omega] using hget a
    · rw [Memory.get_of_above h hge, Memory.get_of_above h' hge]

end Sys2Proof.Machine

/-! SUPPORT. The host's registers: their values as numbers, and the writes that are ignored. -/

namespace Sys2Proof.Machine

/-- Bits put above others count at their weight. -/
theorem append_toNat {m n : Nat} (x : BitVec m) (y : BitVec n) :
    (x ++ y).toNat = 2 ^ n * x.toNat + y.toNat := by
  rw [BitVec.toNat_append, ← Nat.shiftLeft_add_eq_or_of_lt y.isLt, Nat.shiftLeft_eq, Nat.mul_comm]

/-- STATUS as a number: each field at its weight (R23). -/
theorem status_word_toNat (f : Status) :
    f.word.toNat =
      f.busy.toNat + 2 * f.done.toNat + 4 * f.err.toNat + 8 * f.empty.toNat +
        16 * f.errKind.code.toNat + 256 * f.errNibble.toNat + 4096 * f.handler.toNat := by
  simp only [Status.word, append_toNat, BitVec.toNat_ofBool, BitVec.toNat_ofNat]
  omega

/-- CTRL as a number: IRQ_EN is bit 2 (R22). -/
theorem ctrlWord_toNat (irqEn : Bool) : (ctrlWord irqEn).toNat = 4 * irqEn.toNat := by
  cases irqEn <;> rfl

/-- A reserved register reads 0 (R28). -/
theorem regValue_reserved {n : Nat} (hn : 6 ≤ n) (s : State) : regValue s n = 0 := by
  match n with
  | n + 6 => rfl

/-- A write to any register but CTRL, IN_LEN and OUT_CAP is ignored (R23, R26 to R28). -/
theorem regWrite_ignored {n : Nat} (h0 : n ≠ 0) (h2 : n ≠ 2) (h3 : n ≠ 3) (v : Word) (s : State) :
    regWrite n v s = s := by
  rcases regWrite_cases n v s with ⟨hn, -⟩ | ⟨hn, -⟩ | ⟨hn, -⟩ | ⟨-, -, he⟩
  · exact absurd hn h0
  · exact absurd hn h2
  · exact absurd hn h3
  · exact he

theorem regWrite_inLen_idle {s : State} (hb : s.status.busy = false) (v : Word) :
    regWrite 2 v s = { s with inLen := v } := by simp [regWrite, hb]

theorem regWrite_outCap_idle {s : State} (hb : s.status.busy = false) (v : Word) :
    regWrite 3 v s = { s with outCap := v } := by simp [regWrite, hb]

theorem irq_iff (s : State) : s.irq = true ↔ s.status.done = true ∧ s.irqEn = true :=
  Bool.and_eq_true_iff

/-- After a CTRL write that starts, clears, or turns the interrupt off, irq is 0 (R33). -/
theorem ctrlWrite_irq_false {s : State} {v : Word}
    (h : (s.status.busy = false ∧ (v.getLsbD 0 = true ∨ v.getLsbD 1 = true)) ∨ v.getLsbD 2 = false) :
    (ctrlWrite v s).irq = false := by
  have hoff (h2 : v.getLsbD 2 = false) : State.irq { s with irqEn := v.getLsbD 2 } = false := by
    rw [State.irq, h2, Bool.and_false]
  rcases ctrlWrite_cases v s with ⟨hb, he⟩ | ⟨-, -, he⟩ | ⟨-, -, -, he⟩ | ⟨-, h0, h1, he⟩ <;>
    rw [he]
  · exact hoff (h.resolve_left fun ⟨hidle, _⟩ => by simp [hb] at hidle)
  · rfl
  · rfl
  · exact hoff (h.resolve_left fun ⟨_, hbit⟩ => by
      simp only [h0, h1, Bool.false_eq_true, or_self] at hbit)

/-- After reset every register reads 0 (R50). -/
theorem regValue_reset (n : Nat) : regValue State.reset n = 0 := by
  match n with
  | 0 | 1 | 2 | 3 | 4 | 5 => rfl
  | n + 6 => rfl

end Sys2Proof.Machine

/-! SUPPORT. The invariant taken apart: what it says of the parameters and the memories, and of STATUS and
the result registers; and the two ways to put it together again, for an idle core and for one at work. -/

namespace Sys2Proof.Machine

/-- What the invariant says of the parameters and the memories: their ranges (R9, R30, R31) and the
canonical form (assumption 8). -/
structure MemoriesFit (params : Params) (inMem : Memory Byte) (outMem : Memory Word) : Prop where
  inMax_pos : 1 ≤ params.inMax
  inMax_le : params.inMax ≤ maxWord
  outMax_le : params.outMax ≤ maxWord
  inMem_wf : Memory.wf inMem = true
  inMem_below : Memory.below params.inMax inMem = true
  outMem_wf : Memory.wf outMem = true
  outMem_below : Memory.below params.outMax outMem = true

/-- The memories of a state are as the invariant asks. -/
abbrev State.Fits (s : State) : Prop := MemoriesFit s.params s.inMem s.outMem

/-- What the invariant says of STATUS, RESULT_LEN and ERR_INFO, whatever BUSY is (R23, R26, R310). -/
structure LegalResult (outMax : Nat) (status : Status) (resultLen errInfo : Word) : Prop where
  err_kind : status.err = true ↔ status.errKind ≠ .none
  empty_ok : status.empty = true → status.err = false ∧ resultLen = 0
  nibble : status.errKind ≠ .unknownEncoding → status.errNibble = 0
  ok_info : status.err = false → errInfo = 0
  err_result : status.err = true → resultLen = 0
  result_le : resultLen.toNat ≤ outMax

/-! ### The invariant's parts -/

theorem State.InvWith.fits {u : Unpacker} {s : State} (h : s.InvWith u) : s.Fits :=
  ⟨h.inMax_pos, h.inMax_le, h.outMax_le, h.inMem_wf, h.inMem_below, h.outMem_wf, h.outMem_below⟩

theorem State.InvWith.legal {u : Unpacker} {s : State} (h : s.InvWith u) :
    LegalResult s.params.outMax s.status s.resultLen s.errInfo :=
  ⟨h.err_kind, h.empty_ok, h.nibble, h.ok_info, h.err_result, h.result_le⟩

theorem State.InvWith.phase_idle {u : Unpacker} {s : State} (h : s.InvWith u)
    (hb : s.status.busy = false) : s.phase = .idle := by
  by_contra hp
  rw [h.busy_phase.2 hp] at hb
  cases hb

/-- The capacity of an operation is at most OUT_MAX (R37). -/
theorem State.InvWith.cap_le_outMax {u : Unpacker} {s : State} (h : s.InvWith u)
    (hp : s.phase ≠ .idle) : s.regs.cap ≤ s.params.outMax := by
  rw [(h.busy_operands (h.busy_phase.2 hp)).2]
  exact Nat.min_le_right _ _

/-- Storing keeps the memories in form. -/
theorem State.Fits.writeIn {s : State} (h : s.Fits) (p : Nat) (b : Byte) : (writeIn s p b).Fits :=
  { h with inMem_wf := writeIn_inMem_wf h.inMem_wf p b
           inMem_below := writeIn_inMem_below h.inMem_below p b }

theorem State.Fits.writeOut {s : State} (h : s.Fits) (i : Nat) (v : Word) : (writeOut s i v).Fits :=
  { h with outMem_wf := writeOut_outMem_wf h.outMem_wf i v
           outMem_below := writeOut_outMem_below h.outMem_below i v }

theorem legalResult_raise {kind : ErrKind} (hk : kind ≠ .none) (outMax : Nat) (nib : Nibble)
    (code : BitVec 2) (info : Word) : LegalResult outMax (errorStatus kind nib code) 0 info where
  err_kind := ⟨fun _ => hk, fun _ => rfl⟩
  empty_ok := Bool.noConfusion
  nibble h := if_neg h
  ok_info := Bool.noConfusion
  err_result _ := rfl
  result_le := Nat.zero_le _

theorem legalResult_ok {outMax : Nat} {resultLen : Word} (h : resultLen.toNat ≤ outMax)
    (code : BitVec 2) : LegalResult outMax (okStatus code) resultLen 0 where
  err_kind := ⟨Bool.noConfusion, fun hk => absurd rfl hk⟩
  empty_ok := Bool.noConfusion
  nibble _ := rfl
  ok_info _ := rfl
  err_result := Bool.noConfusion
  result_le := h

/-- STATUS, RESULT_LEN and ERR_INFO with no outcome to report: after reset, after START and after the
empty block. -/
theorem legalResult_zero {outMax : Nat} {status : Status} (he : status.err = false)
    (hk : status.errKind = .none) (hn : status.errNibble = 0) : LegalResult outMax status 0 0 where
  err_kind := by simp [he, hk]
  empty_ok _ := ⟨he, rfl⟩
  nibble _ := hn
  ok_info _ := rfl
  err_result _ := rfl
  result_le := Nat.zero_le _

/-! ### Putting the invariant together -/

theorem State.InvWith.of_idle {u : Unpacker} {s : State} (hfits : s.Fits)
    (hlegal : LegalResult s.params.outMax s.status s.resultLen s.errInfo)
    (hb : s.status.busy = false) (hp : s.phase = .idle) : s.InvWith u :=
  { hfits, hlegal with
    busy_phase := by simp [hb, hp]
    busy_result := by simp [hb]
    busy_operands := by simp [hb]
    phase_inv := by simp only [phaseInv, hp] }

theorem State.InvWith.of_busy {u : Unpacker} {s : State} (hfits : s.Fits)
    (hresult : s.status = startStatus ∧ s.resultLen = 0 ∧ s.errInfo = 0)
    (hoperands : s.regs.len = s.inLen.toNat ∧ s.regs.cap = min s.outCap.toNat s.params.outMax)
    (hp : s.phase ≠ .idle) (hinv : phaseInv u s) : s.InvWith u := by
  obtain ⟨hstatus, hlen, hinfo⟩ := hresult
  have hlegal : LegalResult s.params.outMax s.status s.resultLen s.errInfo := by
    rw [hstatus, hlen, hinfo]
    exact legalResult_zero rfl rfl rfl
  exact
    { hfits, hlegal with
      busy_phase := by simp [hstatus, startStatus, hp]
      busy_result := fun _ => ⟨hstatus, hlen, hinfo⟩
      busy_operands := fun _ => hoperands
      phase_inv := hinv }

/-! ### Steps that end or begin an operation -/

theorem raise_inv {u : Unpacker} {s : State} (h : s.Fits) {kind : ErrKind} (hk : kind ≠ .none)
    (info : Word) : (raise kind info s).InvWith u :=
  .of_idle h (legalResult_raise hk _ _ _ info) rfl rfl

theorem returnOk_inv {u : Unpacker} {s : State} (h : s.Fits) (hn : s.regs.nout ≤ s.params.outMax) :
    (returnOk s).InvWith u :=
  .of_idle h (legalResult_ok ((Nat.mod_le _ _).trans hn) _) rfl rfl

theorem returnOkEmpty_inv {u : Unpacker} {s : State} (h : s.Fits) : (returnOkEmpty s).InvWith u :=
  .of_idle h (legalResult_zero rfl rfl rfl) rfl rfl

theorem startOperation_inv {u : Unpacker} {s : State} (h : s.Fits) : (startOperation s).InvWith u :=
  .of_busy h ⟨rfl, rfl, rfl⟩ ⟨rfl, rfl⟩ Phase.noConfusion rfl

theorem resetBlock_inv {u : Unpacker} {s : State} (h : s.Fits) : (resetBlock s).InvWith u :=
  .of_idle { h with inMem_wf := rfl, inMem_below := rfl, outMem_wf := rfl, outMem_below := rfl }
    (legalResult_zero rfl rfl rfl) rfl rfl

/-- The parameters the configuration leaves open lie in their ranges (R9). -/
theorem reset_inv {u : Unpacker} : State.reset.InvWith u :=
  .of_idle
    { inMax_pos := Nat.le_add_left 1 _
      inMax_le := Config.inMaxLessOne.isLt
      outMax_le := Nat.le_of_lt_succ Config.outMaxWord.isLt
      inMem_wf := rfl, inMem_below := rfl, outMem_wf := rfl, outMem_below := rfl }
    (legalResult_zero rfl rfl rfl) rfl rfl

/-! ### What the invariant does not look at -/

/-- What `phaseInv` depends on. -/
theorem phaseInv_congr {u : Unpacker} {s t : State} (hp : t.phase = s.phase) (hr : t.regs = s.regs)
    (hm : t.params = s.params) (hread : ∀ p, readIn t p = readIn s p) (h : phaseInv u s) :
    phaseInv u t := by
  have hbytes (p n : Nat) : bytesAt t p n = bytesAt s p n := bytesAt_congr fun q _ _ => hread q
  unfold phaseInv at h ⊢
  simp only [hp, hr, hm, hbytes]
  exact h

/-- The invariant says nothing of IRQ_EN and of the model's own events, replies and draws. -/
theorem State.InvWith.host_fields {u : Unpacker} {s : State} (h : s.InvWith u) (irqEn : Bool)
    (events : List Event) (replies : List Reply) (draws : Nat) :
    State.InvWith u
      { s with irqEn := irqEn, events := events, replies := replies, draws := draws } :=
  { h with phase_inv := phaseInv_congr (s := s) rfl rfl rfl (fun _ => rfl) h.phase_inv }

end Sys2Proof.Machine

/-! SUPPORT. What a phase of the core can do, said once: it ends the operation, or it goes on with it and
then writes no register the host can see. -/

namespace Sys2Proof.Machine

/-- `t` goes on with the operation of `s`: STATUS, RESULT_LEN, ERR_INFO, LEN and CAP are as they were
(R32, R37), the core is not idle and the memories are still in form. -/
structure GoesOn (s t : State) : Prop where
  status : t.status = s.status
  resultLen : t.resultLen = s.resultLen
  errInfo : t.errInfo = s.errInfo
  len : t.regs.len = s.regs.len
  cap : t.regs.cap = s.regs.cap
  phase : s.phase ≠ .idle → t.phase ≠ .idle
  fits : s.Fits → t.Fits

theorem GoesOn.refl (s : State) : GoesOn s s := ⟨rfl, rfl, rfl, rfl, rfl, id, id⟩

theorem GoesOn.trans {s t v : State} (h : GoesOn s t) (h' : GoesOn t v) : GoesOn s v where
  status := h'.status.trans h.status
  resultLen := h'.resultLen.trans h.resultLen
  errInfo := h'.errInfo.trans h.errInfo
  len := h'.len.trans h.len
  cap := h'.cap.trans h.cap
  phase := h'.phase ∘ h.phase
  fits := h'.fits ∘ h.fits

/-! ### The elements of the loops -/

theorem rawElementStep_goesOn (s : State) : GoesOn s (rawElementStep s) :=
  ⟨rfl, rfl, rfl, rfl, rfl, id, fun h => State.Fits.writeOut (by exact h) _ _⟩

theorem rleElementStep_goesOn (s : State) : GoesOn s (rleElementStep s) := by
  rcases rleElementStep_cases s with ⟨-, h⟩ | ⟨-, h⟩ <;> rw [h] <;>
    exact ⟨rfl, rfl, rfl, rfl, rfl, id, fun h => State.Fits.writeOut (by exact h) _ _⟩

theorem pkValueStep_goesOn (s : State) (v : Word) : GoesOn s (pkValueStep s v) :=
  ⟨rfl, rfl, rfl, rfl, rfl, id, fun h => State.Fits.writeOut (by exact h) _ _⟩

theorem pkValues_goesOn (vs : List Word) (s : State) : GoesOn s (vs.foldl pkValueStep s) := by
  induction vs generalizing s with
  | nil => exact .refl s
  | cons v vs ih => exact (pkValueStep_goesOn s v).trans (ih _)

/-! ### The phases -/

/-- `t` is `s` after an error completion, or after the success completion of FINISH, or it goes on with
the operation, POS not falling (R41). -/
def PhaseOutcome (s t : State) : Prop :=
  (∃ kind info, kind ≠ .none ∧ t = raise kind info s) ∨
  (s.phase = .finish ∧ t = returnOk s) ∨
  (GoesOn s t ∧ s.regs.pos ≤ t.regs.pos)

theorem PhaseOutcome.of_raise {s : State} {kind : ErrKind} {info : Word} (hk : kind ≠ .none) :
    PhaseOutcome s (raise kind info s) := .inl ⟨kind, info, hk, rfl⟩

/-- A phase that changes no more than PHASE and registers other than LEN and CAP. -/
theorem PhaseOutcome.of_regs {s : State} {p : Phase} {r : CoreRegs} (hp : p ≠ .idle)
    (hlen : r.len = s.regs.len) (hcap : r.cap = s.regs.cap) (hpos : s.regs.pos ≤ r.pos) :
    PhaseOutcome s { s with phase := p, regs := r } :=
  .inr (.inr ⟨⟨rfl, rfl, rfl, hlen, hcap, fun _ => hp, id⟩, hpos⟩)

theorem rawLoopPhase_outcome (s : State) : PhaseOutcome s (rawLoopPhase s) := by
  rcases rawLoopPhase_cases s with ⟨-, h⟩ | ⟨-, h⟩ <;> rw [h]
  · exact .inr (.inr ⟨rawElementStep_goesOn s, Nat.le_add_right _ _⟩)
  · exact .of_regs (by decide) rfl rfl (le_refl _)

theorem pkFirstPhase_outcome (s : State) : PhaseOutcome s (pkFirstPhase s) := by
  rcases pkFirstPhase_cases s with ⟨-, h⟩ | ⟨-, h⟩ <;> rw [h]
  · exact .of_raise (by decide)
  · exact .of_regs (by decide) rfl rfl (Nat.le_add_right _ _)

theorem pkSize_outcome (n : Nat) (s : State) : PhaseOutcome s (pkSize n s) := by
  rcases pkSize_cases n s with ⟨-, h⟩ | ⟨-, h⟩ <;> rw [h]
  · exact .of_raise (by decide)
  · exact .inr (.inr ⟨⟨rfl, rfl, rfl, rfl, rfl, fun _ => Phase.noConfusion,
      fun h => State.Fits.writeOut (by exact h) _ _⟩, le_refl _⟩)

theorem pkCountPhase_outcome (u : Unpacker) (s : State) : PhaseOutcome s (pkCountPhase u s) := by
  rcases pkCountPhase_cases u s with ⟨d, -, h⟩ | ⟨n, -, h⟩ <;> rw [h]
  · exact .of_raise (by decide)
  · exact pkSize_outcome n s

theorem pkLoopPhase_outcome (u : Unpacker) (s : State) : PhaseOutcome s (pkLoopPhase u s) := by
  rcases pkLoopPhase_cases u s with ⟨-, h⟩ | ⟨-, ⟨d, -, h⟩ | ⟨vs, -, h⟩⟩ <;> rw [h]
  · exact .of_regs (by decide) rfl rfl (le_refl _)
  · exact .of_raise (by decide)
  · refine .inr (.inr ⟨GoesOn.trans (t := advance s 8) ⟨rfl, rfl, rfl, rfl, rfl, id, id⟩
      (pkValues_goesOn vs _), ?_⟩)
    rw [pkValues_regs]
    exact Nat.le_add_right _ _

theorem rleFirstPhase_outcome (s : State) : PhaseOutcome s (rleFirstPhase s) := by
  rcases rleFirstPhase_cases s with ⟨-, h⟩ | ⟨-, h⟩ <;> rw [h]
  · exact .of_raise (by decide)
  · exact .of_regs (by decide) rfl rfl (Nat.le_add_right _ _)

theorem rleDeltaPhase_outcome (s : State) : PhaseOutcome s (rleDeltaPhase s) := by
  rcases rleDeltaPhase_cases s with ⟨-, h⟩ | ⟨v, n, -, h⟩ <;> rw [h]
  · exact .of_raise (by decide)
  · exact .of_regs (by decide) rfl rfl (Nat.le_add_right _ _)

theorem rleSize_outcome (count n : Nat) (s : State) : PhaseOutcome s (rleSize count n s) := by
  rcases rleSize_cases count n s with ⟨-, h⟩ | ⟨-, h⟩ <;> rw [h]
  · exact .of_raise (by decide)
  · exact .of_regs (by decide) rfl rfl (Nat.le_add_right _ _)

theorem rleCountPhase_outcome (s : State) : PhaseOutcome s (rleCountPhase s) := by
  rcases rleCountPhase_cases s with ⟨-, h⟩ | ⟨v, n, -, h⟩ <;> rw [h]
  · exact .of_raise (by decide)
  · exact rleSize_outcome _ n s

theorem rleFillPhase_outcome (s : State) : PhaseOutcome s (rleFillPhase s) := by
  rcases rleFillPhase_cases s with ⟨-, h⟩ | ⟨-, h⟩ <;> rw [h]
  · refine .inr (.inr ⟨rleElementStep_goesOn s, ?_⟩)
    rw [rleElementStep_regs]
  · exact .of_regs (by decide) rfl rfl (le_refl _)

/-- Everything a phase after the dispatch can do. -/
theorem phaseStep_outcome (u : Unpacker) (s : State) : PhaseOutcome s (phaseStep u s) := by
  unfold phaseStep
  split
  case h_1 | h_2 => exact .inr (.inr ⟨.refl s, le_refl _⟩)
  case h_3 => exact rawLoopPhase_outcome s
  case h_4 => exact pkFirstPhase_outcome s
  case h_5 => exact pkCountPhase_outcome u s
  case h_6 => exact pkLoopPhase_outcome u s
  case h_7 => exact rleFirstPhase_outcome s
  case h_8 => exact rleDeltaPhase_outcome s
  case h_9 => exact rleCountPhase_outcome s
  case h_10 => exact rleFillPhase_outcome s
  case h_11 hp => exact .inr (.inl ⟨hp, rfl⟩)

/-! ### The step at HEADER -/

/-- Every instruction but EMPTY begins one of the strategies or ends with UnknownEncoding (R156). -/
theorem enter_of_ne_empty {i : Instr} (hi : i ≠ .empty) (s : State) :
    enter i s = enterRaw s ∨ enter i s = enterPacked s ∨ enter i s = enterRle s ∨
      ∃ nib, enter i s = enterInvalid nib s := by
  cases i with
  | empty => exact absurd rfl hi
  | raw lo => exact .inl rfl
  | packed lo => exact .inr (.inl rfl)
  | rle lo => exact .inr (.inr (.inl rfl))
  | _ => exact .inr (.inr (.inr ⟨_, rfl⟩))

/-- A header byte selects no EMPTY (R102). -/
theorem decodeHeader_ne_empty (h : Byte) : decodeHeader h ≠ .empty := by
  unfold decodeHeader
  split <;> exact Instr.noConfusion

/-- The step at HEADER is EMPTY's when LEN = 0 (R153), else one of those of a header byte. -/
theorem enter_fetchInstr_cases (s : State) :
    enter (fetchInstr s) s = returnOkEmpty s ∨
    (1 ≤ s.regs.len ∧
      (enter (fetchInstr s) s = enterRaw s ∨ enter (fetchInstr s) s = enterPacked s ∨
        enter (fetchInstr s) s = enterRle s ∨
        ∃ nib, enter (fetchInstr s) s = enterInvalid nib s)) := by
  by_cases hlen : s.regs.len = 0
  · have hinstr : fetchInstr s = .empty := by rw [fetchInstr, fetchBytes, if_pos hlen]; rfl
    exact .inl (hinstr.symm ▸ rfl)
  · have hinstr : fetchInstr s = decodeHeader (readIn s 0) := by
      rw [fetchInstr, fetchBytes, if_neg hlen]; rfl
    exact .inr ⟨Nat.one_le_iff_ne_zero.2 hlen,
      enter_of_ne_empty (hinstr ▸ decodeHeader_ne_empty _) s⟩

/-- Raw's checks end the operation, or the Raw loop begins. -/
theorem enterRaw_cases (s : State) :
    (∃ kind info, kind ≠ .none ∧ enterRaw s = raise kind info (dispatchTo 0 s)) ∨
    (payloadLen s % 8 = 0 ∧ payloadLen s / 8 ≤ s.regs.cap ∧ enterRaw s = rawStart s) := by
  rcases rawSize_cases (dispatchTo 0 s) with ⟨-, h⟩ | ⟨-, -, h⟩ | ⟨hmod, hcap, h⟩
  · exact .inl ⟨_, _, by decide, h⟩
  · exact .inl ⟨_, _, by decide, h⟩
  · exact .inr ⟨hmod, hcap, h⟩

/-- The step at HEADER ends the operation or goes on with it. -/
theorem enter_outcome (s : State) :
    enter (fetchInstr s) s = returnOkEmpty s ∨
    (∃ kind info nib, kind ≠ .none ∧ enter (fetchInstr s) s = raise kind info (dispatchTo nib s)) ∨
    GoesOn s (enter (fetchInstr s) s) := by
  rcases enter_fetchInstr_cases s with h | ⟨-, h | h | h | ⟨nib, h⟩⟩
  · exact .inl h
  · rw [h]
    rcases enterRaw_cases s with ⟨kind, info, hk, hraw⟩ | ⟨-, -, hraw⟩
    · exact .inr (.inl ⟨kind, info, 0, hk, hraw⟩)
    · rw [hraw]
      exact .inr (.inr ⟨rfl, rfl, rfl, rfl, rfl, fun _ => Phase.noConfusion, id⟩)
  · rw [h]
    exact .inr (.inr ⟨rfl, rfl, rfl, rfl, rfl, fun _ => Phase.noConfusion, id⟩)
  · rw [h]
    exact .inr (.inr ⟨rfl, rfl, rfl, rfl, rfl, fun _ => Phase.noConfusion, id⟩)
  · exact .inr (.inl ⟨_, _, nib, by decide, h⟩)

/-! ### The core's move -/

/-- Everything a move of the core by one phase can be, over any unpacker. -/
theorem phaseCoreWith_cases {u : Unpacker} {s t : State} (h : phaseCoreWith u s = .next t) :
    (s.status.busy = false ∧ t = s) ∨
    (s.status.busy = true ∧ s.phase = .header ∧ s.params.inMax < s.regs.len ∧
      t = raiseInputRange s) ∨
    (s.status.busy = true ∧ s.phase = .header ∧ s.regs.len ≤ s.params.inMax ∧
      t = enter (fetchInstr s) s) ∨
    (s.status.busy = true ∧ s.phase ≠ .header ∧ t = phaseStep u s) := by
  unfold phaseCoreWith at h
  split at h
  · rename_i hb
    split at h
    · rename_i hp
      split at h <;> cases h
      · exact .inr (.inl ⟨hb, hp, ‹_›, rfl⟩)
      · exact .inr (.inr (.inl ⟨hb, hp, Nat.not_lt.1 ‹_›, rfl⟩))
    · cases h
      exact .inr (.inr (.inr ⟨hb, ‹_›, rfl⟩))
  · cases h
    exact .inl ⟨Bool.eq_false_of_not_eq_true ‹_›, rfl⟩

/-- A move of the core after which BUSY is still 1 goes on with the operation; after the dispatch, POS
has not fallen. -/
theorem phaseCoreWith_goesOn {u : Unpacker} {s t : State} (h : phaseCoreWith u s = .next t)
    (ht : t.status.busy = true) :
    GoesOn s t ∧ (s.phase ≠ .header → s.regs.pos ≤ t.regs.pos) := by
  rcases phaseCoreWith_cases h with ⟨-, rfl⟩ | ⟨-, -, -, rfl⟩ | ⟨-, hp, -, rfl⟩ | ⟨-, -, rfl⟩
  · exact ⟨.refl t, fun _ => le_refl _⟩
  · cases ht
  · rcases enter_outcome s with he | ⟨kind, info, nib, -, he⟩ | he
    · rw [he] at ht; cases ht
    · rw [he] at ht; cases ht
    · exact ⟨he, absurd hp⟩
  · rcases phaseStep_outcome u s with ⟨kind, info, -, he⟩ | ⟨-, he⟩ | ⟨he, hpos⟩
    · rw [he] at ht; cases ht
    · rw [he] at ht; cases ht
    · exact ⟨he, fun _ => hpos⟩

end Sys2Proof.Machine

/-! SUPPORT. Each phase leaves the core's registers as the phase after it asks (R41 to R44), so the core and
the host keep the invariant. -/

namespace Sys2Proof.Machine

/-! ### The registers, phase by phase -/

/-- A varint that is read has 1 to 10 bytes and ends inside the block (R125). -/
theorem readUvarint_bounds {s : State} {v : Word} {n : Nat} (h : readUvarint s = some (v, n)) :
    1 ≤ n ∧ n ≤ 10 ∧ s.regs.pos + n ≤ s.regs.len := by
  obtain ⟨hpos, hmax, hlen⟩ := uvarintLoop_bounds h
  exact ⟨hpos, by rw [Config.varintMax] at hmax; omega, hlen⟩

theorem rawStart_phaseInv (u : Unpacker) {s : State} (hlen : 1 ≤ s.regs.len)
    (hmax : s.regs.len ≤ s.params.inMax) (hmod : payloadLen s % 8 = 0)
    (hcap : payloadLen s / 8 ≤ s.regs.cap) : phaseInv u (rawStart s) := by
  refine ⟨rfl, rfl, hmax, hcap, Nat.zero_le _, ?_, rfl⟩
  show s.regs.len = 1 + 8 * (payloadLen s / 8)
  rw [payloadLen] at hmod ⊢
  omega

theorem rawLoopPhase_phaseInv {u : Unpacker} {s : State} (hp : s.phase = .rawLoop)
    (h : phaseInv u s) : phaseInv u (rawLoopPhase s) := by
  simp only [phaseInv, hp] at h
  obtain ⟨hnib, hcode, hmax, hcap, hidx, hlen, hpos⟩ := h
  rcases rawLoopPhase_cases s with ⟨hlt, he⟩ | ⟨hge, he⟩ <;> rw [he]
  · simp only [phaseInv, rawElementStep, writeOut_phase, writeOut_regs, writeOut_params, hp]
    exact ⟨hnib, hcode, hmax, hcap, hlt, hlen, by omega⟩
  · have hend : s.regs.pos = s.regs.len := by omega
    exact ⟨hmax, hend.le, hcap, le_antisymm hidx hge, by simp [hnib, hcode], by simp [hnib],
      fun _ => hend, absurd hnib⟩

theorem pkFirstPhase_phaseInv {u : Unpacker} {s : State} (hp : s.phase = .pkFirst)
    (h : phaseInv u s) : phaseInv u (pkFirstPhase s) := by
  simp only [phaseInv, hp] at h
  obtain ⟨hnib, hcode, hmax, hlen, hpos⟩ := h
  rcases pkFirstPhase_cases s with ⟨-, he⟩ | ⟨h8, he⟩ <;> rw [he]
  · exact trivial
  · rw [payloadLen] at h8
    exact ⟨hnib, hcode, hmax, show 9 ≤ s.regs.len by omega, by simp [hpos]⟩

/-- The bytes COUNT is given hold as many values as it counts (R142), so the words of the decoding pass
hold those that are still to come. -/
theorem pkCountPhase_phaseInv {u : Unpacker} (hu : u.Admitted) {s : State} (hp : s.phase = .pkCount)
    (h : phaseInv u s) : phaseInv u (pkCountPhase u s) := by
  simp only [phaseInv, hp] at h
  obtain ⟨hnib, hcode, hmax, hlen, hpos⟩ := h
  rcases pkCountPhase_cases u s with ⟨d, -, he⟩ | ⟨n, hn, he⟩ <;> rw [he]
  · exact trivial
  rcases pkSize_cases n s with ⟨-, he⟩ | ⟨hcap, he⟩ <;> rw [he]
  · exact trivial
  · obtain ⟨vs, hvs, rfl⟩ := hu.lists_of_count hn
    refine ⟨hnib, hcode, hmax, hpos.ge, hpos.trans_le hlen, le_refl 1, hcap, vs, ?_, rfl⟩
    rw [← hvs]
    exact congrArg (fun bs => u.lists (wordsOf bs)) (bytesAt_congr (s := s) fun _ _ _ => rfl)

/-- The next packed word of the decoding pass, and the values of the words after it. -/
theorem lists_next_word {u : Unpacker} {s : State} {vs : List Word}
    (h : u.lists (wordsOf (bytesAt s s.regs.pos (s.regs.len - s.regs.pos))) = some vs)
    (hpos : s.regs.pos + 8 ≤ s.regs.len) :
    ∃ xs ys, u.unpack (readFixed s) = .ok xs ∧ vs = xs ++ ys ∧
      u.lists (wordsOf (bytesAt s (s.regs.pos + 8) (s.regs.len - (s.regs.pos + 8)))) = some ys := by
  rw [wordsOf_bytesAt, if_pos (by omega), Nat.sub_sub] at h
  obtain ⟨xs, ys, hxs, hys, hvs⟩ := lists_cons h
  exact ⟨xs, ys, hxs, hvs, hys⟩

/-- After the last packed word no value is to come. -/
theorem lists_no_word {u : Unpacker} {s : State} {vs : List Word}
    (h : u.lists (wordsOf (bytesAt s s.regs.pos (s.regs.len - s.regs.pos))) = some vs)
    (hpos : s.regs.len < s.regs.pos + 8) : vs = [] := by
  rw [wordsOf_bytesAt, if_neg (by omega)] at h
  exact (Option.some.inj h).symm

/-- One packed word of the decoding pass does not change IN. -/
theorem readIn_pkValues_advance (vs : List Word) (s : State) (k p : Nat) :
    readIn (vs.foldl pkValueStep (advance s k)) p = readIn s p :=
  sameOutside_readIn (s := advance s k) (pkValues_outside vs _) p

theorem pkLoopPhase_phaseInv {u : Unpacker} {s : State} (hp : s.phase = .pkLoop)
    (h : phaseInv u s) : phaseInv u (pkLoopPhase u s) := by
  simp only [phaseInv, hp] at h
  obtain ⟨hnib, hcode, hmax, h9, hlen, hidx, hcap, vs, hvs, hnout⟩ := h
  rcases pkLoopPhase_cases u s with ⟨hlast, he⟩ | ⟨h8, ⟨d, -, he⟩ | ⟨xs, hxs, he⟩⟩ <;> rw [he]
  · obtain rfl := lists_no_word hvs hlast
    refine ⟨hmax, hlen, hcap, hnout, by simp [hnib, hcode], by simp [hnib], ?_, ?_⟩
    · exact fun h0 => absurd (hnib.symm.trans h0) (by decide)
    · exact fun _ => hnout ▸ hidx
  · exact trivial
  · obtain ⟨xs', ys, hxs', rfl, hys⟩ := lists_next_word hvs h8
    obtain rfl : xs' = xs := by rw [hxs] at hxs'; cases hxs'; rfl
    have hparams : (xs'.foldl pkValueStep (advance s 8)).params = s.params :=
      (pkValues_outside xs' _).1
    simp only [phaseInv, pkValues_phase, advance_phase, hp, pkValues_regs, advance_regs, hparams,
      bytesAt_congr (t := xs'.foldl pkValueStep (advance s 8)) (s := s)
        fun q _ _ => readIn_pkValues_advance xs' s 8 q]
    rw [List.length_append] at hnout
    exact ⟨hnib, hcode, hmax, by omega, h8, by omega, hcap, ys, hys, by omega⟩

theorem rleFirstPhase_phaseInv {u : Unpacker} {s : State} (hp : s.phase = .rleFirst)
    (h : phaseInv u s) : phaseInv u (rleFirstPhase s) := by
  simp only [phaseInv, hp] at h
  obtain ⟨hnib, hcode, hmax, hlen, hpos⟩ := h
  rcases rleFirstPhase_cases s with ⟨-, he⟩ | ⟨h8, he⟩ <;> rw [he]
  · exact trivial
  · rw [payloadLen] at h8
    exact ⟨hnib, hcode, hmax, by simp [hpos], show s.regs.pos + 8 ≤ s.regs.len by omega⟩

theorem rleDeltaPhase_phaseInv {u : Unpacker} {s : State} (hp : s.phase = .rleDelta)
    (h : phaseInv u s) : phaseInv u (rleDeltaPhase s) := by
  simp only [phaseInv, hp] at h
  obtain ⟨hnib, hcode, hmax, hpos, hlen⟩ := h
  rcases rleDeltaPhase_cases s with ⟨-, he⟩ | ⟨v, n, hv, he⟩ <;> rw [he]
  · exact trivial
  · obtain ⟨hn, hn10, hend⟩ := readUvarint_bounds hv
    exact ⟨hnib, hcode, hmax, show 10 ≤ s.regs.pos + n by omega,
      show s.regs.pos + n ≤ 19 by omega, hend⟩

theorem rleCountPhase_phaseInv {u : Unpacker} {s : State} (hp : s.phase = .rleCount)
    (h : phaseInv u s) : phaseInv u (rleCountPhase s) := by
  simp only [phaseInv, hp] at h
  obtain ⟨hnib, hcode, hmax, h10, h19, hlen⟩ := h
  rcases rleCountPhase_cases s with ⟨-, he⟩ | ⟨v, n, hv, he⟩ <;> rw [he]
  · exact trivial
  rcases rleSize_cases v.toNat n s with ⟨-, he⟩ | ⟨hcap, he⟩ <;> rw [he]
  · exact trivial
  · obtain ⟨hn, hn10, hend⟩ := readUvarint_bounds hv
    exact ⟨hnib, hcode, hmax, show 11 ≤ s.regs.pos + n by omega,
      show s.regs.pos + n ≤ 29 by omega, hend, Nat.le_add_left 1 _, hcap, Nat.zero_le _,
      fun _ => by simp⟩

/-- ACC, when it is used, is the next element of the progression (R228). -/
theorem rleFillPhase_phaseInv {u : Unpacker} {s : State} (hp : s.phase = .rleFill)
    (h : phaseInv u s) : phaseInv u (rleFillPhase s) := by
  simp only [phaseInv, hp] at h
  obtain ⟨hnib, hcode, hmax, h11, h29, hlen, hnout, hcap, hidx, hacc⟩ := h
  rcases rleFillPhase_cases s with ⟨hlt, he⟩ | ⟨hge, he⟩ <;> rw [he]
  · simp only [phaseInv, rleElementStep_phase, rleElementStep_regs, hp,
      (rleElementStep_outside s).1]
    refine ⟨hnib, hcode, hmax, h11, h29, hlen, hnout, hcap, hlt, fun hd => ?_⟩
    rw [if_neg hd, hacc hd, BitVec.ofNat_add, BitVec.add_mul, BitVec.add_assoc]
    simp
  · refine ⟨hmax, hlen, hcap, le_antisymm hidx hge, by simp [hnib, hcode], by simp [hnib], ?_, ?_⟩
    · exact fun h0 => absurd (hnib.symm.trans h0) (by decide)
    · exact fun _ => hnout

theorem phaseStep_phaseInv {u : Unpacker} (hu : u.Admitted) {s : State} (h : phaseInv u s) :
    phaseInv u (phaseStep u s) := by
  unfold phaseStep
  split
  case h_1 | h_2 => exact h
  case h_3 hp => exact rawLoopPhase_phaseInv hp h
  case h_4 hp => exact pkFirstPhase_phaseInv hp h
  case h_5 hp => exact pkCountPhase_phaseInv hu hp h
  case h_6 hp => exact pkLoopPhase_phaseInv hp h
  case h_7 hp => exact rleFirstPhase_phaseInv hp h
  case h_8 hp => exact rleDeltaPhase_phaseInv hp h
  case h_9 hp => exact rleCountPhase_phaseInv hp h
  case h_10 hp => exact rleFillPhase_phaseInv hp h
  case h_11 => exact trivial

theorem enter_phaseInv (u : Unpacker) {s : State} (hmax : s.regs.len ≤ s.params.inMax) :
    phaseInv u (enter (fetchInstr s) s) := by
  rcases enter_fetchInstr_cases s with he | ⟨hlen, he | he | he | ⟨nib, he⟩⟩ <;> rw [he]
  · exact trivial
  · rcases enterRaw_cases s with ⟨kind, info, -, hraw⟩ | ⟨hmod, hcap, hraw⟩ <;> rw [hraw]
    · exact trivial
    · exact rawStart_phaseInv u hlen hmax hmod hcap
  · exact ⟨rfl, rfl, hmax, hlen, rfl⟩
  · exact ⟨rfl, rfl, hmax, hlen, rfl⟩
  · exact trivial

/-! ### The core keeps the invariant -/

/-- What goes on with an operation keeps the invariant when the registers fit the new phase. -/
theorem GoesOn.keeps_inv {u : Unpacker} {s t : State} (h : GoesOn s t) (ho : sameOutside s t)
    (hp : s.phase ≠ .idle) (hs : s.InvWith u) (ht : phaseInv u t) : t.InvWith u := by
  have hbusy := hs.busy_phase.2 hp
  obtain ⟨hparams, -, hinLen, houtCap, -⟩ := ho
  refine .of_busy (h.fits hs.fits) ?_ ?_ (h.phase hp) ht
  · rw [h.status, h.resultLen, h.errInfo]
    exact hs.busy_result hbusy
  · rw [h.len, h.cap, hparams, hinLen, houtCap]
    exact hs.busy_operands hbusy

/-- At FINISH the result fits OUT (R26). -/
theorem State.InvWith.nout_le_outMax {u : Unpacker} {s : State} (h : s.InvWith u)
    (hp : s.phase = .finish) : s.regs.nout ≤ s.params.outMax := by
  have hinv := h.phase_inv
  simp only [phaseInv, hp] at hinv
  obtain ⟨-, -, hcap, -⟩ := hinv
  exact hcap.trans (h.cap_le_outMax (by rw [hp]; decide))

theorem phaseStep_inv {u : Unpacker} (hu : u.Admitted) {s : State} (h : s.InvWith u) :
    (phaseStep u s).InvWith u := by
  by_cases hidle : s.phase = .idle
  · rwa [phaseStep, hidle]
  rcases phaseStep_outcome u s with ⟨kind, info, hk, he⟩ | ⟨hp, he⟩ | ⟨hon, -⟩
  · exact he ▸ raise_inv h.fits hk info
  · exact he ▸ returnOk_inv h.fits (h.nout_le_outMax hp)
  · exact hon.keeps_inv (phaseStep_outside u s) hidle h (phaseStep_phaseInv hu h.phase_inv)

theorem runOp_inv {u : Unpacker} (hu : u.Admitted) {s : State} (h : s.InvWith u) :
    (runOp u s).InvWith u :=
  runPhases_keeps (P := fun t => t.InvWith u) (fun _ ht => phaseStep_inv hu ht) h

theorem raiseInputRange_inv {u : Unpacker} {s : State} (h : s.InvWith u) :
    (raiseInputRange s).InvWith u := raise_inv h.fits (by decide) _

/-- The dispatch changes nothing outside the operation. -/
theorem enter_outside (s : State) : sameOutside s (enter (fetchInstr s) s) := by
  rcases enter_fetchInstr_cases s with he | ⟨-, he | he | he | ⟨nib, he⟩⟩ <;> rw [he]
  · exact complete_outside _ _ _ s
  · rcases enterRaw_cases s with ⟨kind, info, -, hraw⟩ | ⟨-, -, hraw⟩ <;> rw [hraw]
    · exact raise_outside _ _ _
    · exact rawStart_outside s
  · exact enterPacked_outside s
  · exact enterRle_outside s
  · exact raise_outside _ _ _

theorem enter_inv {u : Unpacker} {s : State} (h : s.InvWith u) (hp : s.phase = .header)
    (hmax : s.regs.len ≤ s.params.inMax) : (enter (fetchInstr s) s).InvWith u := by
  rcases enter_outcome s with he | ⟨kind, info, nib, hk, he⟩ | hon
  · exact he ▸ returnOkEmpty_inv h.fits
  · exact he ▸ raise_inv (s := dispatchTo nib s) h.fits hk info
  · exact hon.keeps_inv (enter_outside s) (by rw [hp]; decide) h (enter_phaseInv u hmax)

theorem phaseCoreWith_inv {u : Unpacker} (hu : u.Admitted) {s t : State} (h : s.InvWith u)
    (hc : phaseCoreWith u s = .next t) : t.InvWith u := by
  rcases phaseCoreWith_cases hc with ⟨-, rfl⟩ | ⟨-, -, -, rfl⟩ | ⟨-, hp, hmax, rfl⟩ | ⟨-, -, rfl⟩
  · exact h
  · exact raiseInputRange_inv h
  · exact enter_inv h hp hmax
  · exact phaseStep_inv hu h

/-- The meaning of an instruction is its step at HEADER and the run of the phases that follow. -/
theorem exec_eq_runOp_enter (i : Instr) (s : State) :
    exec i s = .next (runOp unpacker (enter i s)) := by
  cases i with
  | raw lo => rfl
  | packed lo => rfl
  | rle lo => rfl
  | _ => exact congrArg Host.Outcome.next (runOp_idle rfl).symm

theorem runCore_inv {s t : State} (h : s.Inv) (hc : runCore s = .next t) : t.Inv := by
  rcases runCore_cases s with ⟨-, he⟩ | ⟨-, -, -, he⟩ | ⟨-, hp, hmax, he⟩ | ⟨-, -, he⟩ <;>
    rw [he] at hc
  · cases hc; exact h
  · cases hc; exact raiseInputRange_inv h
  · rw [exec_eq_runOp_enter] at hc
    cases hc
    exact runOp_inv unpacker_admitted (enter_inv h hp hmax)
  · cases hc; exact runOp_inv unpacker_admitted h

/-! ### The host keeps the invariant -/

theorem ctrlWrite_inv {u : Unpacker} {s : State} (h : s.InvWith u) (v : Word) :
    (ctrlWrite v s).InvWith u := by
  rcases ctrlWrite_cases v s with ⟨-, he⟩ | ⟨-, -, he⟩ | ⟨hb, -, -, he⟩ | ⟨-, -, -, he⟩ <;> rw [he]
  · exact h.host_fields _ _ _ _
  · exact startOperation_inv h.fits
  · exact .of_idle h.fits { h.legal with } hb (h.phase_idle hb)
  · exact h.host_fields _ _ _ _

theorem regWrite_inv {u : Unpacker} {s : State} (h : s.InvWith u) (n : Nat) (v : Word) :
    (regWrite n v s).InvWith u := by
  rcases regWrite_cases n v s with ⟨-, he⟩ | ⟨-, hb, he⟩ | ⟨-, hb, he⟩ | ⟨-, -, he⟩ <;> rw [he]
  · exact ctrlWrite_inv h v
  · exact .of_idle h.fits h.legal hb (h.phase_idle hb)
  · exact .of_idle h.fits h.legal hb (h.phase_idle hb)
  · exact h

theorem outRead_inv {u : Unpacker} {s : State} (h : s.InvWith u) (i : Nat) :
    (outRead i s).InvWith u := by
  rcases outRead_cases i s with ⟨-, he⟩ | ⟨-, -, he⟩ <;> rw [he] <;> exact h.host_fields _ _ _ _

/-- A store to IN or OUT is made while the core is idle, or is the hazard (R344). -/
theorem hostCommand_inv {u : Unpacker} {c : HostCmd} {s t : State} (h : s.InvWith u)
    (hc : hostCommand c s = .next t) : t.InvWith u := by
  cases c with
  | regRead n => cases hc; exact h.host_fields _ _ _ _
  | regWrite n v => cases hc; exact regWrite_inv h n v
  | inRead p => cases hc; exact h.host_fields _ _ _ _
  | outRead i => cases hc; exact outRead_inv h i
  | inWrite p b =>
    rw [hostCommand] at hc
    split at hc <;> cases hc
    have hb := Bool.eq_false_of_not_eq_true ‹_›
    exact .of_idle (h.fits.writeIn p b) h.legal hb (h.phase_idle hb)
  | outWrite i v =>
    rw [hostCommand] at hc
    split at hc <;> cases hc
    have hb := Bool.eq_false_of_not_eq_true ‹_›
    exact .of_idle (h.fits.writeOut i v) h.legal hb (h.phase_idle hb)

/-! ### Every event does -/

theorem runEvent_inv {e : Event} {s t : State} (h : s.Inv) (he : runEvent e s = .next t) : t.Inv := by
  cases e with
  | host c => exact hostCommand_inv h he
  | phase => exact phaseCoreWith_inv unpacker_admitted h he
  | run => exact runCore_inv h he
  | reset => cases he; exact resetBlock_inv h.fits

theorem step_inv {s t : State} (h : s.Inv) (hs : step s = .next t) : t.Inv := by
  cases he : s.events with
  | nil => exact runCore_inv h (step_of_no_event he ▸ hs)
  | cons e es => exact runEvent_inv (h.host_fields s.irqEn es s.replies s.draws) (step_of_event he ▸ hs)

/-- While an operation runs, POS is inside its block (R41). -/
theorem State.InvWith.pos_le_len {u : Unpacker} {s : State} (h : s.InvWith u)
    (hb : s.status.busy = true) : s.regs.pos ≤ s.regs.len := by
  have hinv := h.phase_inv
  cases hp : s.phase <;> simp only [phaseInv, hp] at hinv
  case idle => exact absurd hp (h.busy_phase.1 hb)
  all_goals omega

end Sys2Proof.Machine

/-! SUPPORT. What each phase that writes OUT writes there (R43), under the invariant, so that the bounds of
OUT never cut a store off. -/

namespace Sys2Proof.Machine

/-! ### Which phase the core takes -/

/-- While an operation runs past the dispatch, the core's move is its phase. -/
theorem phaseCoreWith_eq_phaseStep {u : Unpacker} {s t : State} (h : s.InvWith u)
    (hc : phaseCoreWith u s = .next t) (hidle : s.phase ≠ .idle) (hp : s.phase ≠ .header) :
    t = phaseStep u s := by
  rw [phaseCoreWith, if_pos (h.busy_phase.2 hidle), if_neg hp] at hc
  cases hc
  rfl

/-- The words of OUT after storing one that lies inside it. -/
theorem readOut_writeOut_of_lt {s : State} (h : Memory.wf s.outMem = true) {i : Nat}
    (hi : i < s.params.outMax) (v : Word) (k : Nat) :
    readOut (writeOut s i v) k = if k = i then v else readOut s k := by
  rw [readOut_writeOut h]
  simp only [hi, and_true]

/-! ### Running sums -/

/-- The running sum of unpacked values is the element in closed form (R195). -/
theorem foldl_accumulate_eq (acc : Word) (ds : List Word) :
    ds.foldl accumulate acc = acc + (ds.map fun d => BitVec.ofInt 64 (signFold d)).sum := by
  induction ds generalizing acc with
  | nil => simp
  | cons d ds ih => rw [List.foldl_cons, ih, accumulate_eq, List.map_cons, List.sum_cons,
      BitVec.add_assoc]

theorem foldl_accumulate_take (acc : Word) (ds : List Word) (k : Nat) :
    (ds.take k).foldl accumulate acc = deltaElement acc ds k := foldl_accumulate_eq acc _

theorem foldl_accumulate_length (acc : Word) (ds : List Word) :
    ds.foldl accumulate acc = deltaElement acc ds ds.length := by
  rw [← foldl_accumulate_take, List.take_length]

/-! ### The phases that write -/

/-- RAW_LOOP (R173): one element, and none in its last phase. -/
theorem rawLoopPhase_writes {u : Unpacker} {s : State} (h : s.InvWith u) (hp : s.phase = .rawLoop) :
    (rawLoopPhase s).regs.nout = s.regs.nout ∧
    (s.regs.idx < s.regs.nout →
      (rawLoopPhase s).regs.idx = s.regs.idx + 1 ∧
      (rawLoopPhase s).regs.acc =
        s.regs.acc + BitVec.ofInt 64 (signFold (fixedAt s s.regs.pos)) ∧
      ∀ k, readOut (rawLoopPhase s) k =
        if k = s.regs.idx then (rawLoopPhase s).regs.acc else readOut s k) ∧
    (s.regs.idx = s.regs.nout →
      (rawLoopPhase s).regs.idx = s.regs.idx ∧ (rawLoopPhase s).outMem = s.outMem) := by
  have hout := h.cap_le_outMax (by rw [hp]; decide)
  have hinv := h.phase_inv
  simp only [phaseInv, hp] at hinv
  obtain ⟨-, -, -, hcap, -⟩ := hinv
  rcases rawLoopPhase_cases s with ⟨hlt, he⟩ | ⟨hge, he⟩ <;> rw [he]
  · refine ⟨rfl, fun _ => ⟨rfl, accumulate_eq _ _, fun k => ?_⟩, fun heq => absurd heq hlt.ne⟩
    exact readOut_writeOut_of_lt (by exact h.outMem_wf)
      (show s.regs.idx < s.params.outMax by omega) _ k
  · exact ⟨rfl, fun hlt => absurd hge (Nat.not_le.2 hlt), fun _ => ⟨rfl, rfl⟩⟩

/-- PK_COUNT (R194): element 0, unless it ends the operation. -/
theorem pkCountPhase_writes {u : Unpacker} {s : State} (h : s.InvWith u) (hp : s.phase = .pkCount)
    (hbusy : (pkCountPhase u s).status.busy = true) :
    (pkCountPhase u s).regs.idx = 1 ∧ 1 ≤ (pkCountPhase u s).regs.nout ∧
    (pkCountPhase u s).regs.nout ≤ (pkCountPhase u s).regs.cap ∧
    (pkCountPhase u s).regs.acc = s.regs.first ∧
    ∀ k, readOut (pkCountPhase u s) k = if k = 0 then s.regs.first else readOut s k := by
  have hout := h.cap_le_outMax (by rw [hp]; decide)
  rcases pkCountPhase_cases u s with ⟨d, -, he⟩ | ⟨n, -, he⟩ <;> rw [he] at hbusy ⊢
  · cases hbusy
  rcases pkSize_cases n s with ⟨-, he⟩ | ⟨hcap, he⟩ <;> rw [he] at hbusy ⊢
  · cases hbusy
  · exact ⟨rfl, Nat.le_add_right 1 n, hcap, rfl, fun k =>
      readOut_writeOut_of_lt (by exact h.outMem_wf) (show 0 < s.params.outMax by omega) _ k⟩

/-- The words of OUT after one packed word's values that all lie inside it (R195). -/
theorem readOut_pkValues_advance {s : State} {vs : List Word} (h : Memory.wf s.outMem = true)
    (hout : s.regs.idx + vs.length ≤ s.params.outMax) (k : Nat) :
    readOut (vs.foldl pkValueStep (advance s 8)) k =
      if s.regs.idx ≤ k ∧ k < s.regs.idx + vs.length then
        deltaElement s.regs.acc vs (k - s.regs.idx + 1)
      else readOut s k := by
  refine ((pkValues_out vs (s := advance s 8) h).2 k).trans ?_
  exact if_congr ⟨fun hk => ⟨hk.1, hk.2.1⟩, fun hk => ⟨hk.1, hk.2, hk.2.trans_le hout⟩⟩
    (foldl_accumulate_take _ _ _) rfl

/-- PK_LOOP (R195, R196): the running sums of one word's values, and none in its last phase. The word
unpacks, since all the words to come do. -/
theorem pkLoopPhase_writes {u : Unpacker} {s : State} (h : s.InvWith u) (hp : s.phase = .pkLoop) :
    (pkLoopPhase u s).regs.nout = s.regs.nout ∧
    (pkLoopPhase u s).regs.idx ≤ (pkLoopPhase u s).regs.nout ∧
    (s.regs.pos + 8 ≤ s.regs.len →
      ∃ vs, u.unpack (fixedAt s s.regs.pos) = .ok vs ∧
        (pkLoopPhase u s).regs.idx = s.regs.idx + vs.length ∧
        (pkLoopPhase u s).regs.acc = deltaElement s.regs.acc vs vs.length ∧
        ∀ k, readOut (pkLoopPhase u s) k =
          if s.regs.idx ≤ k ∧ k < (pkLoopPhase u s).regs.idx then
            deltaElement s.regs.acc vs (k - s.regs.idx + 1)
          else readOut s k) ∧
    (s.regs.len < s.regs.pos + 8 →
      (pkLoopPhase u s).regs.idx = s.regs.idx ∧
      (pkLoopPhase u s).regs.idx = (pkLoopPhase u s).regs.nout ∧
      (pkLoopPhase u s).outMem = s.outMem) := by
  have hout := h.cap_le_outMax (by rw [hp]; decide)
  have hinv := h.phase_inv
  simp only [phaseInv, hp] at hinv
  obtain ⟨-, -, -, -, -, -, hcap, vs, hvs, hnout⟩ := hinv
  rcases Nat.lt_or_ge s.regs.len (s.regs.pos + 8) with hlast | h8
  · obtain rfl := lists_no_word hvs hlast
    rw [pkLoopPhase, if_neg (Nat.not_le.2 hlast)]
    exact ⟨rfl, hnout.le, fun h8 => absurd h8 (Nat.not_le.2 hlast), fun _ => ⟨rfl, hnout, rfl⟩⟩
  · obtain ⟨xs, ys, hxs, rfl, -⟩ := lists_next_word hvs h8
    rw [List.length_append] at hnout
    have hstep : pkLoopPhase u s = xs.foldl pkValueStep (advance s 8) := by
      rw [pkLoopPhase, if_pos h8, hxs]
    rw [hstep, pkValues_regs]
    exact ⟨rfl, show s.regs.idx + xs.length ≤ s.regs.nout by omega,
      fun _ => ⟨xs, hxs, rfl, foldl_accumulate_length _ _, fun k =>
        readOut_pkValues_advance h.outMem_wf (by omega) k⟩,
      fun hlt => absurd h8 (Nat.not_le.2 hlt)⟩

/-- The element RLE_FILL writes is the progression's, with a zero delta too (R227, R228). -/
theorem rleElementAt_zero_eq {s : State}
    (hacc : s.regs.delta ≠ 0 →
      s.regs.acc = s.regs.first + BitVec.ofNat 64 s.regs.idx * s.regs.delta) :
    rleElementAt s 0 = s.regs.first + BitVec.ofNat 64 s.regs.idx * s.regs.delta := by
  rw [rleElementAt, rleAcc]
  by_cases hd : s.regs.delta = 0
  · simp [hd]
  · rw [if_neg hd, if_neg hd, ← hacc hd]
    simp

/-- RLE_FILL (R227, R228): one element of the progression, and none in its last phase. -/
theorem rleFillPhase_writes {u : Unpacker} {s : State} (h : s.InvWith u) (hp : s.phase = .rleFill) :
    (rleFillPhase s).regs.nout = s.regs.nout ∧
    (s.regs.idx < s.regs.nout →
      (rleFillPhase s).regs.idx = s.regs.idx + 1 ∧
      ∀ k, readOut (rleFillPhase s) k =
        if k = s.regs.idx then s.regs.first + BitVec.ofNat 64 s.regs.idx * s.regs.delta
        else readOut s k) ∧
    (s.regs.idx = s.regs.nout →
      (rleFillPhase s).regs.idx = s.regs.idx ∧ (rleFillPhase s).outMem = s.outMem) := by
  have hout := h.cap_le_outMax (by rw [hp]; decide)
  have hinv := h.phase_inv
  simp only [phaseInv, hp] at hinv
  obtain ⟨-, -, -, -, -, -, -, hcap, -, hacc⟩ := hinv
  rcases rleFillPhase_cases s with ⟨hlt, he⟩ | ⟨hge, he⟩ <;> rw [he]
  · obtain ⟨hparams, -, -, -, -, -, -, hepoch⟩ := rleElementStep_outside s
    rw [rleElementStep_regs]
    refine ⟨rfl, fun _ => ⟨rfl, fun k => ?_⟩, fun heq => absurd heq hlt.ne⟩
    rw [readOut_congr (s := writeOut s s.regs.idx (rleElementAt s 0)) hparams
        (rleElementStep_outMem s) hepoch,
      readOut_writeOut_of_lt h.outMem_wf (by omega), rleElementAt_zero_eq hacc]
  · exact ⟨rfl, fun hlt => absurd hge (Nat.not_le.2 hlt), fun _ => ⟨rfl, rfl⟩⟩

/-! ### The phases that do not -/

/-- The step at HEADER writes nothing (R61). -/
theorem enter_outMem (s : State) : (enter (fetchInstr s) s).outMem = s.outMem := by
  rcases enter_fetchInstr_cases s with he | ⟨-, he | he | he | ⟨nib, he⟩⟩ <;> rw [he]
  · rfl
  · rcases enterRaw_cases s with ⟨kind, info, -, hraw⟩ | ⟨-, -, hraw⟩ <;> rw [hraw] <;> rfl
  · rfl
  · rfl
  · rfl

/-- Nor does any phase but the four that do. -/
theorem phaseStep_outMem {u : Unpacker} {s : State} (hraw : s.phase ≠ .rawLoop)
    (hcount : s.phase ≠ .pkCount) (hloop : s.phase ≠ .pkLoop) (hfill : s.phase ≠ .rleFill) :
    (phaseStep u s).outMem = s.outMem := by
  unfold phaseStep
  split
  case h_1 | h_2 | h_11 => rfl
  case h_3 hp => exact absurd hp hraw
  case h_4 => obtain ⟨-, he⟩ | ⟨-, he⟩ := pkFirstPhase_cases s <;> simp only [he, raise_outMem]
  case h_5 hp => exact absurd hp hcount
  case h_6 hp => exact absurd hp hloop
  case h_7 => obtain ⟨-, he⟩ | ⟨-, he⟩ := rleFirstPhase_cases s <;> simp only [he, raise_outMem]
  case h_8 =>
    obtain ⟨-, he⟩ | ⟨v, n, -, he⟩ := rleDeltaPhase_cases s <;> simp only [he, raise_outMem]
  case h_9 =>
    obtain ⟨-, he⟩ | ⟨v, n, -, he⟩ := rleCountPhase_cases s
    · rw [he]; rfl
    · obtain ⟨-, hsize⟩ | ⟨-, hsize⟩ := rleSize_cases v.toNat n s <;>
        simp only [he, hsize, raise_outMem]
  case h_10 hp => exact absurd hp hfill

end Sys2Proof.Machine

/-! The statements of `spec/10_state.md`: the memories, the registers and the core's phases, and the
invariant that every step keeps. -/

namespace Sys2Proof.Proofs

open Sys2Proof.Machine

/-- Settles O55: a move of the core ends the operation or goes on with it, with the registers as the new
phase asks; a host command stores only while the core is idle. -/
theorem everyStepKeepsTheInvariant : Obligations.EveryStepKeepsTheInvariant :=
  fun _ _ h hs => step_inv h hs

/-- Settles O13: the laws of a store, and canonical memories are what they list. -/
theorem memoryKeepsItsForm : Obligations.MemoryKeepsItsForm := fun _ _ _ h h' =>
  ⟨fun a b v => ⟨Memory.wf_set h a v, Memory.get_set h a b v⟩, Memory.ext_of_wf h h'⟩

/-- Settles O48: a move after which BUSY is still 1 goes on with the operation. -/
theorem decodeStepsKeepStatus : Obligations.DecodeStepsKeepStatus := by
  intro s t h _ ht
  have hon := (phaseCoreWith_goesOn h ht).1
  exact ⟨hon.status, hon.resultLen, hon.errInfo, hon.len, hon.cap⟩

/-- Settles O49: POS is 0 at HEADER and does not fall after it, and the invariant of the next state bounds
it. -/
theorem readPointerOnlyMovesForward : Obligations.ReadPointerOnlyMovesForward := by
  intro s t hs h _ ht
  refine ⟨?_, (phaseCoreWith_inv unpacker_admitted hs h).pos_le_len ht⟩
  by_cases hp : s.phase = .header
  · have hpos := hs.phase_inv
    simp only [phaseInv, hp] at hpos
    exact hpos ▸ Nat.zero_le _
  · exact (phaseCoreWith_goesOn h ht).2 hp

/-- Settles O50, phase by phase; the invariant keeps every store inside OUT. -/
theorem outputIsWrittenInIndexOrder : Obligations.OutputIsWrittenInIndexOrder := by
  intro u s t _ h hc ht
  have hstep {p : Phase} (hp : s.phase = p) (hidle : p ≠ .idle) (hheader : p ≠ .header) :
      t = phaseStep u s := phaseCoreWith_eq_phaseStep h hc (hp ▸ hidle) (hp ▸ hheader)
  refine ⟨fun hp => ?_, fun hp => ?_, fun hp => ?_, fun hp => ?_, fun hraw hcount hloop hfill => ?_⟩
  · obtain rfl : t = rawLoopPhase s := by
      rw [hstep hp (by decide) (by decide), phaseStep, hp]
    exact rawLoopPhase_writes h hp
  · obtain rfl : t = pkCountPhase u s := by
      rw [hstep hp (by decide) (by decide), phaseStep, hp]
    exact pkCountPhase_writes h hp ht
  · obtain rfl : t = pkLoopPhase u s := by
      rw [hstep hp (by decide) (by decide), phaseStep, hp]
    exact pkLoopPhase_writes h hp
  · obtain rfl : t = rleFillPhase s := by
      rw [hstep hp (by decide) (by decide), phaseStep, hp]
    exact rleFillPhase_writes h hp
  · rcases phaseCoreWith_cases hc with ⟨-, rfl⟩ | ⟨-, -, -, rfl⟩ | ⟨-, -, -, rfl⟩ | ⟨-, -, rfl⟩
    · rfl
    · rfl
    · exact enter_outMem s
    · exact phaseStep_outMem hraw hcount hloop hfill

/-- Settles O17: STATUS is put together from its fields, the other registers are theirs. -/
theorem registerReadsReturnTheFields : Obligations.RegisterReadsReturnTheFields :=
  ⟨fun s _ => ⟨rfl, ctrlWord_toNat s.irqEn, status_word_toNat s.status, rfl, rfl, rfl, rfl⟩,
    rfl, rfl, rfl, rfl, rfl, rfl, rfl, rfl⟩

/-- Settles O18: no register number from 6 on is read from or written to the state. -/
theorem reservedRegistersAreInert : Obligations.ReservedRegistersAreInert := by
  intro s n v hn
  constructor
  · rw [hostCommand, regValue_reserved hn]
    rfl
  · rw [hostCommand, regWrite_ignored (by omega) (by omega) (by omega)]

/-- Settles O19: IN_LEN and OUT_CAP are stored, the others are ignored. -/
theorem idleRegisterWrites : Obligations.IdleRegisterWrites := by
  intro s v hb
  have hignored {n : Nat} (h0 : n ≠ 0) (h2 : n ≠ 2) (h3 : n ≠ 3) :
      hostCommand (.regWrite n v) s = .next s := congrArg _ (regWrite_ignored h0 h2 h3 v s)
  exact ⟨hignored (by decide) (by decide) (by decide), congrArg _ (regWrite_inLen_idle hb v),
    congrArg _ (regWrite_outCap_idle hb v), hignored (by decide) (by decide) (by decide),
    hignored (by decide) (by decide) (by decide)⟩

/-- Settles O24: in each way a CTRL write can go, DONE or IRQ_EN is 0 after it. -/
theorem irqFollowsDoneAndEnable : Obligations.IrqFollowsDoneAndEnable := by
  refine ⟨irq_iff, rfl, fun s t v hc h => ?_⟩
  cases hc
  exact ctrlWrite_irq_false h

/-- Settles O26: a reset core is idle, and its step is the quiet one. -/
theorem resetStateIsIdle : Obligations.ResetStateIsIdle :=
  ⟨regValue_reset, rfl, rfl, rfl, rfl⟩

/-- Settles O27: the memories list nothing, there is no outcome and the core is idle. -/
theorem resetMeetsTheInvariant : Obligations.ResetMeetsTheInvariant := reset_inv

end Sys2Proof.Proofs

/-! SUPPORT. What the host can change while an operation runs is nothing the operation looks at (R73, R345,
R347): two states that differ only there go through the same phases. -/

namespace Sys2Proof.Machine

/-! ### What a host command can change while BUSY = 1 -/

/-- What a host command can change while BUSY = 1: IRQ_EN (R264), and the model's own replies and count of
draws (assumption 20). -/
structure HostSide where
  irqEn : Bool
  replies : List Reply
  draws : Nat

/-- `s` with another host's side. -/
def State.withHostSide (s : State) (side : HostSide) : State :=
  { s with irqEn := side.irqEn, replies := side.replies, draws := side.draws }

theorem regWrite_busy {s : State} (hb : s.status.busy = true) (n : Nat) (v : Word) :
    ∃ irqEn, regWrite n v s = s.withHostSide ⟨irqEn, s.replies, s.draws⟩ := by
  have hidle : ¬ s.status.busy = false := by simp [hb]
  rcases regWrite_cases n v s with ⟨-, h⟩ | ⟨-, hbusy, -⟩ | ⟨-, hbusy, -⟩ | ⟨-, -, h⟩
  · rcases ctrlWrite_cases v s with ⟨-, hc⟩ | ⟨hbusy, -⟩ | ⟨hbusy, -⟩ | ⟨hbusy, -⟩
    · exact ⟨v.getLsbD 2, h.trans hc⟩
    all_goals exact absurd hbusy hidle
  · exact absurd hbusy hidle
  · exact absurd hbusy hidle
  · exact ⟨s.irqEn, h⟩

theorem outRead_eq_withHostSide (i : Nat) (s : State) :
    ∃ side, outRead i s = s.withHostSide side := by
  rcases outRead_cases i s with ⟨-, h⟩ | ⟨-, -, h⟩
  · exact ⟨⟨s.irqEn, _, s.draws⟩, h⟩
  · exact ⟨⟨s.irqEn, _, s.draws + 1⟩, h⟩

/-- A host command while BUSY = 1 is the hazard (R344), or changes the host's side alone. -/
theorem hostCommand_busy {c : HostCmd} {s t : State} (hb : s.status.busy = true)
    (h : hostCommand c s = .next t) : ∃ side, t = s.withHostSide side := by
  cases c with
  | regRead n => cases h; exact ⟨⟨s.irqEn, _, s.draws⟩, rfl⟩
  | inRead p => cases h; exact ⟨⟨s.irqEn, _, s.draws⟩, rfl⟩
  | outRead i => cases h; exact outRead_eq_withHostSide i s
  | regWrite n v =>
    cases h
    obtain ⟨irqEn, he⟩ := regWrite_busy hb n v
    exact ⟨_, he⟩
  | inWrite p b => rw [hostCommand, if_pos hb] at h; cases h
  | outWrite i v => rw [hostCommand, if_pos hb] at h; cases h

/-! ### The same operation -/

/-- `t` is `s` but for the host's side and, once the operation has completed, but for the internal
registers, which then hold free values (R46, assumption 7). -/
def SameOperation (s t : State) : Prop :=
  ∃ side regs, (s.phase ≠ .idle → regs = s.regs) ∧ t = { s.withHostSide side with regs := regs }

theorem SameOperation.phase_eq {s t : State} (h : SameOperation s t) : t.phase = s.phase := by
  obtain ⟨_, _, -, rfl⟩ := h
  rfl

/-- Before the completion only the host's side differs. -/
theorem SameOperation.eq_withHostSide {s t : State} (h : SameOperation s t) (hp : s.phase ≠ .idle) :
    ∃ side, t = s.withHostSide side := by
  obtain ⟨side, regs, hregs, rfl⟩ := h
  exact ⟨side, by rw [hregs hp]; rfl⟩

/-- A check made of the same operation twice goes the same way. -/
theorem SameOperation.ite {c : Prop} {_ : Decidable c} {s s' t t' : State} (ht : SameOperation s s')
    (he : SameOperation t t') : SameOperation (if c then s else t) (if c then s' else t') := by
  split
  · exact ht
  · exact he

section
variable (s : State) (side : HostSide)

theorem withHostSide_sameOperation : SameOperation s (s.withHostSide side) :=
  ⟨side, s.regs, fun _ => rfl, rfl⟩

/-- A completion takes from the host's side nothing but the free values it leaves (R46). -/
theorem complete_sameOperation (status : Status) (resultLen errInfo : Word) :
    SameOperation (complete status resultLen errInfo s)
      (complete status resultLen errInfo (s.withHostSide side)) :=
  ⟨{ side with draws := side.draws + 1 }, leftRegs side.draws, fun hp => absurd rfl hp, rfl⟩

theorem raise_sameOperation (kind : ErrKind) (info : Word) :
    SameOperation (raise kind info s) (raise kind info (s.withHostSide side)) :=
  complete_sameOperation s side _ _ _

/-! ### What the core reads and writes is not on the host's side -/

theorem countBytes_withHostSide : countBytes (s.withHostSide side) = countBytes s :=
  bytesAt_congr fun _ _ _ => rfl

theorem readFixed_withHostSide : readFixed (s.withHostSide side) = readFixed s := rfl

theorem readUvarint_withHostSide : readUvarint (s.withHostSide side) = readUvarint s := rfl

theorem fetchInstr_withHostSide : fetchInstr (s.withHostSide side) = fetchInstr s := rfl

theorem rleElementStep_withHostSide :
    rleElementStep (s.withHostSide side) = (rleElementStep s).withHostSide side := by
  rw [rleElementStep, rleElementStep, apply_ite (State.withHostSide · side)]
  rfl

theorem pkValues_withHostSide (vs : List Word) :
    vs.foldl pkValueStep (s.withHostSide side) = (vs.foldl pkValueStep s).withHostSide side := by
  induction vs generalizing s with
  | nil => rfl
  | cons v vs ih => exact ih (pkValueStep s v)

/-! ### Each phase -/

theorem rawLoopPhase_sameOperation :
    SameOperation (rawLoopPhase s) (rawLoopPhase (s.withHostSide side)) :=
  .ite (withHostSide_sameOperation (rawElementStep s) side)
    (withHostSide_sameOperation { s with phase := .finish } side)

theorem pkFirstPhase_sameOperation :
    SameOperation (pkFirstPhase s) (pkFirstPhase (s.withHostSide side)) :=
  .ite (raise_sameOperation s side _ _) (withHostSide_sameOperation _ side)

theorem pkSize_sameOperation (n : Nat) :
    SameOperation (pkSize n s) (pkSize n (s.withHostSide side)) :=
  .ite (raise_sameOperation s side _ _) (withHostSide_sameOperation _ side)

theorem pkCountPhase_sameOperation (u : Unpacker) :
    SameOperation (pkCountPhase u s) (pkCountPhase u (s.withHostSide side)) := by
  rw [pkCountPhase, pkCountPhase, countBytes_withHostSide]
  cases u.count (countBytes s) with
  | err d => exact raise_sameOperation s side _ d
  | ok n => exact pkSize_sameOperation s side n

theorem pkLoopPhase_sameOperation (u : Unpacker) :
    SameOperation (pkLoopPhase u s) (pkLoopPhase u (s.withHostSide side)) := by
  refine .ite ?_ (withHostSide_sameOperation { s with phase := .finish } side)
  rw [readFixed_withHostSide]
  cases u.unpack (readFixed s) with
  | err d => exact raise_sameOperation s side _ d
  | ok vs =>
    show SameOperation _ (vs.foldl pkValueStep ((advance s 8).withHostSide side))
    rw [pkValues_withHostSide]
    exact withHostSide_sameOperation _ side

theorem rleFirstPhase_sameOperation :
    SameOperation (rleFirstPhase s) (rleFirstPhase (s.withHostSide side)) :=
  .ite (raise_sameOperation s side _ _) (withHostSide_sameOperation _ side)

theorem rleDeltaPhase_sameOperation :
    SameOperation (rleDeltaPhase s) (rleDeltaPhase (s.withHostSide side)) := by
  rw [rleDeltaPhase, rleDeltaPhase, readUvarint_withHostSide]
  cases readUvarint s with
  | none => exact raise_sameOperation s side _ _
  | some r => exact withHostSide_sameOperation _ side

theorem rleSize_sameOperation (count n : Nat) :
    SameOperation (rleSize count n s) (rleSize count n (s.withHostSide side)) :=
  .ite (raise_sameOperation s side _ _) (withHostSide_sameOperation _ side)

theorem rleCountPhase_sameOperation :
    SameOperation (rleCountPhase s) (rleCountPhase (s.withHostSide side)) := by
  rw [rleCountPhase, rleCountPhase, readUvarint_withHostSide]
  cases readUvarint s with
  | none => exact raise_sameOperation s side _ _
  | some r => exact rleSize_sameOperation s side _ _

theorem rleFillPhase_sameOperation :
    SameOperation (rleFillPhase s) (rleFillPhase (s.withHostSide side)) := by
  refine .ite ?_ (withHostSide_sameOperation { s with phase := .finish } side)
  rw [rleElementStep_withHostSide]
  exact withHostSide_sameOperation _ side

/-- The commuting square of a phase: with another host's side it does the same. -/
theorem phaseStep_sameOperation (u : Unpacker) :
    SameOperation (phaseStep u s) (phaseStep u (s.withHostSide side)) := by
  have hphase : (s.withHostSide side).phase = s.phase := rfl
  rw [phaseStep, phaseStep, hphase]
  cases s.phase with
  | idle => exact withHostSide_sameOperation s side
  | header => exact withHostSide_sameOperation s side
  | rawLoop => exact rawLoopPhase_sameOperation s side
  | pkFirst => exact pkFirstPhase_sameOperation s side
  | pkCount => exact pkCountPhase_sameOperation s side u
  | pkLoop => exact pkLoopPhase_sameOperation s side u
  | rleFirst => exact rleFirstPhase_sameOperation s side
  | rleDelta => exact rleDeltaPhase_sameOperation s side
  | rleCount => exact rleCountPhase_sameOperation s side
  | rleFill => exact rleFillPhase_sameOperation s side
  | finish => exact complete_sameOperation s side _ _ _

/-- The step at HEADER, for each instruction. -/
theorem enter_sameOperation (i : Instr) :
    SameOperation (enter i s) (enter i (s.withHostSide side)) := by
  cases i with
  | empty => exact complete_sameOperation s side _ _ _
  | raw lo =>
    exact .ite (raise_sameOperation (dispatchTo 0 s) side _ _)
      (.ite (raise_sameOperation (dispatchTo 0 s) side _ _)
        (withHostSide_sameOperation (rawStart s) side))
  | packed lo => exact withHostSide_sameOperation (enterPacked s) side
  | rle lo => exact withHostSide_sameOperation (enterRle s) side
  | _ => exact raise_sameOperation (dispatchTo _ s) side _ _

end

/-! ### The whole operation -/

theorem SameOperation.runPhases {s t : State} (h : SameOperation s t) (u : Unpacker) (n : Nat) :
    SameOperation (runPhases u n s) (runPhases u n t) := by
  induction n generalizing s t with
  | zero => exact h
  | succ n ih =>
    by_cases hp : s.phase = .idle
    · rwa [runPhases_idle hp, runPhases_idle (h.phase_eq.trans hp)]
    · obtain ⟨side, rfl⟩ := h.eq_withHostSide hp
      rw [runPhases_step hp rfl, runPhases_step (s := s.withHostSide side) hp rfl]
      exact ih (phaseStep_sameOperation s side u)

theorem SameOperation.runOp {s t : State} (h : SameOperation s t) (u : Unpacker) :
    SameOperation (runOp u s) (runOp u t) := by
  by_cases hp : s.phase = .idle
  · rwa [runOp_idle hp, runOp_idle (h.phase_eq.trans hp)]
  · obtain ⟨side, rfl⟩ := h.eq_withHostSide hp
    exact h.runPhases u (phaseBound s)

/-- The core, run over another host's side, completes the same operation. -/
theorem runCore_sameOperation {s t : State} (side : HostSide) (h : runCore s = .next t) :
    ∃ t', runCore (s.withHostSide side) = .next t' ∧ SameOperation t t' := by
  rw [runCore_eq (s.withHostSide side)]
  rcases runCore_cases s with ⟨hb, he⟩ | ⟨hb, hp, hlen, he⟩ | ⟨hb, hp, hlen, he⟩ | ⟨hb, hp, he⟩ <;>
    rw [he] at h
  · cases h
    exact ⟨_, if_neg (Bool.eq_false_iff.1 hb), withHostSide_sameOperation s side⟩
  · cases h
    refine ⟨_, ?_, raise_sameOperation s side _ _⟩
    exact (if_pos hb).trans ((if_pos hp).trans (if_pos hlen))
  · rw [exec_eq_runOp_enter] at h
    cases h
    refine ⟨_, ?_, (enter_sameOperation s side (fetchInstr s)).runOp unpacker⟩
    rw [fetchInstr_withHostSide, exec_eq_runOp_enter]
    exact (if_pos hb).trans ((if_pos hp).trans (if_neg (Nat.not_lt.2 hlen)))
  · cases h
    refine ⟨_, ?_, (withHostSide_sameOperation s side).runOp unpacker⟩
    exact (if_pos hb).trans (if_neg hp)

end Sys2Proof.Machine

/-! SUPPORT. Fields and varints as sums of their bytes, each at its weight (R62, R63). -/

namespace Sys2Proof.Machine

/-! ### Fixed-width fields -/

/-- A byte shifted left is its number at that weight, modulo 2^64. -/
theorem setWidth_byte_shiftLeft (b : Byte) (k : Nat) :
    b.setWidth 64 <<< k = BitVec.ofNat 64 (2 ^ k * b.toNat) := by
  have h := ofNat_or_shiftLeft (x := 0) (k := k) b.toNat (Nat.two_pow_pos k)
  rwa [BitVec.zero_or, Nat.zero_add, ← setWidth_byte] at h

/-- Adding up modulo 2^64 is adding up, modulo 2^64. -/
theorem sum_map_ofNat (l : List Nat) (f : Nat → Nat) :
    (l.map fun k => BitVec.ofNat 64 (f k)).sum = BitVec.ofNat 64 (l.map f).sum := by
  induction l with
  | nil => rfl
  | cons k l ih =>
    rw [List.map_cons, List.map_cons, List.sum_cons, List.sum_cons, ih, BitVec.ofNat_add]

/-- The 8 bytes of a field, the first the most significant (R62). -/
theorem fixedAt_eq_sum (s : State) (p : Nat) :
    fixedAt s p =
      ((List.range 8).map fun k => (readIn s (p + k)).setWidth 64 <<< (8 * (7 - k))).sum := by
  simp only [setWidth_byte_shiftLeft]
  rw [fixedAt, beWord_eq_ofNat, sum_map_ofNat]
  refine congrArg _ ?_
  simp only [List.foldl_cons, List.foldl_nil, List.range_succ, List.range_zero, List.nil_append,
    List.map_append, List.map_cons, List.map_nil, List.sum_append, List.sum_cons, List.sum_nil, Nat.add_zero]
  omega

/-! ### Varints -/

/-- The low seven bits of the `k` bytes `rd` from offset `pos`, as a number in base 128, the first byte
the least significant (R63). -/
def base128 (rd : Nat → Byte) (pos k : Nat) : Nat :=
  ((List.range k).map fun j => (rd (pos + j)).toNat % 128 * 128 ^ j).sum

theorem base128_succ (rd : Nat → Byte) (pos k : Nat) :
    base128 rd pos (k + 1) = base128 rd pos k + 2 ^ (7 * k) * ((rd (pos + k)).toNat % 128) := by
  rw [base128, List.range_succ, List.map_append, List.sum_append, List.map_singleton,
    List.sum_singleton, Nat.pow_mul, Nat.mul_comm (_ % _)]
  rfl

/-- `k` digits of seven bits are a number of `7 * k` bits. -/
theorem base128_lt (rd : Nat → Byte) (pos k : Nat) : base128 rd pos k < 2 ^ (7 * k) := by
  induction k with
  | zero => exact Nat.one_pos
  | succ k ih =>
    have hdigit : (rd (pos + k)).toNat % 128 + 1 ≤ 2 ^ 7 := Nat.mod_lt _ (by decide)
    rw [base128_succ]
    calc base128 rd pos k + 2 ^ (7 * k) * ((rd (pos + k)).toNat % 128)
        < 2 ^ (7 * k) * ((rd (pos + k)).toNat % 128 + 1) := by rw [Nat.mul_add_one]; omega
      _ ≤ 2 ^ (7 * k) * 2 ^ 7 := Nat.mul_le_mul_left _ hdigit
      _ = 2 ^ (7 * (k + 1)) := by rw [← Nat.pow_add, Nat.mul_add_one]

/-- Each digit ReadUvarint takes in goes above the ones before it. -/
theorem base128_or_digit (rd : Nat → Byte) (pos k : Nat) :
    (BitVec.ofNat 64 (base128 rd pos k) |||
        BitVec.ofNat 64 ((rd (pos + k)).toNat % 128) <<< (7 * k)) =
      BitVec.ofNat 64 (base128 rd pos (k + 1)) := by
  rw [ofNat_or_shiftLeft _ (base128_lt rd pos k), base128_succ]

/-- The loop of ReadUvarint (R125) from its `i`-th byte: when it succeeds, it has gone on while bit 7 was
1, and its value is the number the digits stand for (R63); the bound on a tenth byte (R127) makes it fit
64 bits. -/
theorem uvarintLoop_success {rd : Nat → Byte} {len pos n i m : Nat} {v : Word} (hn : n + i = 10)
    (h : uvarintLoop rd len pos n i (BitVec.ofNat 64 (base128 rd pos i)) = some (v, m)) :
    (∀ j, i ≤ j → j < m → ((rd (pos + j)).getLsbD 7 = true ↔ j + 1 < m)) ∧
      v.toNat = base128 rd pos m := by
  induction n generalizing i with
  | zero => cases h
  | succ n ih =>
    rw [uvarintLoop] at h
    split at h
    · cases h
    simp only at h
    split at h
    · rename_i hmore
      have hbyte : 128 ≤ (rd (pos + i)).toNat := (getLsbD_seven_iff _).1 hmore
      have hdigit : (rd (pos + i)).toNat - 128 = (rd (pos + i)).toNat % 128 := by omega
      rw [lowBits_of_more hbyte, hdigit, base128_or_digit] at h
      obtain ⟨hbits, hval⟩ := ih (by omega) h
      have hnext := (uvarintLoop_bounds h).1
      refine ⟨fun j hij hjm => ?_, hval⟩
      rcases Nat.eq_or_lt_of_le hij with rfl | hlt
      · exact iff_of_true hmore hnext
      · exact hbits j hlt hjm
    · rename_i hlast
      have hbyte : (rd (pos + i)).toNat < 128 := Nat.not_le.1 (mt (getLsbD_seven_iff _).2 hlast)
      split at h
      · cases h
      rename_i htenth
      rw [setWidth_byte, ← Nat.mod_eq_of_lt hbyte, base128_or_digit] at h
      cases h
      refine ⟨fun j hij hjm => ?_, Nat.mod_eq_of_lt ?_⟩
      · obtain rfl : j = i := by omega
        exact iff_of_false hlast (Nat.lt_irrefl _)
      · rcases Nat.lt_or_ge i 9 with h8 | h9
        · exact (base128_lt rd pos (i + 1)).trans_le
            (Nat.pow_le_pow_right (n := 2) (i := 7 * (i + 1)) (by decide) (by omega))
        · obtain rfl : i = 9 := by omega
          have hlow := base128_lt rd pos 9
          rw [base128_succ]
          omega

/-- What ReadUvarint returns is the number the bytes it has read stand for, of which the last alone has
bit 7 = 0 (R63). -/
theorem readUvarint_success {s : State} {v : Word} {n : Nat} (h : readUvarint s = some (v, n)) :
    (∀ i, i < n → ((readIn s (s.regs.pos + i)).getLsbD 7 = true ↔ i + 1 < n)) ∧
      v.toNat = base128 (readIn s) s.regs.pos n := by
  obtain ⟨hbits, hval⟩ := uvarintLoop_success (i := 0) rfl h
  exact ⟨fun i hi => hbits i (Nat.zero_le i) hi, hval⟩

end Sys2Proof.Machine

/-! SUPPORT. How an operation ends, said once for every instruction: the error or the success it completes
with, and what it has written by then (R61, R67, R309). -/

namespace Sys2Proof.Machine

/-- The completions of an operation from `s`: an error, before which no word of OUT is written; the empty
block's; or a success with NOUT elements, at most CAP, above which OUT is as it was (R43, R305). -/
inductive OperationEnd (s : State) : State → Prop
  | error (kind : ErrKind) (info : Word) {v : State} (houtside : sameOutside s v)
      (hout : v.outMem = s.outMem) : OperationEnd s (raise kind info v)
  | empty : OperationEnd s (returnOkEmpty s)
  | ok {v : State} (houtside : sameOutside s v) (hnout : v.regs.nout ≤ s.regs.cap)
      (hout : Memory.wf s.outMem = true → ∀ k, v.regs.nout ≤ k → readOut v k = readOut s k) :
      OperationEnd s (returnOk v)

/-- Two states with the same outside and the same stored words read the same words from OUT. -/
theorem sameOutside_readOut {s t : State} (h : sameOutside s t) (hout : t.outMem = s.outMem) (k : Nat) :
    readOut t k = readOut s k := by
  obtain ⟨hparams, -, -, -, -, -, -, hepoch⟩ := h
  exact readOut_congr hparams hout hepoch k

/-! ### OUT above the elements of a decoded block -/

theorem rawElements_above {s : State} (h : Memory.wf s.outMem = true) {n k : Nat} (hk : n ≤ k) :
    readOut (rawElementStep^[n] (rawStart s)) k = readOut s k := by
  have hidx : (rawStart s).regs.idx = 0 := rfl
  obtain ⟨-, hout⟩ := rawElements_out (s := rawStart s) h n
  rw [hout, if_neg (by omega)]
  rfl

theorem pkValues_above {s : State} (h : Memory.wf s.outMem = true) (vs : List Word) (j : Nat) {k : Nat}
    (hk : 1 + vs.length ≤ k) :
    readOut (vs.foldl pkValueStep (advance (pkLoopStart vs.length s) j)) k = readOut s k := by
  have hidx : (advance (pkLoopStart vs.length s) j).regs.idx = 1 := rfl
  obtain ⟨-, hout⟩ := pkValues_out vs (s := advance (pkLoopStart vs.length s) j)
    (pkLoopStart_outMem_wf h vs.length)
  calc readOut (vs.foldl pkValueStep (advance (pkLoopStart vs.length s) j)) k
      = readOut (pkLoopStart vs.length s) k := by rw [hout, if_neg (by omega)]; rfl
    _ = readOut s k := by rw [pkLoopStart_out h, if_neg (by omega)]

theorem rleElements_above {s : State} (h : Memory.wf s.outMem = true) (v1 : Word) (n1 count n2 : Nat)
    {n k : Nat} (hk : n ≤ k) :
    readOut (rleElementStep^[n] (rleFillStart v1 n1 count n2 s)) k = readOut s k := by
  have hstart := rleFillStart_outMem v1 n1 count n2 s
  have hidx : (rleFillStart v1 n1 count n2 s).regs.idx = 0 := rfl
  obtain ⟨-, hout⟩ := rleElements_out (s := rleFillStart v1 n1 count n2 s) (hstart.symm ▸ h) n
  calc readOut (rleElementStep^[n] (rleFillStart v1 n1 count n2 s)) k
      = readOut (rleFillStart v1 n1 count n2 s) k := by
        rw [hout, if_neg (by omega)]
    _ = readOut s k := sameOutside_readOut (rleFillStart_outside v1 n1 count n2 s) hstart k

/-! ### Each instruction's end -/

theorem execRaw_end (s : State) : ∃ t, execRaw s = .next t ∧ OperationEnd s t := by
  by_cases hmod : payloadLen s % 8 = 0
  · rcases Nat.lt_or_ge s.regs.cap (payloadLen s / 8) with hcap | hcap
    · exact ⟨_, execRaw_capacity hmod hcap,
        .error _ _ (dispatchTo_outside 0 s) rfl⟩
    · refine ⟨_, execRaw_ok hmod hcap,
        .ok (sameOutside_trans (rawStart_outside s) (rawElements_outside _ _)) ?_ ?_⟩
      · rw [rawElements_regs]
        exact hcap
      · rw [rawElements_regs]
        exact fun h k hk => rawElements_above h hk
  · exact ⟨_, execRaw_malformed hmod, .error _ _ (dispatchTo_outside 0 s) rfl⟩

theorem execPacked_end (s : State) : ∃ t, execPacked s = .next t ∧ OperationEnd s t := by
  rw [execPacked_eq]
  refine ⟨_, rfl, ?_⟩
  rcases Nat.lt_or_ge (payloadLen s) 8 with hshort | h8
  · rw [runPacked_short hshort]
    exact .error _ _ (enterPacked_outside s) rfl
  cases hcount : unpacker.count (packedBytes s) with
  | err d =>
    rw [runPacked_diag h8 hcount]
    exact .error _ _ (pkCountStart_outside s) rfl
  | ok n =>
    obtain ⟨vs, hvs, rfl⟩ := unpacker_admitted.lists_of_count hcount
    rcases Nat.lt_or_ge s.regs.cap (1 + vs.length) with hcap | hcap
    · rw [runPacked_capacity h8 hcount hcap]
      exact .error _ _ (pkCountStart_outside s) rfl
    · rw [runPacked_ok unpacker_admitted h8 hvs hcap]
      refine .ok (sameOutside_trans (pkLoopStart_outside vs.length s)
        (sameOutside_trans ⟨rfl, rfl, rfl, rfl, rfl, rfl, rfl, rfl⟩ (pkValues_outside vs _))) ?_ ?_
      · rw [pkValues_regs]
        exact hcap
      · rw [pkValues_regs]
        exact fun h k hk => pkValues_above h vs _ hk

theorem rleCountStart_outMem (v1 : Word) (n1 : Nat) (s : State) :
    (rleCountStart v1 n1 s).outMem = s.outMem := by
  simp only [rleCountStart, rleDeltaStart, enterRle, dispatchTo_outMem]

theorem execRle_end (s : State) : ∃ t, execRle s = .next t ∧ OperationEnd s t := by
  rcases Nat.lt_or_ge (payloadLen s) 8 with hshort | h8
  · exact ⟨_, execRle_short hshort, .error _ _ (enterRle_outside s) rfl⟩
  cases h1 : varintAt s 9 with
  | none =>
    exact ⟨_, execRle_malformed_delta h8 h1, .error _ _ (rleDeltaStart_outside s) rfl⟩
  | some r1 =>
    obtain ⟨v1, n1⟩ := r1
    cases h2 : varintAt s (9 + n1) with
    | none =>
      exact ⟨_, execRle_malformed_count h8 h1 h2,
        .error _ _ (rleCountStart_outside v1 n1 s) (rleCountStart_outMem v1 n1 s)⟩
    | some r2 =>
      obtain ⟨v2, n2⟩ := r2
      rcases Nat.lt_or_ge s.regs.cap (v2.toNat + 1) with hcap | hcap
      · exact ⟨_, execRle_capacity h8 h1 h2 hcap,
          .error _ _ (rleCountStart_outside v1 n1 s) (rleCountStart_outMem v1 n1 s)⟩
      · refine ⟨_, execRle_ok h8 h1 h2 hcap,
          .ok (sameOutside_trans (rleFillStart_outside v1 n1 _ n2 s) (rleElements_outside _ _)) ?_ ?_⟩
        · rw [rleElements_regs]
          exact hcap
        · rw [rleElements_regs]
          exact fun h k hk => rleElements_above h v1 n1 _ n2 hk

/-- Every instruction, in every state, ends in one of these ways. -/
theorem exec_end (i : Instr) (s : State) : ∃ t, exec i s = .next t ∧ OperationEnd s t := by
  cases i with
  | empty => exact ⟨_, rfl, .empty⟩
  | raw lo => exact execRaw_end s
  | packed lo => exact execPacked_end s
  | rle lo => exact execRle_end s
  | _ => exact ⟨_, rfl, .error (v := dispatchTo _ s) _ _ (dispatchTo_outside _ s) rfl⟩

/-! ### What every end keeps -/

/-- Whatever way it ends, an operation leaves what lies outside it as it was (R24, R25, R61). -/
theorem OperationEnd.outside {s t : State} (h : OperationEnd s t) : sameOutside s t := by
  cases h with
  | error kind info houtside _ => exact sameOutside_trans houtside (raise_outside _ _ _)
  | empty => exact complete_outside _ _ _ s
  | ok houtside _ _ => exact sameOutside_trans houtside (returnOk_outside _)

/-- The result fits the capacity, since NOUT does; an error and the empty block have none. -/
theorem OperationEnd.resultLen_le {s t : State} (h : OperationEnd s t) :
    t.resultLen.toNat ≤ s.regs.cap := by
  cases h with
  | error => exact Nat.zero_le _
  | empty => exact Nat.zero_le _
  | ok _ hnout _ => exact (Nat.mod_le _ _).trans hnout

/-- OUT at and above RESULT_LEN is as it was (R67): RESULT_LEN is NOUT, since no capacity of an operation
that the host started exceeds 64 bits. -/
theorem OperationEnd.readOut_above {s t : State} (h : OperationEnd s t)
    (hwf : Memory.wf s.outMem = true) (hcap : s.regs.cap ≤ maxWord) {k : Nat}
    (hk : t.resultLen.toNat ≤ k) : readOut t k = readOut s k := by
  cases h with
  | error kind info houtside hout =>
    exact sameOutside_readOut houtside hout k
  | empty => rfl
  | @ok v houtside hnout hout =>
    have hlen : (returnOk v).resultLen.toNat = v.regs.nout :=
      Nat.mod_eq_of_lt (Nat.lt_succ_of_le (hnout.trans hcap))
    exact hout hwf k (hlen ▸ hk)

end Sys2Proof.Machine

/-! The statements of `spec/20_memory.md`: how IN holds fields and varints (R62, R63), what an operation
leaves as it was (R61, R67), and the host beside it (R73). -/

namespace Sys2Proof.Proofs

open Sys2Proof.Machine

/-- Settles O54: the command changes the host's side alone, and the core runs the same operation over any
host's side. -/
theorem hostCommandsDoNotDisturbTheOperation : Obligations.HostCommandsDoNotDisturbTheOperation := by
  intro c s s' t hb hc hrun
  obtain ⟨side, rfl⟩ := hostCommand_busy hb hc
  obtain ⟨t', hrun', _, _, -, rfl⟩ := runCore_sameOperation side hrun
  exact ⟨_, hrun', rfl, rfl, rfl, rfl, rfl, rfl, rfl, rfl⟩

/-- Settles O7: a big-endian number is the sum of its bytes at their weights. -/
theorem fixedFieldsAreBigEndian : Obligations.FixedFieldsAreBigEndian := fixedAt_eq_sum

/-- Settles O8: the loop's bounds, and its value digit by digit. -/
theorem varintsAreBase128 : Obligations.VarintsAreBase128 := by
  intro s v n h
  obtain ⟨hone, hten, hlen⟩ := readUvarint_bounds h
  obtain ⟨hbits, hval⟩ := readUvarint_success h
  exact ⟨hone, hten, hlen, hbits, hval⟩

/-- Settles O46: every way an instruction can end keeps what lies outside the operation, and OUT from
RESULT_LEN on. -/
theorem operationsKeepEverythingElse : Obligations.OperationsKeepEverythingElse := by
  intro i s t h he
  obtain ⟨t', he', hend⟩ := exec_end i s
  cases he.symm.trans he'
  exact ⟨hend.outside, hend.resultLen_le,
    fun k hk => hend.readOut_above h.inv.outMem_wf h.cap_le_maxWord hk⟩

end Sys2Proof.Proofs

/-! SUPPORT. The header byte (R91, R102): its two nibbles, the encoder as the decoder's inverse, and what
the fetched byte selects. -/

namespace Sys2Proof.Machine

/-! ### The nibbles -/

/-- The two nibbles are the whole byte, so a byte is the one written for its code and low nibble. -/
theorem headerByte_code_low (h : Byte) : headerByte (headerCode h) (headerLow h) = h := by
  rw [headerByte, headerCode, headerLow, BitVec.extractLsb'_append_extractLsb'_eq_extractLsb'
      (show 4 = 0 + 4 from rfl),
    BitVec.extractLsb'_eq_self]

theorem headerCode_eq_ofNat (h : Byte) : headerCode h = BitVec.ofNat 4 (h.toNat / 16) := by
  rw [← headerCode_toNat, BitVec.ofNat_toNat, BitVec.setWidth_eq]

theorem headerLow_eq_ofNat (h : Byte) : headerLow h = BitVec.ofNat 4 (h.toNat % 16) := by
  refine BitVec.eq_of_toNat_eq ?_
  rw [headerLow, BitVec.extractLsb'_toNat, BitVec.toNat_ofNat, Nat.shiftRight_zero]
  omega

/-! ### Decoding what was encoded -/

/-- The round trip of each row of the opcode map. -/
theorem headerRoundTrip (i : Instr) : Laws.HeaderRoundTrip.Statement i := by
  cases i with
  | empty => exact Laws.HeaderRoundTrip.empty
  | raw lo => exact Laws.HeaderRoundTrip.raw lo
  | packed lo => exact Laws.HeaderRoundTrip.packed lo
  | rle lo => exact Laws.HeaderRoundTrip.rle lo
  | invalid3 lo => exact Laws.HeaderRoundTrip.invalid3 lo
  | invalid4 lo => exact Laws.HeaderRoundTrip.invalid4 lo
  | invalid5 lo => exact Laws.HeaderRoundTrip.invalid5 lo
  | invalid6 lo => exact Laws.HeaderRoundTrip.invalid6 lo
  | invalid7 lo => exact Laws.HeaderRoundTrip.invalid7 lo
  | invalid8 lo => exact Laws.HeaderRoundTrip.invalid8 lo
  | invalid9 lo => exact Laws.HeaderRoundTrip.invalid9 lo
  | invalid10 lo => exact Laws.HeaderRoundTrip.invalid10 lo
  | invalid11 lo => exact Laws.HeaderRoundTrip.invalid11 lo
  | invalid12 lo => exact Laws.HeaderRoundTrip.invalid12 lo
  | invalid13 lo => exact Laws.HeaderRoundTrip.invalid13 lo
  | invalid14 lo => exact Laws.HeaderRoundTrip.invalid14 lo
  | invalid15 lo => exact Laws.HeaderRoundTrip.invalid15 lo

/-- Only the empty block has no header (R90). -/
theorem encode_ne_nil {i : Instr} (hi : i ≠ .empty) : encode i ≠ [] := by
  cases i with
  | empty => exact absurd rfl hi
  | _ => exact List.cons_ne_nil _ _

theorem decode_encode_append {i : Instr} (hi : i ≠ .empty) (rest : List Byte) :
    decode (encode i ++ rest) = (i, rest) := by
  obtain ⟨-, -, -, happend⟩ := headerRoundTrip i
  exact happend rest (encode_ne_nil hi)

/-- A byte the encoder writes is decoded to the instruction it was written for. -/
theorem decode_cons_of_encode {i : Instr} {h : Byte} (he : encode i = [h]) (rest : List Byte) :
    decode (h :: rest) = (i, rest) := by
  have hi : i ≠ .empty := by
    rintro rfl
    cases he
  have hdec := decode_encode_append hi rest
  rwa [he] at hdec

/-! ### Encoding what was decoded -/

/-- Each Invalid operation is written with the code it names. -/
theorem encode_of_mem_invalidOps {lo n : Nibble} {i : Instr} (h : (i, n) ∈ invalidOps lo) :
    encode i = [headerByte n lo] := by
  simp only [invalidOps, List.mem_cons, Prod.mk.injEq, List.not_mem_nil, or_false] at h
  rcases h with ⟨rfl, rfl⟩ | ⟨rfl, rfl⟩ | ⟨rfl, rfl⟩ | ⟨rfl, rfl⟩ | ⟨rfl, rfl⟩ | ⟨rfl, rfl⟩ |
    ⟨rfl, rfl⟩ | ⟨rfl, rfl⟩ | ⟨rfl, rfl⟩ | ⟨rfl, rfl⟩ | ⟨rfl, rfl⟩ | ⟨rfl, rfl⟩ | ⟨rfl, rfl⟩ <;> rfl

/-- The instruction a header byte selects is written with the same two nibbles. -/
theorem encode_decodeHeader_nibbles (h : Byte) :
    encode (decodeHeader h) = [headerByte (headerCode h) (headerLow h)] := by
  by_cases hraw : h.toNat / 16 = 0
  · rw [decodeHeader_raw hraw, headerCode_eq_ofNat, hraw]
    rfl
  by_cases hpacked : h.toNat / 16 = 1
  · rw [decodeHeader_packed hpacked, headerCode_eq_ofNat, hpacked]
    rfl
  by_cases hrle : h.toNat / 16 = 2
  · rw [decodeHeader_rle hrle, headerCode_eq_ofNat, hrle]
    rfl
  · exact encode_of_mem_invalidOps (decodeHeader_invalid h (by omega))

theorem encode_decodeHeader (h : Byte) : encode (decodeHeader h) = [h] := by
  rw [encode_decodeHeader_nibbles, headerByte_code_low]

theorem encode_decode (bs : List Byte) : encode (decode bs).1 ++ (decode bs).2 = bs := by
  cases bs with
  | nil => rfl
  | cons h payload => rw [decode, encode_decodeHeader, List.singleton_append]

/-! ### What a header byte means -/

theorem fetchInstr_of_len_ne_zero {s : State} (hlen : s.regs.len ≠ 0) :
    fetchInstr s = decodeHeader (readIn s 0) := by
  rw [fetchInstr, fetchBytes, if_neg hlen, decode]

/-- The meaning of a header byte is a function of its high nibble (R92, R102, R156). -/
theorem exec_decodeHeader (h : Byte) (s : State) :
    exec (decodeHeader h) s =
      if h.toNat / 16 = 0 then execRaw s
      else if h.toNat / 16 = 1 then execPacked s
      else if h.toNat / 16 = 2 then execRle s
      else .next (enterInvalid (BitVec.ofNat 4 (h.toNat / 16)) s) := by
  by_cases hraw : h.toNat / 16 = 0
  · rw [decodeHeader_raw hraw, if_pos hraw]
    rfl
  by_cases hpacked : h.toNat / 16 = 1
  · rw [decodeHeader_packed hpacked, if_neg hraw, if_pos hpacked]
    rfl
  by_cases hrle : h.toNat / 16 = 2
  · rw [decodeHeader_rle hrle, if_neg hraw, if_neg hpacked, if_pos hrle]
    rfl
  · rw [exec_of_mem_invalidOps (decodeHeader_invalid h (by omega)), if_neg hraw, if_neg hpacked,
      if_neg hrle, headerCode_eq_ofNat]

/-- `DecodeBlock` reads the header byte's high nibble alone (R92). -/
theorem decodeBlock_congr_header (u : Unpacker) (inMax cap : Nat) {h h' : Byte} (payload : List Byte)
    (hcode : h.toNat / 16 = h'.toNat / 16) :
    decodeBlock u inMax cap (h :: payload) = decodeBlock u inMax cap (h' :: payload) := by
  rcases Nat.lt_or_ge inMax (payload.length + 1) with hlong | hfits
  · rw [decodeBlock_inputRange u cap hlong, decodeBlock_inputRange u cap hlong, List.length_cons,
      List.length_cons]
  · rw [decodeBlock_cons u cap hfits, decodeBlock_cons u cap hfits, hcode]

end Sys2Proof.Machine

/-! The statements of `spec/30_encoding.md`: the decoder and the encoder are each other's inverse (R90,
R91, R102), and what the two nibbles of the header do (R91, R92, R101). -/

namespace Sys2Proof.Proofs

open Sys2Proof.Machine

/-- Settles O1: a round trip for each row one way, the two nibbles of the header byte the other. -/
theorem decodeAndEncodeAgree : Obligations.DecodeAndEncodeAgree :=
  ⟨fun _ rest _ hi => decode_encode_append hi rest, rfl, encode_decode⟩

/-- Settles O2: each byte written out is the one the encoder writes for its row. -/
theorem writtenHeaderBytesDecode : Obligations.WrittenHeaderBytesDecode := by
  intro rest
  refine ⟨rfl, ?_, ?_, ?_, ?_, ?_, ?_, ?_, ?_, ?_, ?_, ?_, ?_, ?_, ?_, ?_, ?_⟩ <;>
    exact decode_cons_of_encode rfl rest

/-- Settles O3: what is fetched is the header byte decoded. -/
theorem highNibbleSelectsTheOperation : Obligations.HighNibbleSelectsTheOperation := by
  intro s hlen h lo
  have hlo : headerLow h = lo := headerLow_eq_ofNat h
  rw [fetchInstr_of_len_ne_zero hlen, ← hlo]
  refine ⟨decodeHeader_raw, decodeHeader_packed, decodeHeader_rle, fun hcode => ?_⟩
  rw [← headerCode_eq_ofNat]
  exact decodeHeader_invalid h hcode

/-- Settles O4: both the meaning and `DecodeBlock` are functions of the high nibble. -/
theorem lowNibbleHasNoEffect : Obligations.LowNibbleHasNoEffect := by
  intro h h' hcode
  refine ⟨fun s => ?_, fun u inMax cap payload => decodeBlock_congr_header u inMax cap payload hcode⟩
  rw [exec_decodeHeader, exec_decodeHeader, hcode]

end Sys2Proof.Proofs

/-! SUPPORT. The primitives of `spec/40_primitives.md` both ways: the sign-fold as an i64 and its inverse
(R120 to R123), when ReadUvarint fails and what it makes of a minimal varint (R126 to R129). -/

namespace Sys2Proof.Machine

/-! ### Sign-fold -/

/-- The sign-fold of a word lies in the i64 range, so its 64-bit form loses nothing (R120, R121). -/
theorem zigzag_toInt (w : Word) : (zigzag w).toInt = signFold w := by
  rw [zigzag_eq_signFold, BitVec.toInt_ofInt]
  rcases Nat.mod_two_eq_zero_or_one w.toNat with h | h
  · rw [signFold_of_even h]
    exact Int.bmod_eq_of_le (by omega) (by omega)
  · rw [signFold_of_odd h]
    exact Int.bmod_eq_of_le (by omega) (by omega)

theorem zigzag_zigzagEncode (v : Word) : zigzag (zigzagEncode v) = v := by
  rw [zigzag_eq_signFold, ofInt_signFold_zigzagEncode]

/-- The inverse of the sign-fold in unbounded integers (R123). -/
theorem zigzagEncode_toNat_eq_toInt (v : Word) :
    ((zigzagEncode v).toNat : Int) = if 0 ≤ v.toInt then 2 * v.toInt else -2 * v.toInt - 1 := by
  rw [zigzagEncode_toNat, BitVec.toInt_eq_toNat_cond]
  by_cases h : v.toNat < 2 ^ 63
  · rw [if_pos h, if_pos (show 2 * v.toNat < 2 ^ 64 by omega), if_pos (by omega)]
    omega
  · rw [if_neg h, if_neg (show ¬ 2 * v.toNat < 2 ^ 64 by omega), if_neg (by omega)]
    omega

theorem zigzagEncode_zigzag (w : Word) : zigzagEncode (zigzag w) = w := by
  refine BitVec.eq_of_toNat_eq (Int.ofNat_inj.1 ?_)
  rw [zigzagEncode_toNat_eq_toInt, zigzag_toInt]
  rcases Nat.mod_two_eq_zero_or_one w.toNat with h | h
  · rw [signFold_of_even h, if_pos (by omega)]
    omega
  · rw [signFold_of_odd h, if_neg (by omega)]
    omega

/-! ### Varints that fail -/

/-- From its `i`-th byte on, the varint at `pos` runs into the end of the block, or past ten bytes, or has
a tenth byte that makes it exceed 64 bits (R126, R127). -/
def uvarintFails (rd : Nat → Byte) (len pos i : Nat) : Prop :=
  (∃ k, k < 10 ∧ len ≤ pos + k ∧ i ≤ k ∧ ∀ j, i ≤ j → j < k → (rd (pos + j)).getLsbD 7 = true) ∨
  (∀ j, i ≤ j → j < 10 → (rd (pos + j)).getLsbD 7 = true) ∨
  ((∀ j, i ≤ j → j < 9 → (rd (pos + j)).getLsbD 7 = true) ∧ ¬ (rd (pos + 9)).getLsbD 7 = true ∧
    1 < (rd (pos + 9)).toNat)

section Fails

variable {rd : Nat → Byte} {len pos i : Nat}

theorem uvarintFails_ten : uvarintFails rd len pos 10 :=
  .inr (.inl fun _ hij hj => absurd hj (Nat.not_lt.2 hij))

theorem uvarintFails_of_end (hi : i < 10) (hend : len ≤ pos + i) : uvarintFails rd len pos i :=
  .inl ⟨i, hi, hend, le_refl i, fun _ hij hji => absurd hji (Nat.not_lt.2 hij)⟩

/-- A property of every byte from the `i`-th on holds of the `i`-th and of those after it. -/
theorem forall_from_iff {p : Nat → Prop} {k : Nat} (hp : p i) :
    (∀ j, i ≤ j → j < k → p j) ↔ ∀ j, i + 1 ≤ j → j < k → p j := by
  refine ⟨fun h j hij => h j (Nat.le_of_succ_le hij), fun h j hij hjk => ?_⟩
  rcases Nat.eq_or_lt_of_le hij with rfl | hlt
  · exact hp
  · exact h j hlt hjk

/-- A byte with bit 7 = 1 leaves it to the bytes after it. -/
theorem uvarintFails_more (hin : ¬ len ≤ pos + i) (hmore : (rd (pos + i)).getLsbD 7 = true) :
    uvarintFails rd len pos i ↔ uvarintFails rd len pos (i + 1) := by
  have hfrom (k : Nat) := forall_from_iff (k := k) (p := fun j => (rd (pos + j)).getLsbD 7 = true) hmore
  have hafter (k : Nat) (hk : len ≤ pos + k) : i ≤ k ↔ i + 1 ≤ k := by omega
  simp only [uvarintFails, hfrom]
  refine or_congr_left (exists_congr fun k => and_congr_right fun _ => and_congr_right fun hk => ?_)
  rw [hafter k hk]

/-- A byte with bit 7 = 0 fails as a tenth byte above 1 alone. -/
theorem uvarintFails_last (hi : i < 10) (hin : ¬ len ≤ pos + i)
    (hlast : ¬ (rd (pos + i)).getLsbD 7 = true) :
    uvarintFails rd len pos i ↔ i = 9 ∧ 1 < (rd (pos + i)).toNat := by
  constructor
  · rintro (⟨k, -, hk, hik, hmore⟩ | hmore | ⟨hmore, -, hbig⟩)
    · exact absurd (hmore i (le_refl i) (by omega)) hlast
    · exact absurd (hmore i (le_refl i) hi) hlast
    · rcases Nat.lt_or_ge i 9 with h8 | h9
      · exact absurd (hmore i (le_refl i) h8) hlast
      · obtain rfl : i = 9 := by omega
        exact ⟨rfl, hbig⟩
  · rintro ⟨rfl, hbig⟩
    exact .inr (.inr ⟨fun j hij hj => absurd hj (Nat.not_lt.2 hij), hlast, hbig⟩)

end Fails

/-- The loop of ReadUvarint (R125) fails for one of these reasons, whatever the value so far. -/
theorem uvarintLoop_eq_none_iff {rd : Nat → Byte} {len pos n i : Nat} {x : Word} (hn : n + i = 10) :
    uvarintLoop rd len pos n i x = none ↔ uvarintFails rd len pos i := by
  induction n generalizing i x with
  | zero =>
    obtain rfl : i = 10 := by omega
    exact iff_of_true rfl uvarintFails_ten
  | succ n ih =>
    rw [uvarintLoop]
    by_cases hend : len ≤ pos + i
    · rw [if_pos hend]
      exact iff_of_true rfl (uvarintFails_of_end (by omega) hend)
    rw [if_neg hend]
    by_cases hmore : (rd (pos + i)).getLsbD 7 = true
    · simp only [if_pos hmore]
      rw [uvarintFails_more hend hmore]
      exact ih (by omega)
    · simp only [if_neg hmore]
      rw [uvarintFails_last (by omega) hend hmore, ite_eq_left_iff]
      simp

/-! ### Reading a minimal varint -/

/-- The bytes of IN that hold a string are read as that string and what follows it. -/
theorem bytesAt_of_holdsAt {s : State} {p n : Nat} {bs : List Byte} (h : holdsAt s p bs)
    (hn : bs.length ≤ n) : bytesAt s p n = bs ++ bytesAt s (p + bs.length) (n - bs.length) := by
  have hhead : (bytesAt s p n).take bs.length = bs := (bytesAt_take s hn).trans h
  rw [← bytesAt_drop s hn]
  conv_lhs => rw [← List.take_append_drop bs.length (bytesAt s p n), hhead]

/-- Reading a minimal varint in IN gives its value and ends where it ends (R129). -/
theorem varintAt_of_holdsAt {s : State} {p : Nat} {x : Word} (h : holdsAt s p (uvarint x))
    (hlen : p + (uvarint x).length ≤ s.regs.len) : varintAt s p = some (x, (uvarint x).length) := by
  have hloop := uvarintLoop_eq_varintValue s s.regs.len p (n := 10) (i := 0) (x := 0) rfl (by decide)
  rw [Nat.add_zero, bytesAt_of_holdsAt h (by omega), varintValue_uvarint_append,
    Option.map_some, bytesAt_length, Nat.mul_zero, Nat.pow_zero, Nat.zero_add, Nat.one_mul,
    BitVec.ofNat_toNat, BitVec.setWidth_eq,
    show s.regs.len - p - (s.regs.len - p - (uvarint x).length) = (uvarint x).length by omega] at hloop
  exact hloop

end Sys2Proof.Machine

/-! SUPPORT. Admission of an unpacker (R140 to R143): every admitted one has the form of the configured
one, and a block over an admitted one is never refused. -/

namespace Sys2Proof.Machine

/-! ### The complete part of a byte string as words -/

/-- Writing the word that 8 bytes stand for gives them back (R62). -/
theorem beBytes_beWord {bs : List Byte} (h : bs.length = 8) : beBytes (beWord bs) = bs := by
  match bs, h with
  | [b0, b1, b2, b3, b4, b5, b6, b7], _ =>
    rw [beWord_eq_ofNat]
    simp only [beBytes, List.cons.injEq, and_true, ← BitVec.toNat_inj, BitVec.extractLsb'_toNat,
      BitVec.toNat_ofNat, Nat.shiftRight_eq_div_pow, List.foldl_cons, List.foldl_nil]
    omega

/-- A string of at least 8 bytes begins with its first word (R62). -/
theorem eq_beBytes_append {bs : List Byte} (h : 8 ≤ bs.length) :
    bs = beBytes (firstWord bs) ++ bs.drop 8 := by
  rw [firstWord_eq_beWord, beBytes_beWord (List.length_take_of_le h), List.take_append_drop]

theorem completePart_beBytes_append (w : Word) (rest : List Byte) :
    completePart (beBytes w ++ rest) = beBytes w ++ completePart rest := by
  have hlen : 8 * ((beBytes w ++ rest).length / 8) = (beBytes w).length + 8 * (rest.length / 8) := by
    rw [List.length_append, beBytes_length]
    omega
  rw [completePart, hlen, List.take_length_add_append, completePart]

/-- The bytes of the complete words are these words written again, so the words alone determine what COUNT
may depend on (R142). -/
theorem flatMap_beBytes_wordsOf (bs : List Byte) : (wordsOf bs).flatMap beBytes = completePart bs := by
  induction hn : bs.length using Nat.strong_induction_on generalizing bs with
  | _ n ih =>
    rcases Nat.lt_or_ge bs.length 8 with hshort | h8
    · rw [wordsOf_of_length_lt hshort, completePart, Nat.div_eq_of_lt hshort]
      rfl
    · rw [eq_beBytes_append h8, wordsOf_beBytes_append, completePart_beBytes_append, List.flatMap_cons,
        ih _ (by rw [List.length_drop]; omega) _ rfl]

/-! ### The form of an admitted unpacker -/

/-- An unpacker's UNPACK as an open one. -/
def Unpacker.freeOf (u : Unpacker) (w : Word) : Word ⊕ List Word :=
  match u.unpack w with
  | .err d => .inl d
  | .ok vs => .inr vs

/-- An unpacker's COUNT as an open diagnostic of the words. -/
def Unpacker.diagOf (u : Unpacker) (ws : List Word) : Word :=
  match u.count (ws.flatMap beBytes) with
  | .err d => d
  | .ok _ => 0

theorem Unpacker.lists_congr {u v : Unpacker} (h : u.unpack = v.unpack) (ws : List Word) :
    u.lists ws = v.lists ws := by
  induction ws with
  | nil => rfl
  | cons w ws ih => rw [Unpacker.lists, Unpacker.lists, h, ih]

/-- The bound on a list takes nothing from what an admitted unpacker answers (R141). -/
theorem Unpacker.Admitted.unpackOf_freeOf {u : Unpacker} (h : u.Admitted) :
    unpackOf u.freeOf = u.unpack := by
  obtain ⟨hbound, -, -⟩ := h
  funext w
  cases hw : u.unpack w with
  | err d => simp only [unpackOf, Unpacker.freeOf, hw]
  | ok vs => simp only [unpackOf, Unpacker.freeOf, hw, List.take_of_length_le (hbound w vs hw)]

/-- What an admitted unpacker counts is what its words' lists hold (R142 point 2). -/
theorem Unpacker.Admitted.countWords_freeOf {u : Unpacker} (h : u.Admitted) (bs : List Byte) :
    countWords u.freeOf (wordsOf bs) = (u.count bs).toOption := by
  have hlists := Unpacker.lists_congr (u := Unpacker.paired u.freeOf u.diagOf) h.unpackOf_freeOf
  rw [countWords_eq u.freeOf u.diagOf, hlists, h.count_toOption]

/-- A diagnostic of an admitted COUNT is one of the words alone (R142 point 1). -/
theorem Unpacker.Admitted.diagOf_wordsOf {u : Unpacker} (h : u.Admitted) {bs : List Byte} {e : Word}
    (he : u.count bs = .err e) : u.diagOf (wordsOf bs) = e := by
  obtain ⟨-, htrailing, -⟩ := h
  rw [Unpacker.diagOf, flatMap_beBytes_wordsOf, ← htrailing, he]

theorem Unpacker.Admitted.eq_paired {u : Unpacker} (h : u.Admitted) :
    u = Unpacker.paired u.freeOf u.diagOf := by
  have hcount : (Unpacker.paired u.freeOf u.diagOf).count = u.count := by
    funext bs
    rw [Unpacker.paired]
    simp only [h.countWords_freeOf]
    cases hc : u.count bs with
    | ok n => rfl
    | err e => exact congrArg _ (h.diagOf_wordsOf hc)
  cases u with
  | mk unpack count => exact (congrArg₂ Unpacker.mk h.unpackOf_freeOf hcount).symm

/-- Each word of those an unpacker's lists hold is one it unpacks. -/
theorem Unpacker.unpack_of_lists {u : Unpacker} {ws vs : List Word} (h : u.lists ws = some vs) {w : Word}
    (hw : w ∈ ws) : ∃ xs, u.unpack w = .ok xs := by
  induction ws generalizing vs with
  | nil => cases hw
  | cons w' ws ih =>
    obtain ⟨xs, ys, hxs, hys, -⟩ := lists_cons h
    rcases List.mem_cons.1 hw with rfl | htail
    · exact ⟨xs, hxs⟩
    · exact ih hys htail

/-! ### The block over an admitted unpacker -/

theorem hostCommand_ne_refused (c : HostCmd) (s : State) (r : Refusal) :
    hostCommand c s ≠ .refused r := by
  intro h
  cases c with
  | inWrite p b =>
    rw [hostCommand] at h
    split at h <;> cases h
  | outWrite i v =>
    rw [hostCommand] at h
    split at h <;> cases h
  | _ => cases h

theorem phaseCoreWith_next (u : Unpacker) (s : State) : ∃ t, phaseCoreWith u s = .next t := by
  rw [phaseCoreWith]
  split
  · split
    · split <;> exact ⟨_, rfl⟩
    · exact ⟨_, rfl⟩
  · exact ⟨_, rfl⟩

section Admitted

variable {u : Unpacker} (hu : u.Admitted) (d : Decidable u.Admitted) (s : State)

include hu

/-- Every instruction answers a next state, PACKED over the unpacker `u` among them. -/
theorem execWith_next (i : Instr) : ∃ t, execWith u d i s = .next t := by
  obtain ⟨t, ht, -⟩ := exec_end i s
  cases i with
  | packed lo => exact ⟨_, execPackedWith_of hu d s⟩
  | _ => exact ⟨t, ht⟩

theorem runCoreWith_next : ∃ t, runCoreWith u d s = .next t := by
  rw [runCoreWith]
  split
  · split
    · split
      · exact ⟨_, rfl⟩
      · exact execWith_next hu d s _
    · exact ⟨_, rfl⟩
  · exact ⟨_, rfl⟩

theorem runEventWith_ne_refused (e : Event) (r : Refusal) : runEventWith u d e s ≠ .refused r := by
  cases e with
  | host c => exact hostCommand_ne_refused c s r
  | phase =>
    obtain ⟨t, ht⟩ := phaseCoreWith_next u s
    exact ht.trans_ne nofun
  | run =>
    obtain ⟨t, ht⟩ := runCoreWith_next hu d s
    exact ht.trans_ne nofun
  | reset => exact nofun

/-- A step over an admitted unpacker is not refused (R143). -/
theorem stepWith_ne_refused (r : Refusal) : stepWith u d s ≠ .refused r := by
  rw [stepWith, Unpacker.ifAdmitted_of hu d]
  split
  · obtain ⟨t, ht⟩ := runCoreWith_next hu d s
    exact ht.trans_ne nofun
  · exact runEventWith_ne_refused hu d _ _ r

end Admitted

end Sys2Proof.Machine

/-! The statements of `spec/40_primitives.md`: the sign-fold (R120 to R123), varints (R125 to R129),
accumulation (R130), and the external unpacker (R140 to R143). -/

namespace Sys2Proof.Proofs

open Sys2Proof.Machine

/-- Settles O5: the 64-bit sign-fold, read as an i64, is the one in unbounded integers. -/
theorem zigzagIsTheSignFold : Obligations.ZigzagIsTheSignFold := by
  intro w
  rw [zigzag_toInt, signFold]
  refine ⟨fun heven => if_pos heven, fun hodd => if_neg ?_⟩
  omega

/-- Settles O6: both are known in unbounded integers, where each undoes the other. -/
theorem zigzagIsABijection : Obligations.ZigzagIsABijection := fun v =>
  ⟨zigzag_zigzagEncode v, zigzagEncode_zigzag v, zigzagEncode_toNat_eq_toInt v⟩

/-- Settles O9: the loop's reasons to fail, seen from the first byte. -/
theorem varintsFailExactly : Obligations.VarintsFailExactly := by
  intro s more
  rw [readUvarint, uvarintLoop_eq_none_iff (n := Config.varintMax) (i := 0) rfl]
  simp only [uvarintFails, Nat.zero_le, true_implies, true_and, more]

/-- Settles O10: the varint is read as the number it was written for, and the bytes after it are left. -/
theorem varintReadsBack : Obligations.VarintReadsBack := fun _ _ hbytes hlen =>
  varintAt_of_holdsAt hbytes hlen

/-- Settles O12: an admitted unpacker is the pair of its own UNPACK and its own diagnostic, since its COUNT
is a function of the words. -/
theorem configuredUnpackerIsAdmitted : Obligations.ConfiguredUnpackerIsAdmitted :=
  ⟨unpacker_admitted, fun u hu => ⟨u.freeOf, u.diagOf, hu.eq_paired⟩⟩

/-- Settles O39: admission comes before all else, and behind it nothing is refused. -/
theorem onlyUnadmittedUnpackersAreRefused : Obligations.OnlyUnadmittedUnpackersAreRefused := by
  refine ⟨fun u d s => ⟨?_, ?_⟩, fun u hu bs n hn w hw => ?_, fun d s => ?_, fun _ s => ?_⟩
  · exact ⟨fun h hu => stepWith_ne_refused hu d s _ h, fun hu => Unpacker.ifAdmitted_of_not hu d _⟩
  · refine ⟨fun h hu => ?_, fun hu => execPackedWith_of_not hu d s⟩
    cases (execPackedWith_of hu d s).symm.trans h
  · obtain ⟨vs, hvs, -⟩ := hu.lists_of_count hn
    exact Unpacker.unpack_of_lists hvs hw
  · rw [Subsingleton.elim d unpackerDecision]
    rfl
  · exact ⟨_, execPacked_eq s⟩

/-- Settles O11: the sum of two words as an i64 is the exact sum reduced to the i64 range. -/
theorem accumulationWraps : Obligations.AccumulationWraps := by
  intro acc d
  rw [accumulate, BitVec.toInt_add]

end Sys2Proof.Proofs

/-! SUPPORT. CODE from the dispatch to the completion (R155, R158): every phase keeps it, and the phase that
completes the operation copies it to STATUS.HANDLER. -/

namespace Sys2Proof.Machine

/-- The CODE of the operation in progress, or, once it has completed, the HANDLER it completed with. -/
def handlerCode (s : State) : BitVec 2 :=
  if s.phase = .idle then s.status.handler else s.regs.code

theorem handlerCode_idle {s : State} (h : s.phase = .idle) : handlerCode s = s.status.handler := if_pos h

theorem handlerCode_running {s : State} (h : s.phase ≠ .idle) : handlerCode s = s.regs.code := if_neg h

/-! ### Completions -/

theorem handlerCode_returnOk (s : State) : handlerCode (returnOk s) = s.regs.code := rfl

theorem handlerCode_returnOkEmpty (s : State) : handlerCode (returnOkEmpty s) = 0 := rfl

/-- Every error but InputRange, the one raised before the dispatch, names CODE (R310). -/
theorem handlerCode_raise {kind : ErrKind} (hk : kind ≠ .inputRange) (info : Word) (s : State) :
    handlerCode (raise kind info s) = s.regs.code := if_neg hk

/-! ### The phases -/

/-- A step of the core that stays in the operation with CODE as it was. -/
theorem handlerCode_of_keeps {s t : State} (hs : s.phase ≠ .idle) (hphase : t.phase = s.phase)
    (hcode : t.regs.code = s.regs.code) : handlerCode t = s.regs.code :=
  (handlerCode_running (hphase ▸ hs)).trans hcode

theorem rawLoopPhase_handlerCode {s : State} (hs : s.phase ≠ .idle) :
    handlerCode (rawLoopPhase s) = s.regs.code := by
  rcases rawLoopPhase_cases s with ⟨-, h⟩ | ⟨-, h⟩ <;> rw [h]
  · exact handlerCode_of_keeps hs rfl rfl
  · rfl

theorem pkFirstPhase_handlerCode (s : State) : handlerCode (pkFirstPhase s) = s.regs.code := by
  rcases pkFirstPhase_cases s with ⟨-, h⟩ | ⟨-, h⟩ <;> rw [h]
  · exact handlerCode_raise (by decide) _ s
  · rfl

theorem pkSize_handlerCode (n : Nat) (s : State) : handlerCode (pkSize n s) = s.regs.code := by
  rcases pkSize_cases n s with ⟨-, h⟩ | ⟨-, h⟩ <;> rw [h]
  · exact handlerCode_raise (by decide) _ s
  · rfl

theorem pkCountPhase_handlerCode (u : Unpacker) (s : State) :
    handlerCode (pkCountPhase u s) = s.regs.code := by
  rcases pkCountPhase_cases u s with ⟨d, -, h⟩ | ⟨n, -, h⟩ <;> rw [h]
  · exact handlerCode_raise (by decide) _ s
  · exact pkSize_handlerCode n s

theorem pkLoopPhase_handlerCode (u : Unpacker) {s : State} (hs : s.phase ≠ .idle) :
    handlerCode (pkLoopPhase u s) = s.regs.code := by
  rcases pkLoopPhase_cases u s with ⟨-, h⟩ | ⟨-, ⟨d, -, h⟩ | ⟨vs, -, h⟩⟩ <;> rw [h]
  · rfl
  · exact handlerCode_raise (by decide) _ s
  · exact handlerCode_of_keeps hs (pkValues_phase vs _) (by rw [pkValues_regs]; rfl)

theorem rleFirstPhase_handlerCode (s : State) : handlerCode (rleFirstPhase s) = s.regs.code := by
  rcases rleFirstPhase_cases s with ⟨-, h⟩ | ⟨-, h⟩ <;> rw [h]
  · exact handlerCode_raise (by decide) _ s
  · rfl

theorem rleDeltaPhase_handlerCode (s : State) : handlerCode (rleDeltaPhase s) = s.regs.code := by
  rcases rleDeltaPhase_cases s with ⟨-, h⟩ | ⟨v, n, -, h⟩ <;> rw [h]
  · exact handlerCode_raise (by decide) _ s
  · rfl

theorem rleSize_handlerCode (count n : Nat) (s : State) :
    handlerCode (rleSize count n s) = s.regs.code := by
  rcases rleSize_cases count n s with ⟨-, h⟩ | ⟨-, h⟩ <;> rw [h]
  · exact handlerCode_raise (by decide) _ s
  · rfl

theorem rleCountPhase_handlerCode (s : State) : handlerCode (rleCountPhase s) = s.regs.code := by
  rcases rleCountPhase_cases s with ⟨-, h⟩ | ⟨v, n, -, h⟩ <;> rw [h]
  · exact handlerCode_raise (by decide) _ s
  · exact rleSize_handlerCode v.toNat n s

theorem rleFillPhase_handlerCode {s : State} (hs : s.phase ≠ .idle) :
    handlerCode (rleFillPhase s) = s.regs.code := by
  rcases rleFillPhase_cases s with ⟨-, h⟩ | ⟨-, h⟩ <;> rw [h]
  · rcases rleElementStep_cases s with ⟨-, h⟩ | ⟨-, h⟩ <;> rw [h] <;>
      exact handlerCode_of_keeps hs rfl rfl
  · rfl

/-- No phase changes what HANDLER is, or will be. -/
theorem phaseStep_handlerCode (u : Unpacker) (s : State) : handlerCode (phaseStep u s) = handlerCode s := by
  by_cases hs : s.phase = .idle
  · rw [phaseStep, hs]
  rw [handlerCode_running hs]
  unfold phaseStep
  split
  case h_1 | h_2 => exact handlerCode_running hs
  case h_3 => exact rawLoopPhase_handlerCode hs
  case h_4 => exact pkFirstPhase_handlerCode s
  case h_5 => exact pkCountPhase_handlerCode u s
  case h_6 => exact pkLoopPhase_handlerCode u hs
  case h_7 => exact rleFirstPhase_handlerCode s
  case h_8 => exact rleDeltaPhase_handlerCode s
  case h_9 => exact rleCountPhase_handlerCode s
  case h_10 => exact rleFillPhase_handlerCode hs
  case h_11 => exact handlerCode_returnOk s

theorem runOp_handlerCode (u : Unpacker) (s : State) : handlerCode (runOp u s) = handlerCode s :=
  runPhases_keeps (P := fun t => handlerCode t = handlerCode s)
    (fun _ ht => (phaseStep_handlerCode u _).trans ht) rfl

/-! ### The dispatch -/

/-- Raw's checks are made after the dispatch (R171, R172). -/
theorem enterRaw_handlerCode (s : State) : handlerCode (enterRaw s) = 0 := by
  rcases rawSize_cases (dispatchTo 0 s) with ⟨-, h⟩ | ⟨-, -, h⟩ | ⟨-, -, h⟩ <;> rw [enterRaw, h]
  · exact handlerCode_raise (by decide) _ (dispatchTo 0 s)
  · exact handlerCode_raise (by decide) _ (dispatchTo 0 s)
  · rfl

theorem enterPacked_handlerCode (s : State) : handlerCode (enterPacked s) = 1 := rfl

theorem enterRle_handlerCode (s : State) : handlerCode (enterRle s) = 2 := rfl

/-- The codes of the Invalid operations are normalized to the sentinel (R155). -/
theorem normalize_of_mem_invalidOps {lo n : Nibble} {i : Instr} (h : (i, n) ∈ invalidOps lo) :
    normalize n = 3 := by
  have hcodes : ∀ m ∈ [3, 4, 5, 6, 7, 8, 9, 10, 11, 12, 13, 14, 15], normalize m = 3 := by decide
  exact hcodes n (List.mem_map_of_mem (f := Prod.snd) h)

theorem OperationEnd.phase_idle {s t : State} (h : OperationEnd s t) : t.phase = .idle := by
  cases h <;> rfl

/-- HANDLER at completion is the code that the instruction's dispatch fixed (R158). -/
theorem exec_handler {i : Instr} {s t : State} (h : exec i s = .next t) :
    t.status.handler = handlerCode (enter i s) := by
  obtain ⟨t', ht', hend⟩ := exec_end i s
  cases ht'.symm.trans h
  cases (exec_eq_runOp_enter i s).symm.trans h
  rw [← handlerCode_idle hend.phase_idle, runOp_handlerCode]

/-! ### Before the dispatch -/

/-- The length an operation began with is IN_LEN (R37). -/
theorem State.InvWith.ofNat_len {u : Unpacker} {s : State} (h : s.InvWith u)
    (hbusy : s.status.busy = true) : BitVec.ofNat 64 s.regs.len = s.inLen := by
  rw [(h.busy_operands hbusy).1, BitVec.ofNat_toNat, BitVec.setWidth_eq]

/-- The block of length 0 has no header byte (R90, R153). -/
theorem fetchInstr_of_len_eq_zero {s : State} (hlen : s.regs.len = 0) : fetchInstr s = .empty := by
  rw [fetchInstr, fetchBytes, if_pos hlen, decode]

/-- InputRange comes before the fetch (R151). -/
theorem runCore_inputRange {s : State} (hbusy : s.status.busy = true) (hp : s.phase = .header)
    (hlen : s.params.inMax < s.regs.len) : runCore s = .next (raiseInputRange s) := by
  rw [runCore_eq, if_pos hbusy, if_pos hp, if_pos hlen]

theorem raiseInputRange_erred (s : State) :
    erredWith .inputRange 0 0 (BitVec.ofNat 64 s.regs.len) s (raiseInputRange s) :=
  ⟨rfl, rfl, rfl, rfl, rfl, raise_outside _ _ s⟩

end Sys2Proof.Machine

/-! The statements of `spec/41_dispatch.md`: the input range (R151), the empty block (R153) and the
HANDLER of every operation (R158). -/

namespace Sys2Proof.Proofs

open Sys2Proof.Machine

/-- Settles O44: each instruction's dispatch fixes CODE, and its completion records it. -/
theorem handlerIsTheNormalizedCode : Obligations.HandlerIsTheNormalizedCode := by
  intro lo s t
  refine ⟨fun h => ?_, fun h => ?_, fun h => ?_, fun i n hi h => ?_, fun h => ?_, rfl⟩
  · exact (exec_handler h).trans (enterRaw_handlerCode s)
  · exact (exec_handler h).trans (enterPacked_handlerCode s)
  · exact (exec_handler h).trans (enterRle_handlerCode s)
  · cases (exec_of_mem_invalidOps hi s).symm.trans h
    exact normalize_of_mem_invalidOps hi
  · exact (exec_handler h).trans (handlerCode_returnOkEmpty s)

/-- Settles O31: the check of LEN is the core's first, and LEN is IN_LEN. -/
theorem inputRangeComesFirst : Obligations.InputRangeComesFirst := by
  intro s hinv he hp hlen
  have hbusy : s.status.busy = true := hinv.busy_phase.2 (by rw [hp]; decide)
  rw [step_of_no_event he, runCore_inputRange hbusy hp hlen, ← hinv.ofNat_len hbusy]
  exact ⟨_, rfl, raiseInputRange_erred s⟩

/-- Settles O32: EMPTY looks at nothing of the state, and a block without a header byte is EMPTY. -/
theorem emptyBlockDecodesToNothing : Obligations.EmptyBlockDecodesToNothing := by
  refine fun s => ⟨⟨_, rfl, ?_, rfl, rfl, rfl, rfl, complete_outside _ _ _ s, rfl⟩,
    fetchInstr_of_len_eq_zero⟩
  exact status_word_toNat okEmptyStatus

end Sys2Proof.Proofs

/-! SUPPORT. A completion in the terms of the statements: `erredWith` for an error (R310), `decodedTo` for a
success (R311); and the elements of a Raw block in closed form (R94, R173). -/

namespace Sys2Proof.Machine

/-! ### Completions with their frames -/

/-- An error raised where no word of OUT has been written; the kinds of a handler name no nibble, and
HANDLER is CODE (R309, R310). -/
theorem erredWith_raise {s v : State} {kind : ErrKind} {code : BitVec 2} (info : Word)
    (hk : kind ≠ .unknownEncoding ∧ kind ≠ .inputRange) (hcode : v.regs.code = code)
    (houtside : sameOutside s v) (hout : v.outMem = s.outMem) :
    erredWith kind 0 code info s (raise kind info v) := by
  obtain ⟨hnibble, hrange⟩ := hk
  refine ⟨?_, rfl, rfl, rfl, hout, sameOutside_trans houtside (raise_outside _ _ _)⟩
  rw [raise_status, errorStatus, if_neg hnibble, if_neg hrange, hcode]

/-- A success whose elements are the words of OUT below NOUT (R311). -/
theorem decodedTo_returnOk {s v : State} {code : BitVec 2} {n : Nat} {seq : Nat → Word}
    (hcode : v.regs.code = code) (houtside : sameOutside s v) (hnout : v.regs.nout = n)
    (hn : n ≤ maxWord) (hout : ∀ k, readOut v k = if k < n then seq k else readOut s k) :
    decodedTo code n seq s (returnOk v) := by
  refine ⟨by rw [returnOk_status, hcode, okStatus], ?_, rfl, rfl,
    sameOutside_trans houtside (returnOk_outside v), hout⟩
  rw [returnOk_resultLen, hnout]
  exact Nat.mod_eq_of_lt (Nat.lt_succ_of_le hn)

/-- A number that fits a word is not saturated (R26). -/
theorem satWord_of_le {n : Nat} (h : n ≤ maxWord) : satWord n = BitVec.ofNat 64 n := by
  rw [satWord, Nat.min_eq_left h]

/-- The payload lies inside IN, so its length fits a word (R9, R151). -/
theorem State.AtHeader.payloadLen_le_maxWord {s : State} (h : s.AtHeader) : payloadLen s ≤ maxWord :=
  (Nat.sub_le _ _).trans (h.len_le.trans h.inv.inMax_le)

/-! ### Raw -/

/-- ACC after the words 0 to `k` is element `k` (R173). -/
theorem rawAcc_rawStart_succ (s : State) (k : Nat) : rawAcc (rawStart s) (k + 1) = rawElement s k := by
  have hword (p : Nat) : fixedAt (rawStart s) p = fixedAt s p :=
    fixedAt_congr (sameOutside_readIn (rawStart_outside s)) p
  induction k with
  | zero =>
    calc accumulate 0 (fixedAt (rawStart s) 1)
        = 0 + BitVec.ofInt 64 (signFold (fixedAt s 1)) := by rw [accumulate_eq, hword]
      _ = rawElement s 0 := BitVec.zero_add _
  | succ k ih =>
    rw [rawAcc, ih, accumulate_eq, hword]
    rfl

/-- OUT after the Raw loop, inside OUT's range: the elements, and above them what was there (R173). -/
theorem readOut_rawElements_rawStart {s : State} (hwf : Memory.wf s.outMem = true) {n : Nat}
    (hn : n ≤ s.params.outMax) (k : Nat) :
    readOut (rawElementStep^[n] (rawStart s)) k = if k < n then rawElement s k else readOut s k := by
  by_cases hk : k < n
  · obtain ⟨-, hout⟩ := rawElements_out (s := rawStart s) hwf n
    have hidx : (rawStart s).regs.idx = 0 := rfl
    have hrange : k < (rawStart s).params.outMax := Nat.lt_of_lt_of_le hk hn
    rw [hout, if_pos (by omega), if_pos hk, hidx, Nat.sub_zero, rawAcc_rawStart_succ]
  · rw [if_neg hk, rawElements_above hwf (Nat.not_lt.1 hk)]

end Sys2Proof.Machine

/-! The statements of `spec/42_raw.md`: what RAW decodes to (R170, R173) and the errors it raises before it
writes anything (R171, R172). -/

namespace Sys2Proof.Proofs

open Sys2Proof.Machine

/-- Settles O34: the loop leaves the running sums in OUT, and CAP keeps all of them inside OUT. -/
theorem rawDecodesPrefixSums : Obligations.RawDecodesPrefixSums := by
  intro lo s h hmod hcap
  exact ⟨_, execRaw_ok hmod hcap, decodedTo_returnOk (by rw [rawElements_regs]; rfl)
    (sameOutside_trans (rawStart_outside s) (rawElements_outside _ _))
    (by rw [rawElements_regs]; rfl) (hcap.trans h.cap_le_maxWord)
    (readOut_rawElements_rawStart h.inv.outMem_wf (hcap.trans h.cap_le_outMax))⟩

/-- Settles O35: both checks come before the first write, and the length's comes before CAP's (R308). -/
theorem rawRaisesItsErrors : Obligations.RawRaisesItsErrors := by
  refine fun lo s h => ⟨fun hmod => ?_, fun hmod hcap => ?_⟩
  · exact ⟨_, execRaw_malformed hmod, erredWith_raise _ (by decide) rfl (dispatchTo_outside 0 s) rfl⟩
  · have hnout : payloadLen s / 8 ≤ maxWord := (Nat.div_le_self _ _).trans h.payloadLen_le_maxWord
    refine ⟨_, execRaw_capacity hmod hcap, ?_⟩
    rw [satWord_of_le hnout]
    exact erredWith_raise _ (by decide) rfl (dispatchTo_outside 0 s) rfl

end Sys2Proof.Proofs

/-! SUPPORT. A Packed-Delta block in the terms of the statements: the elements of a decoded one (R192 to R195),
and the same operation over another input memory that holds the same first value and packed words (R196). -/

namespace Sys2Proof.Machine

/-- A block that has its first value has at least 8 bytes of payload (R191). -/
theorem eight_le_payloadLen {s : State} (h : 9 ≤ s.regs.len) : 8 ≤ payloadLen s := Nat.le_sub_of_add_le h

/-! ### The elements -/

/-- The decoding pass changes nothing outside the operation (R61). -/
theorem pkElements_outside (vs : List Word) (n k : Nat) (s : State) :
    sameOutside s (vs.foldl pkValueStep (advance (pkLoopStart n s) k)) :=
  sameOutside_trans (pkLoopStart_outside n s)
    (sameOutside_trans (t := advance (pkLoopStart n s) k) ⟨rfl, rfl, rfl, rfl, rfl, rfl, rfl, rfl⟩
      (pkValues_outside vs _))

/-- OUT after the decoding pass, inside OUT's range: the first value and its running sums, and above them
what was there (R192, R194, R195). -/
theorem readOut_pkElements {s : State} (hwf : Memory.wf s.outMem = true) {vs : List Word}
    (hout : 1 + vs.length ≤ s.params.outMax) (j k : Nat) :
    readOut (vs.foldl pkValueStep (advance (pkLoopStart vs.length s) j)) k =
      if k < 1 + vs.length then
        deltaElement (BitVec.ofInt 64 (signFold (fixedAt s 1))) vs k
      else readOut s k := by
  by_cases hk : k < 1 + vs.length
  · rw [if_pos hk, pkValues_pkLoopStart_out hwf vs j hk (hk.trans_le hout), foldl_accumulate_take,
      zigzag_eq_signFold]
  · rw [if_neg hk, pkValues_above hwf vs j (Nat.not_lt.1 hk)]

/-! ### What the operation reads -/

/-- COUNT sees the complete words alone: it ignores trailing bytes (R142). -/
theorem Unpacker.Admitted.count_congr {u : Unpacker} (h : u.Admitted) {bs bs' : List Byte}
    (hwords : wordsOf bs' = wordsOf bs) : u.count bs' = u.count bs := by
  obtain ⟨-, hcomplete, -⟩ := h
  rw [hcomplete bs', hcomplete bs, ← flatMap_beBytes_wordsOf, ← flatMap_beBytes_wordsOf, hwords]

/-- The first value and the packed words lie before the trailing fragment (R95, R196). -/
theorem packed_reads_congr {s t : State} (hlen : t.regs.len = s.regs.len) (h9 : 9 ≤ s.regs.len)
    (hread : ∀ p, p < s.regs.len - (payloadLen s - 8) % 8 → readIn t p = readIn s p) :
    fixedAt t 1 = fixedAt s 1 ∧ wordsOf (packedBytes t) = wordsOf (packedBytes s) := by
  have hpayload : payloadLen s = s.regs.len - 1 := rfl
  have hwords : wordsOf (bytesAt t 1 (s.regs.len - 1)) = wordsOf (bytesAt s 1 (s.regs.len - 1)) :=
    wordsOf_bytesAt_congr fun q _ hq => hread q (by omega)
  rw [wordsOf_bytesAt t, wordsOf_bytesAt s, if_pos (by omega), if_pos (by omega), Nat.sub_sub,
    List.cons.injEq] at hwords
  rwa [packedBytes, packedBytes, hlen]

/-! ### Another input memory -/

/-- `s` with another input memory. -/
def State.withInMem (s : State) (m : Memory Byte) : State := { s with inMem := m }

section
variable {s : State} {m : Memory Byte}

/-- Unpacked values go to OUT whatever IN holds (R195). -/
theorem pkValues_withInMem (vs : List Word) :
    vs.foldl pkValueStep (s.withInMem m) = (vs.foldl pkValueStep s).withInMem m := by
  induction vs generalizing s with
  | nil => rfl
  | cons v vs ih => exact ih (s := pkValueStep s v)

theorem pkCountStart_withInMem (hfirst : fixedAt (s.withInMem m) 1 = fixedAt s 1) :
    pkCountStart (s.withInMem m) = (pkCountStart s).withInMem m := by
  rw [pkCountStart, hfirst]
  rfl

theorem pkLoopStart_withInMem (n : Nat) (hfirst : fixedAt (s.withInMem m) 1 = fixedAt s 1) :
    pkLoopStart n (s.withInMem m) = (pkLoopStart n s).withInMem m := by
  rw [pkLoopStart, pkCountStart_withInMem hfirst, hfirst]
  rfl

/-- The operation takes nothing from IN but the first value and the packed words, on each way through its
checks (R192, R193, R195). -/
theorem runPacked_withInMem {u : Unpacker} (hu : u.Admitted) (h8 : 8 ≤ payloadLen s)
    (hfirst : fixedAt (s.withInMem m) 1 = fixedAt s 1)
    (hwords : wordsOf (packedBytes (s.withInMem m)) = wordsOf (packedBytes s)) :
    runOp u (enterPacked (s.withInMem m)) = (runOp u (enterPacked s)).withInMem m := by
  have h8' : 8 ≤ payloadLen (s.withInMem m) := h8
  have hcount := hu.count_congr hwords
  cases hc : u.count (packedBytes s) with
  | err e =>
    rw [runPacked_diag h8 hc, runPacked_diag h8' (hcount.trans hc), pkCountStart_withInMem hfirst]
    rfl
  | ok n =>
    obtain ⟨vs, hvs, rfl⟩ := hu.lists_of_count hc
    rcases Nat.lt_or_ge s.regs.cap (1 + vs.length) with hcap | hcap
    · rw [runPacked_capacity h8 hc hcap, runPacked_capacity h8' (hcount.trans hc) hcap,
        pkCountStart_withInMem hfirst]
      rfl
    · rw [runPacked_ok hu h8 hvs hcap, runPacked_ok hu h8' (hwords.symm ▸ hvs) hcap, hwords,
        pkLoopStart_withInMem _ hfirst]
      exact congrArg returnOk (pkValues_withInMem (s := advance (pkLoopStart vs.length s) _) vs)

end

end Sys2Proof.Machine

/-! The statements of `spec/43_packed_delta.md`: what Packed-Delta decodes to (R192 to R195), its errors (R191,
R194, R197) and its trailing fragment (R196). -/

namespace Sys2Proof.Proofs

open Sys2Proof.Machine

/-- Settles O36: the decoding pass leaves the running sums in OUT, and CAP keeps all of them inside OUT. -/
theorem packedDecodesWithAnyUnpacker : Obligations.PackedDecodesWithAnyUnpacker := by
  intro u d s deltas hu h h9 hdeltas hcap
  rw [execPackedWith_of hu, runPacked_ok hu (eight_le_payloadLen h9) hdeltas hcap]
  exact ⟨_, rfl, decodedTo_returnOk (by rw [pkValues_regs]; rfl) (pkElements_outside deltas _ _ s)
    (by rw [pkValues_regs]; rfl) (hcap.trans h.cap_le_maxWord)
    (readOut_pkElements h.inv.outMem_wf (hcap.trans h.cap_le_outMax) _)⟩

/-- Settles O37: the configured unpacker is an admitted one. -/
theorem packedDecodesRunningSums : Obligations.PackedDecodesRunningSums := fun _ s deltas =>
  packedDecodesWithAnyUnpacker unpacker unpackerDecision s deltas unpacker_admitted

/-- Settles O38: the three checks come before the first write, in the order of R308. -/
theorem packedRaisesItsErrors : Obligations.PackedRaisesItsErrors := by
  intro u d s hu _ _
  rw [execPackedWith_of hu]
  refine ⟨fun hshort => ?_, fun h8 => ⟨fun e hcount => ?_, fun n hcount hcap => ?_⟩⟩
  · rw [runPacked_short hshort]
    exact ⟨_, rfl, erredWith_raise _ (by decide) rfl (enterPacked_outside s) rfl⟩
  · rw [runPacked_diag h8 hcount]
    exact ⟨_, rfl, erredWith_raise _ (by decide) rfl (pkCountStart_outside s) rfl⟩
  · rw [runPacked_capacity h8 hcount hcap]
    exact ⟨_, rfl, erredWith_raise _ (by decide) rfl (pkCountStart_outside s) rfl⟩

/-- Settles O40: the fragment is neither in the first value nor in a packed word, and COUNT ignores it. -/
theorem packedTrailingFragmentIsIgnored : Obligations.PackedTrailingFragmentIsIgnored := by
  intro lo s m t _ h9 hread hexec
  obtain ⟨hfirst, hwords⟩ := packed_reads_congr (s := s) (t := s.withInMem m) rfl h9 hread
  have hrun := runPacked_withInMem unpacker_admitted (eight_le_payloadLen h9) hfirst hwords
  cases hexec
  exact congrArg Host.Outcome.next hrun

end Sys2Proof.Proofs

/-! SUPPORT. A Run-Length block in the terms of the statements: the elements of a decoded one (R225 to R228),
and the same operation over another input memory that holds the same first value and varints (R230). -/

namespace Sys2Proof.Machine

/-! ### The elements -/

/-- Filling the run changes nothing outside the operation (R61). -/
theorem rleElements_rleFillStart_outside (v1 : Word) (n1 count n2 n : Nat) (s : State) :
    sameOutside s (rleElementStep^[n] (rleFillStart v1 n1 count n2 s)) :=
  sameOutside_trans (rleFillStart_outside v1 n1 count n2 s) (rleElements_outside _ n)

/-- OUT after the run, inside OUT's range: the progression, and above it what was there (R227, R228). -/
theorem readOut_rleElements_rleFillStart {s : State} (hwf : Memory.wf s.outMem = true) (v1 : Word)
    (n1 n2 : Nat) {count : Nat} (hout : count + 1 ≤ s.params.outMax) (k : Nat) :
    readOut (rleElementStep^[count + 1] (rleFillStart v1 n1 count n2 s)) k =
      if k < count + 1 then
        BitVec.ofInt 64 (signFold (fixedAt s 1)) + BitVec.ofNat 64 k * BitVec.ofInt 64 (signFold v1)
      else readOut s k := by
  by_cases hk : k < count + 1
  · rw [if_pos hk, rleElements_rleFillStart_out hwf v1 n1 n2 hk (hk.trans_le hout), zigzag_eq_signFold,
      zigzag_eq_signFold]
  · rw [if_neg hk, rleElements_above hwf v1 n1 count n2 (Nat.not_lt.1 hk)]

/-! ### What the operation reads -/

section
variable {s t : State} {n : Nat}

/-- A fixed-width field depends on its own 8 bytes (R62). -/
theorem fixedAt_congr_below (hread : ∀ q, q < n → readIn t q = readIn s q) {p : Nat} (hp : p + 8 ≤ n) :
    fixedAt t p = fixedAt s p := by
  simp (disch := omega) only [fixedAt, hread]

/-- A varint that succeeds depends on its own bytes and on where the block ends (R125). -/
theorem varintAt_congr_below (hread : ∀ q, q < n → readIn t q = readIn s q)
    (hlen : t.regs.len = s.regs.len) {p k : Nat} {v : Word} (hv : varintAt s p = some (v, k))
    (hp : p + k ≤ n) : varintAt t p = some (v, k) := by
  rw [varintAt, hlen]
  exact uvarintLoop_congr hv fun j _ hj => hread (p + j) (by omega)

end

/-! ### Another input memory -/

section
variable {s : State} {m : Memory Byte}

/-- An element of the run is made from the registers, whatever IN holds (R227, R228). -/
theorem rleElementStep_withInMem :
    rleElementStep (s.withInMem m) = (rleElementStep s).withInMem m := by
  rw [rleElementStep, rleElementStep, apply_ite (State.withInMem · m)]
  rfl

theorem rleElements_withInMem (n : Nat) :
    rleElementStep^[n] (s.withInMem m) = (rleElementStep^[n] s).withInMem m :=
  have hstep : Function.Semiconj (State.withInMem · m) rleElementStep rleElementStep :=
    fun _ => rleElementStep_withInMem.symm
  (hstep.iterate_right n s).symm

theorem rleCountStart_withInMem (v1 : Word) (n1 : Nat)
    (hfirst : fixedAt (s.withInMem m) 1 = fixedAt s 1) :
    rleCountStart v1 n1 (s.withInMem m) = (rleCountStart v1 n1 s).withInMem m := by
  rw [rleCountStart, rleDeltaStart, hfirst]
  rfl

theorem rleFillStart_withInMem (v1 : Word) (n1 count n2 : Nat)
    (hfirst : fixedAt (s.withInMem m) 1 = fixedAt s 1) :
    rleFillStart v1 n1 count n2 (s.withInMem m) = (rleFillStart v1 n1 count n2 s).withInMem m := by
  rw [rleFillStart, rleCountStart_withInMem v1 n1 hfirst, hfirst]
  rfl

/-- Once both varints are read, the operation takes nothing more from IN, whether the run fits or not
(R226, R230). -/
theorem execRle_withInMem {t : State} {v1 v2 : Word} {n1 n2 : Nat} (h8 : 8 ≤ payloadLen s)
    (h1 : varintAt s 9 = some (v1, n1)) (h2 : varintAt s (9 + n1) = some (v2, n2))
    (hfirst : fixedAt (s.withInMem m) 1 = fixedAt s 1)
    (h1' : varintAt (s.withInMem m) 9 = some (v1, n1))
    (h2' : varintAt (s.withInMem m) (9 + n1) = some (v2, n2)) (hexec : execRle s = .next t) :
    execRle (s.withInMem m) = .next (t.withInMem m) := by
  have h8' : 8 ≤ payloadLen (s.withInMem m) := h8
  rcases Nat.lt_or_ge s.regs.cap (v2.toNat + 1) with hcap | hcap
  · rw [execRle_capacity h8 h1 h2 hcap] at hexec
    rw [execRle_capacity h8' h1' h2' hcap, rleCountStart_withInMem v1 n1 hfirst]
    cases hexec
    rfl
  · rw [execRle_ok h8 h1 h2 hcap] at hexec
    rw [execRle_ok h8' h1' h2' hcap, rleFillStart_withInMem v1 n1 _ n2 hfirst, rleElements_withInMem]
    cases hexec
    rfl

end

end Sys2Proof.Machine

/-! The statements of `spec/44_run_length.md`: what Run-Length decodes to (R225, R227, R228), its errors (R221,
R223, R224, R226) and its trailing bytes (R230). -/

namespace Sys2Proof.Proofs

open Sys2Proof.Machine

/-- Settles O41: the run leaves the progression in OUT, and CAP keeps all of it inside OUT. -/
theorem runLengthDecodesTheProgression : Obligations.RunLengthDecodesTheProgression := by
  intro lo s v1 v2 n1 n2 h h9 h1 h2 hcap
  exact ⟨_, execRle_ok (eight_le_payloadLen h9) h1 h2 hcap,
    decodedTo_returnOk (by rw [rleElements_regs]; rfl) (rleElements_rleFillStart_outside v1 n1 _ n2 _ s)
      (by rw [rleElements_regs]; rfl) (hcap.trans h.cap_le_maxWord)
      (readOut_rleElements_rleFillStart h.inv.outMem_wf v1 n1 n2 (hcap.trans h.cap_le_outMax))⟩

/-- Settles O42: the four checks come before the first write, in the order of R308, and CAP is a 64-bit
number (R37). -/
theorem runLengthRaisesItsErrors : Obligations.RunLengthRaisesItsErrors := by
  refine fun lo s h _ => ⟨fun hshort => ?_, fun h8 h1 => ?_, fun v1 n1 h8 h1 =>
    ⟨fun h2 => ?_, fun v2 n2 h2 => ⟨fun hcap => ?_, fun hlongest => ?_⟩⟩⟩
  · exact ⟨_, execRle_short hshort, erredWith_raise _ (by decide) rfl (enterRle_outside s) rfl⟩
  · exact ⟨_, execRle_malformed_delta h8 h1,
      erredWith_raise _ (by decide) rfl (rleDeltaStart_outside s) rfl⟩
  · exact ⟨_, execRle_malformed_count h8 h1 h2,
      erredWith_raise _ (by decide) rfl (rleCountStart_outside v1 n1 s) rfl⟩
  · exact ⟨_, execRle_capacity h8 h1 h2 hcap,
      erredWith_raise _ (by decide) rfl (rleCountStart_outside v1 n1 s) rfl⟩
  · have hcap : s.regs.cap ≤ 2 ^ 64 - 1 := h.cap_le_maxWord
    omega

/-- Settles O43: the first value and both varints lie before the trailing bytes. -/
theorem runLengthTrailingBytesAreIgnored : Obligations.RunLengthTrailingBytesAreIgnored := by
  intro lo s m t v1 v2 n1 n2 _ h9 h1 h2 hread hexec
  exact execRle_withInMem (eight_le_payloadLen h9) h1 h2
    (fixedAt_congr_below hread (by omega)) (varintAt_congr_below hread rfl h1 (by omega))
    (varintAt_congr_below hread rfl h2 (by omega)) hexec

end Sys2Proof.Proofs

/-! SUPPORT. The Invalid handler's completion in the terms of the statements (R250 to R252). -/

namespace Sys2Proof.Machine

/-- UnknownEncoding reports NIB, which the dispatch leaves unnormalized, and HANDLER is the normalized CODE
(R154, R155, R251). -/
theorem enterInvalid_erred (n : Nibble) (s : State) :
    erredWith .unknownEncoding n (normalize n) (n.setWidth 64) s (enterInvalid n s) := by
  have hstatus : (enterInvalid n s).status = errorStatus .unknownEncoding n (normalize n) := rfl
  have houtside : sameOutside s (enterInvalid n s) :=
    sameOutside_trans (dispatchTo_outside n s) (raise_outside _ _ _)
  refine ⟨?_, rfl, rfl, rfl, rfl, houtside⟩
  rw [hstatus, errorStatus, if_pos rfl, if_neg (by decide)]

end Sys2Proof.Machine

/-! The statement of `spec/45_invalid.md`: the Invalid operations and the error they name (R250 to R252). -/

namespace Sys2Proof.Proofs

open Sys2Proof.Machine

/-- Settles O33: the meaning is the Invalid handler at the code written in the header, and that code is
normalized to the sentinel 3 in HANDLER alone. -/
theorem invalidCodesNameTheirNibble : Obligations.InvalidCodesNameTheirNibble := by
  intro lo s i n h
  have herred := enterInvalid_erred n s
  rw [normalize_of_mem_invalidOps h] at herred
  exact ⟨encode_of_mem_invalidOps h, enterInvalid n s, exec_of_mem_invalidOps h s, herred⟩

end Sys2Proof.Proofs

/-! SUPPORT. The host's commands, an equation a case: the accesses to IN and OUT (R265 to R267), and the four
ways a CTRL write can go (R262 to R264, R269, R270). -/

namespace Sys2Proof.Machine

/-! ### IN and OUT -/

section

variable {s : State}

theorem hostCommand_inWrite_idle (hb : s.status.busy = false) (p : Nat) (b : Byte) :
    hostCommand (.inWrite p b) s = .next (writeIn s p b) := by
  simp [hostCommand, hb]

theorem hostCommand_inWrite_busy (hb : s.status.busy = true) (p : Nat) (b : Byte) :
    hostCommand (.inWrite p b) s = .fault .hostHazard := if_pos hb

theorem hostCommand_outWrite_idle (hb : s.status.busy = false) (i : Nat) (v : Word) :
    hostCommand (.outWrite i v) s = .next (writeOut s i v) := by
  simp [hostCommand, hb]

theorem hostCommand_outWrite_busy (hb : s.status.busy = true) (i : Nat) (v : Word) :
    hostCommand (.outWrite i v) s = .fault .hostHazard := if_pos hb

theorem readIn_outside {p : Nat} (h : s.params.inMax ≤ p) : readIn s p = 0 := if_neg (not_lt.2 h)

theorem readOut_outside {i : Nat} (h : s.params.outMax ≤ i) : readOut s i = 0 := if_neg (not_lt.2 h)

theorem outRead_idle (hb : s.status.busy = false) (i : Nat) :
    outRead i s = { s with replies := s.replies ++ [.outWord i (readOut s i)] } := by
  rcases outRead_cases i s with ⟨-, he⟩ | ⟨hbusy, -, -⟩
  · exact he
  · simp [hb] at hbusy

/-- An OUTREAD adds one reply for its index; beside that, only the count of draws can move. -/
theorem outRead_replies_one_word (i : Nat) (s : State) :
    ∃ v d, outRead i s = { s with replies := s.replies ++ [.outWord i v], draws := d } := by
  rcases outRead_cases i s with ⟨-, he⟩ | ⟨-, -, he⟩
  · exact ⟨_, s.draws, he⟩
  · exact ⟨_, _, he⟩

/-! ### CTRL -/

variable {v : Word}

theorem ctrlWrite_busy (hb : s.status.busy = true) (v : Word) :
    ctrlWrite v s = { s with irqEn := v.getLsbD 2 } := if_pos hb

theorem ctrlWrite_start (hb : s.status.busy = false) (h0 : v.getLsbD 0 = true) :
    ctrlWrite v s = startOperation { s with irqEn := v.getLsbD 2 } := by
  simp only [ctrlWrite, hb, h0, Bool.false_eq_true, if_false, if_true]

theorem ctrlWrite_clear (hb : s.status.busy = false) (h0 : v.getLsbD 0 = false)
    (h1 : v.getLsbD 1 = true) : ctrlWrite v s = clearDone { s with irqEn := v.getLsbD 2 } := by
  simp only [ctrlWrite, hb, h0, h1, Bool.false_eq_true, if_false, if_true]

/-- Without START and CLEAR a CTRL write stores IRQ_EN alone, busy or idle. -/
theorem ctrlWrite_irqEn_alone (h0 : v.getLsbD 0 = false) (h1 : v.getLsbD 1 = false) (s : State) :
    ctrlWrite v s = { s with irqEn := v.getLsbD 2 } := by
  simp only [ctrlWrite, h0, h1, Bool.false_eq_true, if_false, ite_self]

/-- At START STATUS reads BUSY alone (R262). -/
theorem startStatus_word_toNat : startStatus.word.toNat = 1 := status_word_toNat startStatus

@[simp] theorem ctrlWrite_irqEn (v : Word) (s : State) : (ctrlWrite v s).irqEn = v.getLsbD 2 := by
  rcases ctrlWrite_cases v s with ⟨-, he⟩ | ⟨-, -, he⟩ | ⟨-, -, -, he⟩ | ⟨-, -, -, he⟩ <;> rw [he]
  · exact startOperation_irqEn _
  · exact clearDone_irqEn _

/-- Two writes that both set START agree when they agree on IRQ_EN: CLEAR is not looked at (R269). -/
theorem ctrlWrite_congr_start {w : Word} (hv : v.getLsbD 0 = true) (hw : w.getLsbD 0 = true)
    (h2 : v.getLsbD 2 = w.getLsbD 2) (s : State) : ctrlWrite v s = ctrlWrite w s := by
  cases hb : s.status.busy with
  | true => rw [ctrlWrite_busy hb, ctrlWrite_busy hb, h2]
  | false => rw [ctrlWrite_start hb hv, ctrlWrite_start hb hw, h2]

end

end Sys2Proof.Machine

/-! The statements of `spec/46_host_commands.md`: the host's accesses to IN and OUT (R265 to R267), and what a
CTRL write does (R262 to R264, R269, R270). -/

namespace Sys2Proof.Proofs

open Sys2Proof.Machine

/-- Settles O14: an idle INWRITE is the store to IN, whose memory the invariant keeps canonical. -/
theorem inwriteStoresOneByte : Obligations.InwriteStoresOneByte := fun _ p b hinv =>
  ⟨fun hidle => ⟨_, hostCommand_inWrite_idle hidle p b, rfl, readIn_writeIn hinv.inMem_wf p b⟩,
    fun hbusy _ => hostCommand_inWrite_busy hbusy p b⟩

/-- Settles O15: an idle OUTWRITE is the store to OUT, whose memory the invariant keeps canonical. -/
theorem outwriteStoresOneWord : Obligations.OutwriteStoresOneWord := fun _ i v hinv =>
  ⟨fun hidle => ⟨_, hostCommand_outWrite_idle hidle i v, rfl, readOut_writeOut hinv.outMem_wf i v⟩,
    fun hbusy _ => hostCommand_outWrite_busy hbusy i v⟩

/-- Settles O16: a read adds its reply, and while busy OUTREAD may draw the word it returns. -/
theorem memoryReadsHaveNoSideEffect : Obligations.MemoryReadsHaveNoSideEffect := by
  refine fun s p => ⟨rfl, readIn_outside, fun hidle => ?_, readOut_outside, fun _ => ?_⟩
  · exact congrArg _ (outRead_idle hidle p)
  · obtain ⟨v, d, he⟩ := outRead_replies_one_word p s
    exact ⟨v, d, congrArg _ he⟩

/-- Settles O21: each way a CTRL write can go starts from the state with IRQ_EN stored. -/
theorem everyCtrlWriteStoresIrqEn : Obligations.EveryCtrlWriteStoresIrqEn := fun s v =>
  ⟨⟨_, rfl, ctrlWrite_irqEn v s⟩, fun h0 h1 => congrArg _ (ctrlWrite_irqEn_alone h0 h1 s)⟩

/-- Settles O22: the write is `startOperation` after IRQ_EN is stored, whatever its CLEAR bit. -/
theorem startBeginsAnOperation : Obligations.StartBeginsAnOperation := fun s v hidle h0 =>
  ⟨startOperation { s with irqEn := v.getLsbD 2 }, congrArg _ (ctrlWrite_start hidle h0),
    rfl, rfl, rfl, rfl, startStatus_word_toNat, rfl, rfl, rfl, rfl, rfl⟩

/-- Settles O23: an idle CLEAR is `clearDone`, a busy one is not looked at, and START comes before CLEAR. -/
theorem clearLowersDoneAlone : Obligations.ClearLowersDoneAlone := by
  refine ⟨fun s v h1 h0 => ⟨fun hidle => ?_, fun hbusy => ?_⟩, fun s v w hv hw h2 => ?_⟩
  · exact ⟨clearDone { s with irqEn := v.getLsbD 2 }, congrArg _ (ctrlWrite_clear hidle h0 h1),
      rfl, rfl, rfl⟩
  · exact congrArg _ (ctrlWrite_busy hbusy v)
  · exact congrArg _ (ctrlWrite_congr_start hv hw h2 s)

end Sys2Proof.Proofs

/-! SUPPORT. How an operation has ended, and when the core takes no step (R309 to R311, R335). -/

namespace Sys2Proof.Machine

/-! ### The completions -/

/-- However it ends, an operation has BUSY = 0 and DONE = 1 (R310, R311). -/
theorem OperationEnd.done {s t : State} (h : OperationEnd s t) :
    t.status.busy = false ∧ t.status.done = true := by
  cases h <;> exact ⟨rfl, rfl⟩

/-- ERR = 1 shuts the success completions out, and an error completion leaves OUT alone (R309). -/
theorem OperationEnd.of_err {s t : State} (h : OperationEnd s t) (herr : t.status.err = true) :
    t.outMem = s.outMem ∧ t.resultLen = 0 := by
  cases h with
  | error kind info _ hout => exact ⟨hout, rfl⟩
  | empty => cases herr
  | ok => cases herr

/-! ### The idle core -/

theorem runCore_idle {s : State} (hb : s.status.busy = false) : runCore s = .next s := by
  simp [runCore_eq, hb]

theorem phaseCore_idle {s : State} (hb : s.status.busy = false) : phaseCore s = .next s := by
  simp [phaseCore_eq, hb]

end Sys2Proof.Machine

/-! SUPPORT. The hazard, the busy register writes and reset, at the level of a step (R340 to R347). -/

namespace Sys2Proof.Machine

/-- The core never faults, so the fault of an event is that of a host command. -/
theorem runEvent_fault {e : Event} {s : State} {f : Fault} (h : runEvent e s = .fault f) :
    ∃ c, e = .host c ∧ hostCommand c s = .fault f := by
  cases e with
  | host c => exact ⟨c, rfl, h⟩
  | phase =>
    obtain ⟨t, ht⟩ := phaseCoreWith_next unpacker s
    cases ht.symm.trans h
  | run =>
    obtain ⟨t, ht⟩ := runCoreWith_next unpacker_admitted unpackerDecision s
    cases ht.symm.trans h
  | reset => cases h

/-- A step faults only in a host command, the next event. -/
theorem step_fault {s : State} {f : Fault} (h : step s = .fault f) :
    ∃ c es, s.events = .host c :: es ∧ hostCommand c { s with events := es } = .fault f := by
  cases he : s.events with
  | nil =>
    obtain ⟨t, ht⟩ := runCoreWith_next unpacker_admitted unpackerDecision s
    cases ht.symm.trans ((step_of_no_event he).symm.trans h)
  | cons e es =>
    obtain ⟨c, rfl, hc⟩ := runEvent_fault ((step_of_event he).symm.trans h)
    exact ⟨c, es, rfl, hc⟩

/-- While BUSY = 1 every register but CTRL ignores a write (R347). -/
theorem regWrite_ignored_busy {s : State} (hb : s.status.busy = true) {n : Nat} (h0 : n ≠ 0) (v : Word) :
    regWrite n v s = s := by
  have hidle : ¬ s.status.busy = false := by simp [hb]
  rcases regWrite_cases n v s with ⟨hn, -⟩ | ⟨-, hbusy, -⟩ | ⟨-, hbusy, -⟩ | ⟨-, -, he⟩
  · exact absurd hn h0
  · exact absurd hbusy hidle
  · exact absurd hbusy hidle
  · exact he

/-- The registers of a reset block are those of `State.reset` (R340, R50). -/
theorem regValue_resetBlock (s : State) (n : Nat) : regValue (resetBlock s) n = 0 :=
  (show regValue (resetBlock s) n = regValue State.reset n from rfl).trans (regValue_reset n)

end Sys2Proof.Machine

/-! SUPPORT. The core's phases followed to the completion, and how many of them there are (R350, R351). -/

namespace Sys2Proof.Machine

/-! ### Which phase comes next -/

/-- The values PHASE can take after one phase of the core. -/
def Phase.successors : Phase → List Phase
  | .idle => [.idle]
  | .header => [.header]
  | .rawLoop => [.rawLoop, .finish]
  | .pkFirst => [.idle, .pkCount]
  | .pkCount => [.idle, .pkLoop]
  | .pkLoop => [.idle, .pkLoop, .finish]
  | .rleFirst => [.idle, .rleDelta]
  | .rleDelta => [.idle, .rleCount]
  | .rleCount => [.idle, .rleFill]
  | .rleFill => [.rleFill, .finish]
  | .finish => [.idle]

/-- A phase ends the operation, stays in its loop, or leads to the next one (R45). -/
theorem phaseStep_phase_mem (u : Unpacker) (s : State) :
    (phaseStep u s).phase ∈ s.phase.successors := by
  cases hp : s.phase <;> simp only [phaseStep, hp, Phase.successors]
  case idle | header => exact List.mem_singleton_self _
  case rawLoop =>
    rcases rawLoopPhase_cases s with ⟨-, h⟩ | ⟨-, h⟩ <;> simp [h, rawElementStep, hp]
  case pkFirst => rcases pkFirstPhase_cases s with ⟨-, h⟩ | ⟨-, h⟩ <;> simp [h]
  case pkCount =>
    rcases pkCountPhase_cases u s with ⟨d, -, h⟩ | ⟨n, -, h⟩
    · simp [h]
    · rcases pkSize_cases n s with ⟨-, hn⟩ | ⟨-, hn⟩ <;> simp [h, hn]
  case pkLoop =>
    rcases pkLoopPhase_cases u s with ⟨-, h⟩ | ⟨-, ⟨d, -, h⟩ | ⟨vs, -, h⟩⟩ <;>
      simp [h, pkValues_phase, hp]
  case rleFirst => rcases rleFirstPhase_cases s with ⟨-, h⟩ | ⟨-, h⟩ <;> simp [h]
  case rleDelta => rcases rleDeltaPhase_cases s with ⟨-, h⟩ | ⟨v, n, -, h⟩ <;> simp [h]
  case rleCount =>
    rcases rleCountPhase_cases s with ⟨-, h⟩ | ⟨v, n, -, h⟩
    · simp [h]
    · rcases rleSize_cases v.toNat n s with ⟨-, hn⟩ | ⟨-, hn⟩ <;> simp [h, hn]
  case rleFill =>
    rcases rleFillPhase_cases s with ⟨-, h⟩ | ⟨-, h⟩ <;> simp [h, rleElementStep_phase, hp]
  case finish => simp

/-- No phase leads back to HEADER. -/
theorem phaseStep_phase_ne_header (u : Unpacker) {s : State} (h : s.phase ≠ .header) :
    (phaseStep u s).phase ≠ .header := by
  have hback (p : Phase) (hp : p ≠ .header) : Phase.header ∉ p.successors := by
    cases p with
    | header => exact absurd rfl hp
    | _ => decide
  exact fun he => hback s.phase h (he ▸ phaseStep_phase_mem u s)

/-! ### The core's moves past the dispatch -/

/-- Past HEADER the core's moves one after another are a run of phases; an idle core does not move. -/
theorem phases_eq_runPhases {s : State} (h : s.Inv) (hp : s.phase ≠ .header) (n : Nat) :
    phases n s = .next (runPhases unpacker n s) := by
  induction n generalizing s with
  | zero => rfl
  | succ n ih =>
    by_cases hidle : s.phase = .idle
    · have hb : s.status.busy = false :=
        Bool.eq_false_of_not_eq_true fun hb => h.busy_phase.1 hb hidle
      rw [phases, phaseCore_idle hb, runPhases_idle hidle]
      exact (ih h hp).trans (by rw [runPhases_idle hidle])
    · have hmove : phaseCore s = .next (phaseStep unpacker s) := by
        rw [phaseCore_eq, if_pos (h.busy_phase.2 hidle), if_neg hp]
      rw [phases, hmove, runPhases_step hidle rfl]
      exact ih (phaseStep_inv unpacker_admitted h) (phaseStep_phase_ne_header unpacker hp)

/-! ### The completion and its distance -/

/-- The phases from `s` reach the completion `t`, whose result fits the capacity, and they are no more than
LEN, RESULT_LEN and `k` added up (R351). -/
structure CompletesWithin (u : Unpacker) (k : Nat) (s t : State) : Prop where
  idle : t.phase = .idle
  done : t.status.done = true
  resultLen_le : t.resultLen.toNat ≤ s.regs.cap
  run : ∃ n, n ≤ s.regs.len + t.resultLen.toNat + k ∧ runPhases u n s = t

section

variable {u : Unpacker} {k : Nat} {s t : State}

theorem CompletesWithin.mono {m : Nat} (h : CompletesWithin u k s t) (hm : k ≤ m) :
    CompletesWithin u m s t := by
  obtain ⟨n, hn, hrun⟩ := h.run
  exact { h with run := ⟨n, by omega, hrun⟩ }

/-- One phase that keeps LEN and CAP, before a completion. -/
theorem CompletesWithin.step (h : CompletesWithin u k (phaseStep u s) t) (hon : GoesOn s (phaseStep u s))
    (hidle : s.phase ≠ .idle) : CompletesWithin u (k + 1) s t := by
  obtain ⟨n, hn, hrun⟩ := h.run
  rw [hon.len] at hn
  exact
    { idle := h.idle
      done := h.done
      resultLen_le := hon.cap ▸ h.resultLen_le
      run := ⟨n + 1, by omega, (runPhases_step hidle rfl n).trans hrun⟩ }

/-- An error completion is one phase away. -/
theorem CompletesWithin.of_raise {kind : ErrKind} {info : Word} (hidle : s.phase ≠ .idle)
    (he : phaseStep u s = raise kind info s) : CompletesWithin u (k + 1) s (raise kind info s) where
  idle := rfl
  done := rfl
  resultLen_le := Nat.zero_le _
  run := ⟨1, Nat.le_add_left 1 _, runPhases_step hidle he 0⟩

/-- A success completion after `n` phases that keep NOUT: RESULT_LEN is NOUT, since no capacity of an
operation exceeds a register (R26, R37). -/
theorem CompletesWithin.of_returnOk {n : Nat} {v : State} (h : s.InvWith u) (hidle : s.phase ≠ .idle)
    (hcap : s.regs.nout ≤ s.regs.cap) (hrun : runPhases u n s = returnOk v)
    (hnout : v.regs.nout = s.regs.nout) (hn : n ≤ s.regs.len + s.regs.nout + k) :
    CompletesWithin u k s (returnOk v) := by
  have hmax : s.regs.nout ≤ maxWord := hcap.trans ((h.cap_le_outMax hidle).trans h.outMax_le)
  have hlen : (returnOk v).resultLen.toNat = s.regs.nout := by
    rw [← hnout] at hmax ⊢
    exact Nat.mod_eq_of_lt (Nat.lt_succ_of_le hmax)
  exact
    { idle := rfl
      done := rfl
      resultLen_le := hlen ▸ hcap
      run := ⟨n, hlen ▸ hn, hrun⟩ }

/-- The rest of the operation completes within the bound of `runOp` (R350). -/
theorem CompletesWithin.runOp_eq (h : CompletesWithin u k s t) (hk : k ≤ 8) : runOp u s = t := by
  obtain ⟨n, hn, hrun⟩ := h.run
  have hcap := h.resultLen_le
  exact runOp_of_runPhases hrun h.idle (by rw [phaseBound]; omega)

/-! ### From each phase -/

theorem completes_of_finish (h : s.InvWith u) (hp : s.phase = .finish) :
    ∃ t, CompletesWithin u 1 s t := by
  have hinv := h.phase_inv
  simp only [phaseInv, hp] at hinv
  obtain ⟨-, -, hcap, -⟩ := hinv
  have hidle : s.phase ≠ .idle := by rw [hp]; decide
  have hrun : runPhases u 1 s = returnOk s :=
    runPhases_step (t := returnOk s) hidle (by simp only [phaseStep, hp]) 0
  exact ⟨_, .of_returnOk h hidle hcap hrun rfl (by omega)⟩

theorem completes_of_rawLoop (h : s.InvWith u) (hp : s.phase = .rawLoop) :
    ∃ t, CompletesWithin u 2 s t := by
  have hinv := h.phase_inv
  simp only [phaseInv, hp] at hinv
  obtain ⟨-, -, -, hcap, hidx, -⟩ := hinv
  exact ⟨_, .of_returnOk h (by rw [hp]; decide) hcap (rawLoop_run u hp (Nat.add_sub_of_le hidx).symm)
    (by rw [rawElements_regs]) (by omega)⟩

theorem completes_of_rleFill (h : s.InvWith u) (hp : s.phase = .rleFill) :
    ∃ t, CompletesWithin u 2 s t := by
  have hinv := h.phase_inv
  simp only [phaseInv, hp] at hinv
  obtain ⟨-, -, -, -, -, -, -, hcap, hidx, -⟩ := hinv
  exact ⟨_, .of_returnOk h (by rw [hp]; decide) hcap (rleFill_run u hp (Nat.add_sub_of_le hidx).symm)
    (by rw [rleElements_regs]) (by omega)⟩

/-- The decoding pass takes a phase for each packed word, of which there are fewer than bytes (R95). -/
theorem completes_of_pkLoop (h : s.InvWith u) (hp : s.phase = .pkLoop) :
    ∃ t, CompletesWithin u 2 s t := by
  have hinv := h.phase_inv
  simp only [phaseInv, hp] at hinv
  obtain ⟨-, -, -, -, -, -, hcap, vs, hvs, -⟩ := hinv
  have hrun := pkLoop_run u hp rfl hvs
  rw [wordsOf_bytesAt_length] at hrun
  exact ⟨_, .of_returnOk h (by rw [hp]; decide) hcap hrun (by rw [pkValues_regs, advance_regs])
    (by omega)⟩

/-- A phase before the loops ends the operation in an error, or is followed by the phases of its one other
successor. -/
theorem completes_of_successor (hu : u.Admitted) (h : s.InvWith u) {p : Phase} (hidle : s.phase ≠ .idle)
    (hsucc : s.phase.successors = [.idle, p])
    (hnext : ∀ {v : State}, v.InvWith u → v.phase = p → ∃ t, CompletesWithin u k v t) :
    ∃ t, CompletesWithin u (k + 1) s t := by
  rcases phaseStep_outcome u s with ⟨kind, info, -, he⟩ | ⟨hfinish, -⟩ | ⟨hon, -⟩
  · exact ⟨_, .of_raise hidle he⟩
  · rw [hfinish] at hsucc
    cases hsucc
  · have hmem := phaseStep_phase_mem u s
    rw [hsucc, List.mem_pair] at hmem
    obtain ⟨t, ht⟩ := hnext (phaseStep_inv hu h) (hmem.resolve_left (hon.phase hidle))
    exact ⟨t, ht.step hon hidle⟩

section

variable (hu : u.Admitted) (h : s.InvWith u)

include hu h

theorem completes_of_pkCount (hp : s.phase = .pkCount) : ∃ t, CompletesWithin u 3 s t :=
  completes_of_successor hu h (by rw [hp]; decide) (by rw [hp]; rfl) completes_of_pkLoop

theorem completes_of_pkFirst (hp : s.phase = .pkFirst) : ∃ t, CompletesWithin u 4 s t :=
  completes_of_successor hu h (by rw [hp]; decide) (by rw [hp]; rfl) (completes_of_pkCount hu)

theorem completes_of_rleCount (hp : s.phase = .rleCount) : ∃ t, CompletesWithin u 3 s t :=
  completes_of_successor hu h (by rw [hp]; decide) (by rw [hp]; rfl) completes_of_rleFill

theorem completes_of_rleDelta (hp : s.phase = .rleDelta) : ∃ t, CompletesWithin u 4 s t :=
  completes_of_successor hu h (by rw [hp]; decide) (by rw [hp]; rfl) (completes_of_rleCount hu)

theorem completes_of_rleFirst (hp : s.phase = .rleFirst) : ∃ t, CompletesWithin u 5 s t :=
  completes_of_successor hu h (by rw [hp]; decide) (by rw [hp]; rfl) (completes_of_rleDelta hu)

/-- From any point past the dispatch (R350). -/
theorem completes_past_header (hidle : s.phase ≠ .idle) (hheader : s.phase ≠ .header) :
    ∃ t, CompletesWithin u 5 s t := by
  have hmono {k : Nat} (hk : k ≤ 5) (hs : ∃ t, CompletesWithin u k s t) :
      ∃ t, CompletesWithin u 5 s t := hs.imp fun _ ht => ht.mono hk
  cases hp : s.phase with
  | idle => exact absurd hp hidle
  | header => exact absurd hp hheader
  | rawLoop => exact hmono (by decide) (completes_of_rawLoop h hp)
  | pkFirst => exact hmono (by decide) (completes_of_pkFirst hu h hp)
  | pkCount => exact hmono (by decide) (completes_of_pkCount hu h hp)
  | pkLoop => exact hmono (by decide) (completes_of_pkLoop h hp)
  | rleFirst => exact completes_of_rleFirst hu h hp
  | rleDelta => exact hmono (by decide) (completes_of_rleDelta hu h hp)
  | rleCount => exact hmono (by decide) (completes_of_rleCount hu h hp)
  | rleFill => exact hmono (by decide) (completes_of_rleFill h hp)
  | finish => exact hmono (by decide) (completes_of_finish h hp)

end

end

/-! ### The operation as a whole -/

/-- The core's moves from `s` reach the completion at which an undisturbed run of it ends. -/
def movesReachCompletion (s : State) : Prop :=
  ∃ n t, phases n s = .next t ∧ runCore s = .next t ∧ t.phase = .idle ∧ t.status.done = true ∧
    n ≤ s.regs.len + t.resultLen.toNat + 6

theorem movesReachCompletion_past_header {s : State} (h : s.Inv) (hbusy : s.status.busy = true)
    (hp : s.phase ≠ .header) : movesReachCompletion s := by
  obtain ⟨t, ht⟩ := completes_past_header unpacker_admitted h (h.busy_phase.1 hbusy) hp
  obtain ⟨n, hn, hrun⟩ := ht.run
  have hcore : runCore s = .next (runOp unpacker s) := by rw [runCore_eq, if_pos hbusy, if_neg hp]
  exact ⟨n, t, (phases_eq_runPhases h hp n).trans (congrArg _ hrun),
    hcore.trans (congrArg _ (ht.runOp_eq (by decide))), ht.idle, ht.done, by omega⟩

/-- The dispatch leaves HEADER. -/
theorem enter_phase_ne_header (s : State) : (enter (fetchInstr s) s).phase ≠ .header := by
  rcases enter_fetchInstr_cases s with he | ⟨-, he | he | he | ⟨nib, he⟩⟩ <;> rw [he]
  · exact Phase.noConfusion
  · rcases enterRaw_cases s with ⟨kind, info, -, hraw⟩ | ⟨-, -, hraw⟩ <;> rw [hraw] <;>
      exact Phase.noConfusion
  all_goals exact Phase.noConfusion

/-- The step at HEADER is a completion, or the operation goes on. -/
theorem enter_ends_or_goesOn (s : State) :
    ((enter (fetchInstr s) s).phase = .idle ∧ (enter (fetchInstr s) s).status.done = true) ∨
      GoesOn s (enter (fetchInstr s) s) := by
  rcases enter_outcome s with he | ⟨kind, info, nib, -, he⟩ | hon
  · exact .inl (he ▸ ⟨rfl, rfl⟩)
  · exact .inl (he ▸ ⟨rfl, rfl⟩)
  · exact .inr hon

/-- After the dispatch the operation has ended, or the strategy's phases follow. -/
theorem enter_completes {s : State} (h : s.Inv) (hp : s.phase = .header)
    (hlen : s.regs.len ≤ s.params.inMax) :
    ∃ t n, n ≤ s.regs.len + t.resultLen.toNat + 5 ∧
      runPhases unpacker n (enter (fetchInstr s) s) = t ∧
      runOp unpacker (enter (fetchInstr s) s) = t ∧ t.phase = .idle ∧ t.status.done = true := by
  rcases enter_ends_or_goesOn s with ⟨hidle, hdone⟩ | hon
  · exact ⟨_, 0, Nat.zero_le _, rfl, runOp_idle hidle, hidle, hdone⟩
  · obtain ⟨t, ht⟩ := completes_past_header unpacker_admitted (enter_inv h hp hlen)
      (hon.phase (by rw [hp]; decide)) (enter_phase_ne_header s)
    obtain ⟨n, hn, hrun⟩ := ht.run
    exact ⟨t, n, hon.len ▸ hn, hrun, ht.runOp_eq (by decide), ht.idle, ht.done⟩

theorem movesReachCompletion_header {s : State} (h : s.Inv) (hbusy : s.status.busy = true)
    (hp : s.phase = .header) : movesReachCompletion s := by
  rcases Nat.lt_or_ge s.params.inMax s.regs.len with hlong | hlen
  · have hmove : phaseCore s = .next (raiseInputRange s) := by
      rw [phaseCore_eq, if_pos hbusy, if_pos hp, if_pos hlong]
    exact ⟨1, _, by rw [phases, hmove]; rfl, runCore_inputRange hbusy hp hlong, rfl, rfl, by omega⟩
  · obtain ⟨t, n, hn, hrun, hop, hidle, hdone⟩ := enter_completes h hp hlen
    have hmove : phaseCore s = .next (enter (fetchInstr s) s) := by
      rw [phaseCore_eq, if_pos hbusy, if_pos hp, if_neg (Nat.not_lt.2 hlen)]
    refine ⟨n + 1, t, ?_, ?_, hidle, hdone, by omega⟩
    · rw [phases, hmove, ← hrun]
      exact phases_eq_runPhases (enter_inv h hp hlen) (enter_phase_ne_header s) n
    · rw [runCore_at_header hbusy hp hlen, exec_eq_runOp_enter, hop]

end Sys2Proof.Machine

/-! The statements of `spec/60_exceptions.md`: the completions of an operation (R309 to R311) and the idle
core (R335). -/

namespace Sys2Proof.Proofs

open Sys2Proof.Machine

/-- Settles O45: an error completion comes before any store to OUT, and InputRange before the dispatch. -/
theorem errorsLeaveNoOutput : Obligations.ErrorsLeaveNoOutput := by
  refine ⟨fun i s t h herr => ?_, fun s => ⟨raise_outMem s _ _, raise_resultLen s _ _⟩⟩
  obtain ⟨t', ht', hend⟩ := exec_end i s
  cases ht'.symm.trans h
  exact hend.of_err herr

/-- Settles O28: `raise` is `complete` with the STATUS of an error. -/
theorem raiseRecordsTheError : Obligations.RaiseRecordsTheError := fun k info s =>
  ⟨rfl, rfl, rfl, rfl, rfl, raise_outside k info s⟩

/-- Settles O29: both returns are `complete` with a STATUS without an error. -/
theorem returnRecordsTheResult : Obligations.ReturnRecordsTheResult := fun s =>
  ⟨⟨rfl, rfl, rfl, rfl, rfl, returnOk_outside s⟩,
    ⟨rfl, rfl, rfl, rfl, rfl, complete_outside okEmptyStatus 0 0 s⟩⟩

/-- Settles O52: both ways the core moves look at BUSY first. -/
theorem idleCoreTakesNoStep : Obligations.IdleCoreTakesNoStep := fun _ hidle =>
  ⟨runCore_idle hidle, phaseCore_idle hidle, fun he => (step_of_no_event he).trans (runCore_idle hidle)⟩

end Sys2Proof.Proofs

/-! The statements of `spec/70_reset_and_hazards.md`: reset (R340, R341), the hazard (R344), the host's writes
while busy (R347), and the completion of every operation (R350, R351). -/

namespace Sys2Proof.Proofs

open Sys2Proof.Machine

/-- Settles O47: every end of an instruction is a completion. -/
theorem everyInstructionCompletes : Obligations.EveryInstructionCompletes := by
  intro i s
  obtain ⟨t, ht, hend⟩ := exec_end i s
  exact ⟨t, ht, hend.phase_idle, hend.done⟩

/-- Settles O51: a loop takes no more phases than the block has bytes or the result elements, and no more than
six phases come before and after it. -/
theorem phasesReachTheCompletion : Obligations.PhasesReachTheCompletion := by
  intro s h hbusy
  have hreach : movesReachCompletion s := by
    by_cases hp : s.phase = .header
    · exact movesReachCompletion_header h hbusy hp
    · exact movesReachCompletion_past_header h hbusy hp
  obtain ⟨n, t, hphases, hrun, hidle, hdone, hn⟩ := hreach
  exact ⟨n, t, hphases, hrun, hidle, hdone, by omega⟩

/-- Settles O53: only a host command can fault, and only as a store while BUSY = 1; the configured unpacker
is admitted. -/
theorem onlyHazardsFault : Obligations.OnlyHazardsFault := by
  refine fun s => ⟨fun f h => ?_, fun r => stepWith_ne_refused unpacker_admitted unpackerDecision s r⟩
  obtain ⟨c, es, he, hc⟩ := step_fault h
  obtain ⟨hf, hbusy, ⟨p, b, rfl⟩ | ⟨i, v, rfl⟩⟩ := hostCommand_fault hc
  · exact ⟨hf, hbusy, .inl ⟨p, b, es, he⟩⟩
  · exact ⟨hf, hbusy, .inr ⟨i, v, es, he⟩⟩

/-- Settles O20: IN_LEN and OUT_CAP are guarded by BUSY, CTRL stores IRQ_EN before it looks at BUSY. -/
theorem busyRegisterWritesAreIgnored : Obligations.BusyRegisterWritesAreIgnored := fun _ _ v hbusy =>
  ⟨fun h0 => congrArg _ (regWrite_ignored_busy hbusy h0 v), congrArg _ (ctrlWrite_busy hbusy v)⟩

/-- Settles O25: a reset event is `resetBlock`, whose state is idle. -/
theorem resetGivesEveryRegisterItsValue : Obligations.ResetGivesEveryRegisterItsValue := fun s es he =>
  ⟨resetBlock { s with events := es }, step_of_event he, regValue_resetBlock _, rfl, rfl, rfl, rfl, rfl,
    rfl, runCore_idle rfl, phaseCore_idle rfl⟩

end Sys2Proof.Proofs
